-- ==== Sys2Proof/Word.lean ====
section
/-! DEFINITION. The word types of the block: bytes, bit-pairs, house codes and Commands (R11, R12, R17, R43). -/

namespace Sys2Proof

/-- A byte, bit 7 the most significant (R11). -/
abbrev Byte := BitVec 8

/-- A bit-pair: one of the four 2-bit fields of a byte (R11). -/
abbrev Pair := BitVec 2

/-- A house code `(hc1, hc2)`, the ordered pair of R62 and R17. -/
structure HouseCode where
  hc1 : Byte
  hc2 : Byte
  deriving DecidableEq, Repr

/-- The Command tuple of R17 and R43. The address byte is always carried; `Config.Params.adrUsed` says
whether the Command type of the block has it (R107). -/
structure Command where
  hc1 : Byte
  hc2 : Byte
  address : Byte
  command : Byte
  extension : Byte
  deriving DecidableEq, Repr

/-- The Command of zeros: what a reader leaves of a frame it could not read (R139). -/
def Command.zero : Command := ⟨0, 0, 0, 0, 0⟩

end Sys2Proof
end

