-- ==== Sys2Proof/Config.lean ====
section
/-! DEFINITION. The protocol constants (R9, rows FIXED and decided), the implementation parameters (R9, rows
OPEN) and the free values: what the environment answers when nothing is scripted, and the fields of a failed
decode. -/

namespace Sys2Proof

/-- A percentage the Demand source may answer: an integer in `[0,100]` (R16, R82). -/
abbrev Percent := Fin 101

/-- The range of `MIN_REALLY_OPEN_PC`: an integer in `[1,100]` (R9, R83). -/
abbrev Threshold := { n : Nat // 1 ≤ n ∧ n ≤ 100 }

namespace Config

/-- `SYNC_START` (R9, R196). -/
def syncStart : Byte := 241
/-- `SYNC_STEP_DEC` (R9, R197). -/
def syncStepDec : Byte := 2
/-- `FINAL_WAIT_BASE` (R9). -/
def finalWaitBase : Nat := 8
/-- `GAP_BASE` (R9). -/
def gapBase : Nat := 230
/-- `EXTRA_TX_LO`, exclusive (R9, R204). -/
def extraTxLo : Nat := 20
/-- `EXTRA_TX_HI`, exclusive (R9, R204). -/
def extraTxHi : Nat := 210
/-- `CHECKSUM_SEED` (R9, R134). -/
def checksumSeed : Byte := 0x0C
/-- `PREAMBLE_BYTE` (R9). -/
def preambleByte : Byte := 0xCC
/-- `PREAMBLE_LEN` (R9). -/
def preambleLen : Nat := 6
/-- `TERMINATOR` (R9, R135). -/
def terminator : Byte := 0xFF
/-- `CMD_VALVE_SET` (R9, R101). -/
def cmdValveSet : Byte := 0x26
/-- `CMD_SYNC_STEP` (R9, R102). -/
def cmdSyncStep : Byte := 0x2C
/-- `CMD_SYNC_FINAL` (R9, R103). -/
def cmdSyncFinal : Byte := 0x20
/-- `RX_BUF_CAP` (R9). -/
def rxBufCap : Nat := 46
/-- `RX_MAX_FRAME_LEN` (R9). -/
def rxMaxFrameLen : Nat := 46
/-- `RX_LEADING_FILTER` (R9). -/
def rxLeadingFilter : Bool := true
/-- Bytes of the caller's buffer `B` of `ENCODE`: "at least `BUF_CAP` bytes" (R60); 48 holds every frame (R100).
No operation writes beyond it. DESIGN CHOICE, safe: log entry 5. -/
def callerCap : Nat := 48

/-- The implementation parameters of R9 that are not fixed by the protocol: the three OPEN rows, each within its
range, and the decided `ADR_USED`. They are arguments of the model: a field of State that no step writes. -/
structure Params where
  /-- `MAX_SLOT`, 0..7 (R9, R10). -/
  maxSlot : Fin 8
  /-- `MIN_REALLY_OPEN_PC`, 1..100 (R9, R83). -/
  minReallyOpenPc : Threshold
  /-- `ACL_CAP`, 0 or more (R9, R35). -/
  aclCap : Nat
  /-- `ADR_USED` (R9, R107). -/
  adrUsed : Bool
  deriving DecidableEq, Repr

/-- The parameter values `State.reset` carries: `MAX_SLOT` 3 is the spec's reference value (PRESUMED, general
knowledge G2), `MIN_REALLY_OPEN_PC` 15 and `ACL_CAP` 2 are those of its example programs (DESIGN CHOICE),
`ADR_USED` false is decided (D3). Unsafe for a claim that rests on them: log entry 1. -/
def Params.reference : Params := ⟨3, ⟨15, by decide⟩, 2, false⟩

/-- Free value: answer of the `n`-th collaborator call when it is `getHouseCode1` and nothing is scripted (R81, U18). -/
opaque envHouseCode1 : Nat → Byte
/-- Free value: answer of the `n`-th collaborator call when it is `getHouseCode2` (R81, U18). -/
opaque envHouseCode2 : Nat → Byte
/-- Free value: answer of the `n`-th collaborator call when it is `getRequestedOpenPercent` (R82, U18). -/
opaque envDemand : Nat → Percent
/-- Free value: `frameReceived` of the `n`-th collaborator call when it is `readStatus` (R80, U17). -/
opaque envFrameReceived : Nat → Bool
/-- Free value: `fifoFault` of the `n`-th collaborator call when it is `readStatus` (R80, U17). -/
opaque envFifoFault : Nat → Bool
/-- Free value: byte `i` of the `n`-th collaborator call's answer when it is `readFrame` (R80, U17). -/
opaque envFrameByte : (n i : Nat) → Byte
/-- Free value: field `k` of the Command a failed `DECODE` answers, the `n`-th such answer (R146, U1). -/
opaque failedDecodeField : (n k : Nat) → Byte

end Config

end Sys2Proof
end

