-- ==== Sys2Proof/Machine/Flags.lean ====
section
/-! DEFINITION. The check values of the wire formats: parity of a unit (R96), checksum of a Command (R99, R134), and
the length formula of a frame (R98). -/

namespace Sys2Proof.Machine

/-- The eight bits of a byte, most significant first (R62, R95). -/
def byteBits (b : Byte) : List Bool :=
  [b.getLsbD 7, b.getLsbD 6, b.getLsbD 5, b.getLsbD 4, b.getLsbD 3, b.getLsbD 2, b.getLsbD 1, b.getLsbD 0]

/-- `parity8(b)`: XOR of the eight bits (R14, R96). -/
def parity8 (b : Byte) : Bool := (byteBits b).foldl xor false

/-- `popcount(b)` (R12). -/
def popcount (b : Byte) : Nat := (byteBits b).countP id

/-- `k(b)`: half the number of 1 bits of the unit of `b`, its parity bit included (R96). -/
def unitOnesHalf (b : Byte) : Nat := (popcount b + (parity8 b).toNat) / 2

/-- `CHECKSUM(hc1, hc2, adr, cmd, ext)` (R99, R134): the one modular operation of the spec. -/
def checksum (c : Command) : Byte :=
  BitVec.ofNat 8 ((Config.checksumSeed.toNat + c.hc1.toNat + c.hc2.toNat + c.address.toNat + c.command.toNat
    + c.extension.toNat) % 256)

/-- `K` of a frame: the sum of `k` over the six body bytes (R98). -/
def frameOnesHalf (c : Command) (chk : Byte) : Nat :=
  unitOnesHalf c.hc1 + unitOnesHalf c.hc2 + unitOnesHalf c.address + unitOnesHalf c.command
    + unitOnesHalf c.extension + unitOnesHalf chk

/-- The length formula `LEN = 35 + ceil(K / 2)` of R98. -/
def frameLength (c : Command) : Nat := 35 + (frameOnesHalf c (checksum c) + 1) / 2

end Sys2Proof.Machine
end

