-- ==== Sys2Proof/Syntax.lean ====
section
/-! DEFINITION. The instructions of the block, one constructor per row of the opcode table, and the requests that
carry them in the five formats of R90. -/

namespace Sys2Proof

/-- The two sides of the codec a frame command can meet: the encoder that makes its frame (R136) or the decoder that
reads it (R145). Log entry 6. -/
inductive Side where
  | encode
  | decode
  deriving DecidableEq, Repr

/-- The first cause of failure of a decode session (R138, R301 codes 1 to 5; `none` is the spec's `NONE`). -/
inductive Cause where
  | none
  | malformedPair
  | parity
  | exhausted
  | checksum
  | trailer
  deriving DecidableEq, Repr

/-- How a symbol, a unit or a frame is met as an operation of the codec (log entry 6): the encoder makes it (R132, R133,
R136), the decoder reads it (R141, R142, R145), or the decoder reads the window `w` and finds it broken: `w` does not start
with such an item (R112). -/
inductive WireSide where
  | encode
  | decode
  | broken (w : List Byte)
  deriving DecidableEq, Repr

/-- The instructions: one constructor for each row of spec/opcode_table.json. -/
inductive Instr where
  /-- `SYM0`: the symbol of logical bit 0 (R91). A broken symbol is `SYM0` unless its pairs start `'11' '10'` (R92). -/
  | sym0 (side : WireSide)
  /-- `SYM1`: the symbol of logical bit 1 (R91). A broken one starts `'11' '10'` (R92). -/
  | sym1 (side : WireSide)
  /-- `UNIT`: eight data bits and a parity bit (R95); 0 where the unit is broken (R139). -/
  | unit (side : WireSide) (b : Byte) (p : Bool)
  /-- `FRAME`: a Command and its checksum unit (R97); 0 where the frame is broken (R139). -/
  | frame (side : WireSide) (c : Command) (chk : Byte)
  /-- `VALVE_SET`: command byte `0x26` in a frame of the house code `src` (R101). -/
  | valveSet (side : Side) (src : HouseCode) (ext : Byte)
  /-- `SYNC_STEP`: command byte `0x2C` (R102). -/
  | syncStep (side : Side) (src : HouseCode) (ext : Byte)
  /-- `SYNC_FINAL`: command byte `0x20` (R103). -/
  | syncFinal (side : Side) (src : HouseCode) (ext : Byte)
  /-- `RESET` (R340). -/
  | reset
  /-- `ENCODE` (R136); the destination is the caller's buffer. -/
  | encode (c : Command)
  /-- `DECODE` (R145) of the window `w`. -/
  | decode (w : List Byte)
  /-- `VALVE_BUILD` (R176). -/
  | valveBuild
  /-- `POLL_FIRST` (R192). -/
  | pollFirst
  /-- `POLL_NEXT` (R193). -/
  | pollNext
  /-- `EXTRA_TX` (R204). -/
  | extraTx
  /-- `SYNC_RESET` (R207). -/
  | syncReset
  /-- `LOCAL_DISABLE` (R208). -/
  | localDisable
  /-- `LOCAL_ENABLE` (R209). -/
  | localEnable
  /-- `IS_OPEN` (R240). -/
  | isOpen
  /-- `HUB_ENABLE` (R252). -/
  | hubEnable (force : Bool)
  /-- `HUB_DISABLE` (R253). -/
  | hubDisable
  /-- `HUB_POLL` (R254). -/
  | hubPoll
  /-- `LATCH_GET_CLEAR` (R263). -/
  | latchGetClear
  /-- `ACL_ADD` (R265). -/
  | aclAdd (hc : HouseCode)
  /-- `ACL_REMOVE` (R266). -/
  | aclRemove (hc : HouseCode)
  /-- `ACL_QUERY` (R267). -/
  | aclQuery (hc : HouseCode)
  /-- `ACL_COUNT` (R268). -/
  | aclCount
  /-- `RESERVED`: a request whose operation code is `0x00` or `0x14..0x1F` (R111). -/
  | reserved (code : BitVec 5)
  deriving DecidableEq, Repr

/-- A request: an item to be made, given by its operands; a window of bytes in which an item of a wire format (R90) is to
be read; the command and extension bytes of a frame of `src`; or an operation code with its argument bytes (R108). Layout:
log entry 9. -/
inductive Request where
  | makeSymbol (v : Bool)
  | makeUnit (b : Byte)
  | makeFrame (c : Command)
  | symbol (w : List Byte)
  | unit (w : List Byte)
  | frame (w : List Byte)
  | cmd (side : Side) (src : HouseCode) (command extension : Byte)
  | hostop (op : BitVec 5) (args : List Byte)
  deriving DecidableEq, Repr

/-- Why a host request is no input of the block: its arguments are out of range (R15, R305, U15). All safe: the spec
refuses them at the boundary. -/
inductive Reject where
  /-- The operation does not take that number of argument bytes (R109). -/
  | argumentCount
  /-- An argument is out of its range: a boolean is one bit (R110). -/
  | argumentRange
  deriving DecidableEq, Repr

end Sys2Proof
end

