-- ==== Sys2Proof/Machine/LineCode.lean ====
section
/-! DEFINITION. The line code (R91), units and frames as raw bits, their packing into bytes (R61), and the decode
session that reads them back (R138 to R148). -/

namespace Sys2Proof.Machine

/-- The raw bits of one logical bit, in time order (R91). -/
def symbolBits : Bool → List Bool
  | false => [true, true, false, false]
  | true => [true, true, true, false, false, false]

/-- The nine symbols of a byte and a parity bit (R95). -/
def unitBits (b : Byte) (p : Bool) : List Bool := (byteBits b).flatMap symbolBits ++ symbolBits p

/-- The raw bits of six bytes `0xCC`: twelve encoded 0 bits (R97, R136). -/
def preambleBits : List Bool := (List.replicate 12 false).flatMap symbolBits

/-- The raw bits of a frame, from the preamble to the redundant trailer bit (R97). -/
def frameBits (c : Command) (chk : Byte) : List Bool :=
  preambleBits ++ symbolBits true
    ++ unitBits c.hc1 (parity8 c.hc1) ++ unitBits c.hc2 (parity8 c.hc2) ++ unitBits c.address (parity8 c.address)
    ++ unitBits c.command (parity8 c.command) ++ unitBits c.extension (parity8 c.extension)
    ++ unitBits chk (parity8 chk) ++ symbolBits false ++ symbolBits false

/-- One byte from at most eight raw bits, the first one bit 7, missing bits 0 (R61, R98). -/
def byteOfBits (bits : List Bool) : Byte :=
  BitVec.ofNat 8 ((List.range 8).foldl (fun v i => 2 * v + (bits.getD i false).toNat) 0)

/-- Raw bits packed into bytes, most significant bit first, the last byte zero-padded (R61, R98). -/
def packBits : List Bool → List Byte
  | [] => []
  | a :: b :: c :: d :: e :: f :: g :: h :: rest => byteOfBits [a, b, c, d, e, f, g, h] :: packBits rest
  | bits => [byteOfBits bits]

/-- `pair(W, j)`: pair `j mod 4` of byte `W[floor(j / 4)]` (R14), or nothing past the end of the window. -/
def pairAt (W : List Byte) (j : Nat) : Option Pair :=
  (W[j / 4]?).map (fun b => b.extractLsb' (6 - 2 * (j % 4)) 2)

/-- A decode session `D = {W, j, failed, cause}` (R40, R138). -/
structure DecSession where
  W : List Byte
  j : Nat
  failed : Bool
  cause : Cause
  deriving DecidableEq, Repr

/-- A session at its start (R138). -/
def newSession (W : List Byte) : DecSession := ⟨W, 0, false, .none⟩

/-- `fail(D, c)`: the first failure is kept (R139). -/
def failWith (D : DecSession) (c : Cause) : DecSession :=
  if D.failed then D else { D with failed := true, cause := c }

/-- `NEXT_PAIR(D)` (R140). -/
def nextPair (D : DecSession) : Pair × DecSession :=
  if D.failed then (0, D)
  else
    match pairAt D.W D.j with
    | none => (0, failWith D .exhausted)
    | some v => (v, { D with j := D.j + 1 })

/-- `DEC_BIT(D)` (R141). -/
def decBit (D : DecSession) : Bool × DecSession :=
  if D.failed then (false, D)
  else
    let (p1, D1) := nextPair D
    if D1.failed then (false, D1)
    else if p1 ≠ 0b11 then (false, failWith D1 .malformedPair)
    else
      let (p2, D2) := nextPair D1
      if D2.failed then (false, D2)
      else if p2 = 0b00 then (false, D2)
      else if p2 ≠ 0b10 then (false, failWith D2 .malformedPair)
      else
        let (p3, D3) := nextPair D2
        if D3.failed then (false, D3)
        else if p3 ≠ 0b00 then (false, failWith D3 .malformedPair)
        else (true, D3)

/-- `k` data bits read msb first into `v`, with the running XOR `x` (the loop of R142). -/
def decBits : (k : Nat) → (v : Byte) → (x : Bool) → DecSession → Byte × Bool × DecSession
  | 0, v, x, D => (v, x, D)
  | k + 1, v, x, D =>
    let (b, D') := decBit D
    decBits k ((v <<< 1) ||| BitVec.ofNat 8 b.toNat) (xor x b) D'

/-- `DEC_UNIT(D)` (R142). -/
def decUnit (D : DecSession) : Byte × DecSession :=
  if D.failed then (0, D)
  else
    let (v, x, D1) := decBits 8 0 false D
    let (q, D2) := decBit D1
    if D2.failed then (0, D2)
    else if xor x q then (0, failWith D2 .parity)
    else (v, D2)

/-- The loop of `FIND_START` (R143), at most `fuel` passes; a pass that does not end it reads two pairs. -/
def findStartLoop : (fuel : Nat) → DecSession → DecSession
  | 0, D => D
  | fuel + 1, D =>
    let (b, D') := decBit D
    if D'.failed then D'
    else if b then D'
    else findStartLoop fuel D'

/-- `FIND_START(D)`: skip leading encoded zeros up to the start bit (R143). -/
def findStart (D : DecSession) : DecSession := findStartLoop (4 * D.W.length + 1) D

/-- Steps (1) and (2) of decode: the start search and the six units, in order (R145). -/
def decBody (D : DecSession) : Command × Byte × DecSession :=
  let D0 := findStart D
  let (hc1, D1) := decUnit D0
  let (hc2, D2) := decUnit D1
  let (adr, D3) := decUnit D2
  let (cmd, D4) := decUnit D3
  let (ext, D5) := decUnit D4
  let (chk, D6) := decUnit D5
  (⟨hc1, hc2, adr, cmd, ext⟩, chk, D6)

/-- The nine symbols at the start of a window, as a byte and a parity bit: read, the parity not checked (R95, R142). -/
def unitFields (W : List Byte) : Byte × Bool × DecSession :=
  let (v, _, D) := decBits 8 0 false (newSession W)
  let (p, D) := decBit D
  (v, p, D)

/-- Step (3): the checksum comparison (R145). -/
def checkChecksum (c : Command) (chk : Byte) (D : DecSession) : DecSession :=
  if !D.failed && chk != checksum c then failWith D .checksum else D

/-- Step (4): the trailing encoded 0 bit (R145). -/
def checkTrailer (D : DecSession) : DecSession :=
  let (t, D') := decBit D
  if !D'.failed && t then failWith D' .trailer else D'

/-- The Command and the checksum unit a window holds before a trailer 0: read, the checksum not compared (R97, R145). -/
def frameFields (W : List Byte) : Command × Byte × DecSession :=
  let (c, chk, D) := decBody (newSession W)
  (c, chk, checkTrailer D)

/-- Whether the first two pairs of a window are those of `SYM1`: the second pair tells the symbols apart (R92). -/
def startsAsOne (W : List Byte) : Bool := pairAt W 0 == some 0b11 && pairAt W 1 == some 0b10

/-- `DECODE(W)` (R145): the Command read and the session at its end, whose `failed` flag is the negation of `ok`. -/
def decodeWindow (W : List Byte) : Command × DecSession :=
  let (c, chk, D) := decBody (newSession W)
  (c, checkTrailer (checkChecksum c chk D))

end Sys2Proof.Machine
end

