-- ==== Sys2Proof/WellFormed.lean ====
section
/-! DEFINITION. Which instructions are well-formed: what the encoder makes carries its own check values, a broken item
really does not parse, and a reserved code is one. -/

namespace Sys2Proof

/-- The check behind `WellFormed`. -/
def wellFormed : Instr → Bool
  -- the unit the encoder makes carries its even parity (R95)
  | .unit .encode b p => p == Machine.parity8 b
  -- the frame the encoder makes carries the checksum of its Command (R97, R99)
  | .frame .encode c chk => chk == Machine.checksum c
  -- a broken symbol fails, and its second pair says which symbol it started as (R92, R141)
  | .sym0 (.broken w) => (Machine.decBit (Machine.newSession w)).2.failed && !Machine.startsAsOne w
  | .sym1 (.broken w) => (Machine.decBit (Machine.newSession w)).2.failed && Machine.startsAsOne w
  -- a broken unit does not start with nine symbols, and has no byte (R95, R139, R142)
  | .unit (.broken w) b p => (Machine.unitFields w).2.2.failed && b == 0 && p == false
  -- a broken frame lacks a start bit, six good units or trailer 0, and has no Command (R97, R139, R145)
  | .frame (.broken w) c chk => (Machine.frameFields w).2.2.failed && c == Command.zero && chk == 0
  -- the reserved codes (R111)
  | .reserved code => code == 0x00 || decide (0x14 ≤ code.toNat)
  | .sym0 .encode => true
  | .sym0 .decode => true
  | .sym1 .encode => true
  | .sym1 .decode => true
  | .unit .decode _ _ => true
  | .frame .decode _ _ => true
  | .valveSet _ _ _ => true
  | .syncStep _ _ _ => true
  | .syncFinal _ _ _ => true
  | .reset => true
  | .encode _ => true
  | .decode _ => true
  | .valveBuild => true
  | .pollFirst => true
  | .pollNext => true
  | .extraTx => true
  | .syncReset => true
  | .localDisable => true
  | .localEnable => true
  | .isOpen => true
  | .hubEnable _ => true
  | .hubDisable => true
  | .hubPoll => true
  | .latchGetClear => true
  | .aclAdd _ => true
  | .aclRemove _ => true
  | .aclQuery _ => true
  | .aclCount => true

/-- An instruction the block or its test harness can be given. -/
abbrev WellFormed (i : Instr) : Prop := wellFormed i = true

end Sys2Proof
end

