-- ==== Sys2Proof/Decode.lean ====
section
/-! DEFINITION. The decoder, total on any bytes: every window of a wire format (R90) is an instruction, broken or not, and a
host request is one or is rejected by name; and the encoder, its inverse on well-formed instructions. -/

namespace Sys2Proof

/-- What the decoder answers. -/
inductive Decoded where
  | ok (i : Instr)
  | reject (r : Reject)
  deriving DecidableEq, Repr

/-- A boolean argument byte: 1 for true (R110); any other value than 0 and 1 is out of range. -/
def boolArg (b : Byte) : Option Bool := if b = 0 then some false else if b = 1 then some true else none

/-- An operation without arguments (R109). -/
def noArgs (i : Instr) (args : List Byte) : Decoded :=
  match args with
  | [] => .ok i
  | _ => .reject .argumentCount

/-- An operation on a house code, two argument bytes `hc1, hc2` (R109). -/
def houseArgs (f : HouseCode → Instr) (args : List Byte) : Decoded :=
  match args with
  | [a, b] => .ok (f ⟨a, b⟩)
  | _ => .reject .argumentCount

/-- A host request: the operation code `op` and the argument bytes `args` (R109, R111). -/
def decodeHostop (op : BitVec 5) (args : List Byte) : Decoded :=
  match op.toNat with
  | 0x01 => noArgs .reset args
  | 0x02 =>
    match args with
    | [a, b, c, d, e] => .ok (.encode ⟨a, b, c, d, e⟩)
    | _ => .reject .argumentCount
  | 0x03 => .ok (.decode args)
  | 0x04 => noArgs .valveBuild args
  | 0x05 => noArgs .pollFirst args
  | 0x06 => noArgs .pollNext args
  | 0x07 => noArgs .extraTx args
  | 0x08 => noArgs .syncReset args
  | 0x09 => noArgs .localDisable args
  | 0x0A => noArgs .localEnable args
  | 0x0B => noArgs .isOpen args
  | 0x0C =>
    match args with
    | [f] =>
      match boolArg f with
      | some b => .ok (.hubEnable b)
      | none => .reject .argumentRange
    | _ => .reject .argumentCount
  | 0x0D => noArgs .hubDisable args
  | 0x0E => noArgs .hubPoll args
  | 0x0F => noArgs .latchGetClear args
  | 0x10 => houseArgs .aclAdd args
  | 0x11 => houseArgs .aclRemove args
  | 0x12 => houseArgs .aclQuery args
  | 0x13 => noArgs .aclCount args
  | _ => .ok (.reserved op)

/-- The symbol at the start of a window (R91, R92). -/
def decodeSymbol (w : List Byte) : Instr :=
  let (v, D) := Machine.decBit (Machine.newSession w)
  if D.failed then if Machine.startsAsOne w then .sym1 (.broken w) else .sym0 (.broken w)
  else if v then .sym1 .decode
  else .sym0 .decode

/-- The unit at the start of a window (R95, R61). The parity bit is read; `DEC_UNIT` checks it (R142). -/
def decodeUnit (w : List Byte) : Instr :=
  let (b, p, D) := Machine.unitFields w
  if D.failed then .unit (.broken w) 0 false else .unit .decode b p

/-- The frame in a window (R97, R145). The checksum is read; `DECODE` compares it. -/
def decodeFrame (w : List Byte) : Instr :=
  let (c, chk, D) := Machine.frameFields w
  if D.failed then .frame (.broken w) .zero 0 else .frame .decode c chk

/-- The frame of a Command, made or read (R136, R145). -/
def frameInstr (side : Side) (c : Command) : Instr :=
  match side with
  | .encode => .frame .encode c (Machine.checksum c)
  | .decode => .frame .decode c (Machine.checksum c)

/-- The command and extension bytes of a frame of `src` (R101 to R103). A command byte without meaning is codable all the
same: what is left is the frame it stands in (R106). -/
def decodeCmd (side : Side) (src : HouseCode) (command extension : Byte) : Instr :=
  if command = Config.cmdValveSet then .valveSet side src extension
  else if command = Config.cmdSyncStep then .syncStep side src extension
  else if command = Config.cmdSyncFinal then .syncFinal side src extension
  else frameInstr side ⟨src.hc1, src.hc2, 0x00, command, extension⟩

/-- The decoder. -/
def decodeRequest : Request → Decoded
  | .makeSymbol v => .ok (if v then .sym1 .encode else .sym0 .encode)
  | .makeUnit b => .ok (.unit .encode b (Machine.parity8 b))
  | .makeFrame c => .ok (.frame .encode c (Machine.checksum c))
  | .symbol w => .ok (decodeSymbol w)
  | .unit w => .ok (decodeUnit w)
  | .frame w => .ok (decodeFrame w)
  | .cmd side src command extension => .ok (decodeCmd side src command extension)
  | .hostop op args => decodeHostop op args

/-- The bytes of a frame with its terminator (R97), for any checksum unit. -/
def frameBytes (c : Command) (chk : Byte) : List Byte :=
  Machine.packBits (Machine.frameBits c chk) ++ [Config.terminator]

/-- The encoder: the request that carries an instruction, from the same encodings. The bytes of a symbol or a unit are its
raw bits packed from bit 7 (R61); those of a frame end in its terminator (R97). -/
def encodeInstr : Instr → Request
  | .sym0 .encode => .makeSymbol false
  | .sym0 .decode => .symbol (Machine.packBits (Machine.symbolBits false))
  | .sym0 (.broken w) => .symbol w
  | .sym1 .encode => .makeSymbol true
  | .sym1 .decode => .symbol (Machine.packBits (Machine.symbolBits true))
  | .sym1 (.broken w) => .symbol w
  | .unit .encode b _ => .makeUnit b
  | .unit .decode b p => .unit (Machine.packBits (Machine.unitBits b p))
  | .unit (.broken w) _ _ => .unit w
  | .frame .encode c _ => .makeFrame c
  | .frame .decode c chk => .frame (frameBytes c chk)
  | .frame (.broken w) _ _ => .frame w
  | .valveSet side src ext => .cmd side src Config.cmdValveSet ext
  | .syncStep side src ext => .cmd side src Config.cmdSyncStep ext
  | .syncFinal side src ext => .cmd side src Config.cmdSyncFinal ext
  | .reset => .hostop 0x01 []
  | .encode c => .hostop 0x02 [c.hc1, c.hc2, c.address, c.command, c.extension]
  | .decode w => .hostop 0x03 w
  | .valveBuild => .hostop 0x04 []
  | .pollFirst => .hostop 0x05 []
  | .pollNext => .hostop 0x06 []
  | .extraTx => .hostop 0x07 []
  | .syncReset => .hostop 0x08 []
  | .localDisable => .hostop 0x09 []
  | .localEnable => .hostop 0x0A []
  | .isOpen => .hostop 0x0B []
  | .hubEnable force => .hostop 0x0C [BitVec.ofNat 8 force.toNat]
  | .hubDisable => .hostop 0x0D []
  | .hubPoll => .hostop 0x0E []
  | .latchGetClear => .hostop 0x0F []
  | .aclAdd hc => .hostop 0x10 [hc.hc1, hc.hc2]
  | .aclRemove hc => .hostop 0x11 [hc.hc1, hc.hc2]
  | .aclQuery hc => .hostop 0x12 [hc.hc1, hc.hc2]
  | .aclCount => .hostop 0x13 []
  | .reserved code => .hostop code []

/-- How many argument bytes an operation code takes (R109); a decode window may be empty. -/
def argBytes (op : Nat) : Nat :=
  match op with
  | 0x02 => 5
  | 0x0C => 1
  | 0x10 => 2
  | 0x11 => 2
  | 0x12 => 2
  | _ => 0

/-- The bytes of a table word: bits 7..0 are the first byte, bits 15..8 the second. -/
def wordBytes (nbits w : Nat) : List Byte :=
  (List.range ((nbits + 7) / 8)).map (fun i => BitVec.ofNat 8 (w >>> (8 * i)))

/-- The request a table word stands for, argument bytes above it zero. The table numbers its formats apart but for one
word: `0x0C` is `SYM0` in 4 bits and `HUB_ENABLE` in 5; a word of 4 or 6 bits is a SYMBOL item, one of 8 bits below
`0x20` a host operation. A symbol's pattern is stored from bit 7 of its byte (R61). Wire items are windows to be read. Log
entry 9. -/
def tableRequest (nbits w : Nat) : Option Request :=
  if nbits = 4 ∨ nbits = 6 then some (.symbol [BitVec.ofNat 8 (w <<< (8 - nbits))])
  else
    match wordBytes nbits w with
    | [] => none
    | op :: rest =>
      if op.toNat < 0x20 then
        some (.hostop (BitVec.ofNat 5 op.toNat) (rest ++ List.replicate (argBytes op.toNat - rest.length) 0))
      else if op = 0x38 ∧ rest = [] then some (.symbol [op <<< 2])
      else if op = Config.cmdValveSet ∨ op = Config.cmdSyncStep ∨ op = Config.cmdSyncFinal then
        some (.cmd .decode ⟨0, 0⟩ op (rest.headD 0))
      else if 36 ≤ nbits / 8 then some (.frame (op :: rest))
      else some (.unit (op :: rest))

/-- The instruction the decoder reads from a table word, or none where it rejects. -/
def decodeTableWord (nbits w : Nat) : Option Instr :=
  match tableRequest nbits w with
  | none => none
  | some r =>
    match decodeRequest r with
    | .ok i => some i
    | .reject _ => none

end Sys2Proof
end

