-- ==== Sys2Proof/Machine/Operands.lean ====
section
/-! DEFINITION. The computed operands: `EXT(p)`, the two timing formulas, the slot count, the buffer capacity and the
address byte on the wire. -/

namespace Sys2Proof.Machine

/-- `EXT(p) = floor((255 p + 50) / 100)`, for `p` in 0..100 (R104). -/
def extOf (p : Nat) : Byte := BitVec.ofNat 8 ((255 * p + 50) / 100)

/-- `hc2 & 7` (R105). -/
def lowBits (hc2 : Byte) : Nat := (hc2 &&& 7).toNat

/-- `FINAL_WAIT(hc2, slot) = (hc2 & 7) + 8 - slot` (R197, R205). -/
def finalWaitOf (hc2 : Byte) (slot : Nat) : Byte :=
  BitVec.ofNat 8 (lowBits hc2 + Config.finalWaitBase - slot)

/-- `GAP(hc2, slot) = (hc2 & 7) + 230 - slot` (R199, R201, R205). -/
def gapOf (hc2 : Byte) (slot : Nat) : Byte := BitVec.ofNat 8 (lowBits hc2 + Config.gapBase - slot)

/-- `N_SLOTS = MAX_SLOT + 1` (R205). -/
def nSlots (P : Config.Params) : Nat := P.maxSlot.val + 1

/-- `BUF_CAP`: 46, or 48 when Commands carry an address (R9; "at least 48": log entry 5). -/
def bufCap (P : Config.Params) : Nat := if P.adrUsed then 48 else 46

/-- The Command `ENCODE` puts on the wire: its address unit is `0x00` when `ADR_USED` is false (R107; entry 8). -/
def wireCommand (P : Config.Params) (c : Command) : Command :=
  if P.adrUsed then c else { c with address := 0x00 }

/-- The hub's threshold on the extension scale, `EXT(MIN_REALLY_OPEN_PC)` (R258). -/
def extThreshold (P : Config.Params) : Byte := extOf P.minReallyOpenPc.val

/-- `p >= MIN_REALLY_OPEN_PC` (R201, R204). -/
def reallyOpen (P : Config.Params) (p : Percent) : Bool := decide (P.minReallyOpenPc.val ≤ p.val)

end Sys2Proof.Machine
end

