-- ==== Sys2Proof/Machine/Memory.lean ====
section
/-! DEFINITION. The byte spaces of R60: one canonical form for the bytes of a buffer, its read and its write. -/

namespace Sys2Proof.Machine

/-- The bytes of one byte space: cells with rising addresses, none equal to what an unlisted address reads as. -/
abbrev Memory := List Host.Cell

/-- What an unlisted address reads as: `0xFF`, the reset contents of `TXBUF` (R31, R340). For `RXBUF` and the
caller's buffer the spec gives no contents and the model takes the same byte: DESIGN CHOICE, unsafe, log entry 3. -/
def Memory.blank : Byte := 0xFF

/-- The canonical form: addresses strictly rise and no cell holds the blank byte. -/
def Memory.wf (m : Memory) : Bool :=
  decide (m.Pairwise (fun x y => x.1 < y.1)) && m.all (fun c => c.2 != Memory.blank)

/-- Byte `a` of the space (R14, `MemRead`). -/
def Memory.read : Memory → Nat → Byte
  | [], _ => Memory.blank
  | (k, v) :: m, a => if a = k then v else Memory.read m a

/-- The cell `(a, b)` put in its place by address. -/
def Memory.put : Memory → Nat → Byte → Memory
  | [], a, b => [(a, b)]
  | (k, v) :: m, a, b =>
    if a < k then (a, b) :: (k, v) :: m
    else if a = k then (a, b) :: m
    else (k, v) :: Memory.put m a b

/-- Byte `a` becomes `b` (R14, `MemWrite`); the canonical form is kept. -/
def Memory.write (m : Memory) (a : Nat) (b : Byte) : Memory :=
  if b = Memory.blank then m.filter (fun c => c.1 != a) else Memory.put m a b

/-- The bytes `bs` stored from address `a` upwards (R61: increasing index order). -/
def Memory.writeBytes (m : Memory) (a : Nat) : List Byte → Memory
  | [] => m
  | b :: bs => Memory.writeBytes (Memory.write m a b) (a + 1) bs

/-- The `n` bytes from address `a` upwards. -/
def Memory.bytes (m : Memory) (a n : Nat) : List Byte :=
  (List.range n).map (fun i => Memory.read m (a + i))

end Sys2Proof.Machine
end

