-- ==== Sys2Proof/Machine/State.lean ====
section
/-! DEFINITION. The state of the block (R20) and of its host and collaborator interfaces, the reasons a step can stop, and
the state after reset (R340). Codec sessions are no state: they live inside one operation (R40, R41). -/

namespace Sys2Proof.Machine

/-- The countdown of `SYNC_BURST`: an odd byte in 3..241 (R22, U23). -/
abbrev Countdown := { c : Byte // c.toNat % 2 = 1 ∧ 3 ≤ c.toNat ∧ c.toNat ≤ 241 }

/-- `S.sync` (R21). -/
inductive Sync where
  | unsynced
  | burst (c : Countdown)
  | finalWait (h : Byte)
  | synced
  deriving DecidableEq, Repr

/-- `G.radioMode` (R37). -/
inductive RadioMode where
  | standby
  | receive
  deriving DecidableEq, Repr

/-- A collaborator call of the block, with its arguments (R38). -/
inductive Event where
  | setStandby
  | setReceive (maxFrameLength : Nat) (requireLeadingFilter : Bool)
  | transmit (payload : List Byte)
  | readStatus
  | readFrame (n : Nat)
  | getHouseCode1
  | getHouseCode2
  | getRequestedOpenPercent
  deriving DecidableEq, Repr

/-- The answer of `Radio.readStatus()` (R80). -/
structure RadioStatus where
  frameReceived : Bool
  fifoFault : Bool
  deriving DecidableEq, Repr

/-- The answer of `Radio.readFrame(46)`: 46 bytes (R80, R9). -/
abbrev RxFrame := { l : List Byte // l.length = Config.rxMaxFrameLen }

/-- The environment: for each collaborator call that returns a value, the answers it is going to give, the next one
first (R115), and how many calls have been answered. Where nothing is scripted the answer is a free value of Config,
numbered by `calls`. Log entry 2. -/
structure Env where
  houseCode1 : List Byte
  houseCode2 : List Byte
  demand : List Percent
  status : List RadioStatus
  frames : List RxFrame
  calls : Nat
  deriving DecidableEq, Repr

/-- The answer an operation yields (R109, R110); `none` where the operation has none. A symbol or a unit that is read
yields whether its session succeeded, and the bit or byte its reader returns (R141, R142), 0 after a failure (R139). -/
inductive Answer where
  | none
  | flag (b : Bool)
  | length (n : Nat)
  | decoded (ok : Bool) (c : Command)
  | activity (detected : Bool)
  | latch (v : Option HouseCode)
  | count (n : Nat)
  | bit (ok : Bool) (b : Bool)
  | byte (ok : Bool) (b : Byte)
  deriving DecidableEq, Repr

/-- Why the machine stops: never. None of the block's own faults stops it (R300): a DecodeError is an answer, a RadioFault
and a ProtocolPreconditionViolation are next states; every operation is total (R15), and nothing in the block is stuck. -/
inductive Fault where
  deriving DecidableEq, Repr

/-- Why a request is turned away. -/
inductive Refusal where
  /-- Raised by an arm of `exec` whose instruction has no meaning yet (none is left). Safe: the model stops. -/
  | notModelled (mnemonic : String)
  /-- Raised by `RESERVED`: the operation code is reserved and the request is refused (R111). Safe: no state follows. -/
  | reservedOperation (code : BitVec 5)
  /-- Raised by `step` when the arguments of a host request are out of range: "A request with a reserved operation code or
  an out-of-range argument is refused at the boundary and never reaches the block" (R305, R15, U15). Safe. -/
  | outOfRange (r : Reject)
  deriving DecidableEq, Repr

/-- The state. The spec's elements are those of R20 (`S.*`, `TXBUF`, `H.*`, `RXBUF`, `G.*`) and R60 (the caller's
buffer); `params`, `inbox`, `answer`, `env` and `failedDecodes` are the
model's own (log entries 1, 2, 4, 7). -/
structure State where
  /-- The implementation parameters (R9). -/
  params : Config.Params
  /-- `S.sync` (R21). -/
  sync : Sync
  /-- `S.slot`, 0..MAX_SLOT (R25). -/
  slot : Nat
  /-- `S.gap` (R26). -/
  gap : Byte
  /-- `S.more` (R27). -/
  more : Bool
  /-- `S.localEnabled` (R28). -/
  localEnabled : Bool
  /-- `S.openBelief` (R29). -/
  openBelief : Bool
  /-- `S.logPPV` (R30). -/
  logPPV : Bool
  /-- `TXBUF` (R31). -/
  txbuf : Memory
  /-- `H.enabled` (R32). -/
  hubEnabled : Bool
  /-- `RXBUF` (R33). -/
  rxbuf : Memory
  /-- `H.latch` (R34). -/
  latch : Option HouseCode
  /-- `H.acl` (R35). -/
  acl : List HouseCode
  /-- `H.logRadioFault` (R36). -/
  logRadioFault : Bool
  /-- `G.radioMode` (R37). -/
  radioMode : RadioMode
  /-- `G.trace` (R38), oldest call first. -/
  trace : List Event
  /-- The caller's buffer `B` (R60, R136). -/
  callerBuf : Memory
  /-- Requests issued by the host and not yet taken, the next one first. -/
  inbox : List Request
  /-- The answer of the last operation. -/
  answer : Answer
  /-- The environment behind the collaborators. -/
  env : Env
  /-- How many `DECODE` answers have failed so far; it numbers their free fields. -/
  failedDecodes : Nat
  deriving DecidableEq, Repr

/-- An environment with nothing scripted. -/
def Env.free : Env := ⟨[], [], [], [], [], 0⟩

/-- The state `RESET` produces, from which a model starts (R340, R341). `rxbuf`, `callerBuf` and the model's own fields
hold the values log entries 1, 2, 3, 4 and 7 name. -/
def State.reset : State where
  params := Config.Params.reference
  sync := .unsynced
  slot := 0
  gap := 0
  more := false
  localEnabled := true
  openBelief := false
  logPPV := false
  txbuf := []
  hubEnabled := false
  rxbuf := []
  latch := none
  acl := []
  logRadioFault := false
  radioMode := .standby
  trace := []
  callerBuf := []
  inbox := []
  answer := .none
  env := Env.free
  failedDecodes := 0

/-- What a meaning answers. -/
abbrev Result := Host.Outcome State Fault Refusal

end Sys2Proof.Machine
end

