-- ==== Sys2Proof/Machine/Ops.lean ====
section
/-! DEFINITION. The shared operations: the answer port, the collaborator calls, the bit writer, `TX`, `RX_RESET`, the
fault entry `VIOLATION`, and taking the next request. -/

namespace Sys2Proof.Machine

/-! ## Answers and requests -/

/-- The operation ends with the answer `a` (R14, `return v`). -/
def respond (s : State) (a : Answer) : State := { s with answer := a }

/-- The answer as the bits of R110, first bit first; nothing where R110 gives no encoding. R110 orders the fields; that each
byte stands most significant bit first is a DESIGN CHOICE, unsafe for a claim about answer bits, and the order of the five bytes
of `DECODE` is DEDUCED from R109: log entry 15. -/
def answerBits : Answer → Option (List Bool)
  | .none => none
  | .flag b => some [b]
  | .length _ => none
  | .decoded ok c =>
    some (ok :: (byteBits c.hc1 ++ byteBits c.hc2 ++ byteBits c.address ++ byteBits c.command ++ byteBits c.extension))
  | .activity d => some [d]
  | .latch none => some (List.replicate 17 false)
  | .latch (some h) => some (true :: (byteBits h.hc1 ++ byteBits h.hc2))
  | .count _ => none
  | .bit _ _ => none
  | .byte _ _ => none

/-- The next request of the host and the state with it taken, or nothing where the host has issued none. -/
def fetchRequest (s : State) : Option (Request × State) :=
  match s.inbox with
  | [] => none
  | r :: rest => some (r, { s with inbox := rest })

/-- `s` with the request `r` issued by the host as the next one. -/
def issueRequest (s : State) (r : Request) : State := { s with inbox := r :: s.inbox }

/-! ## Collaborator calls (R80 to R82, R66, R38) -/

/-- `emit e` (R14). -/
def emitEvent (s : State) (e : Event) : State := { s with trace := s.trace ++ [e] }

/-- What `Config.getHouseCode1()` answers next (R81). -/
def houseCode1Answer (e : Env) : Byte := e.houseCode1.headD (Config.envHouseCode1 e.calls)
/-- What `Config.getHouseCode2()` answers next (R81). -/
def houseCode2Answer (e : Env) : Byte := e.houseCode2.headD (Config.envHouseCode2 e.calls)
/-- What `Demand.getRequestedOpenPercent()` answers next (R82). -/
def demandAnswer (e : Env) : Percent := e.demand.headD (Config.envDemand e.calls)
/-- What `Radio.readStatus()` answers next (R80). -/
def statusAnswer (e : Env) : RadioStatus :=
  e.status.headD ⟨Config.envFrameReceived e.calls, Config.envFifoFault e.calls⟩
/-- What `Radio.readFrame(46)` answers next (R80). -/
def frameAnswer (e : Env) : RxFrame :=
  e.frames.headD ⟨(List.range Config.rxMaxFrameLen).map (Config.envFrameByte e.calls), by simp⟩

/-- `Config.getHouseCode1()`. -/
def getHouseCode1 (s : State) : Byte × State :=
  (houseCode1Answer s.env,
    { emitEvent s .getHouseCode1 with
      env := { s.env with houseCode1 := s.env.houseCode1.tail, calls := s.env.calls + 1 } })

/-- `Config.getHouseCode2()`. -/
def getHouseCode2 (s : State) : Byte × State :=
  (houseCode2Answer s.env,
    { emitEvent s .getHouseCode2 with
      env := { s.env with houseCode2 := s.env.houseCode2.tail, calls := s.env.calls + 1 } })

/-- `Demand.getRequestedOpenPercent()`. -/
def getDemand (s : State) : Percent × State :=
  (demandAnswer s.env,
    { emitEvent s .getRequestedOpenPercent with
      env := { s.env with demand := s.env.demand.tail, calls := s.env.calls + 1 } })

/-- `Radio.readStatus()`. -/
def readStatus (s : State) : RadioStatus × State :=
  (statusAnswer s.env,
    { emitEvent s .readStatus with
      env := { s.env with status := s.env.status.tail, calls := s.env.calls + 1 } })

/-- `RXBUF[0..45] <- Radio.readFrame(46)` (R80, R254). -/
def readFrame (s : State) : State :=
  { emitEvent s (.readFrame Config.rxMaxFrameLen) with
    env := { s.env with frames := s.env.frames.tail, calls := s.env.calls + 1 }
    rxbuf := Memory.writeBytes s.rxbuf 0 (frameAnswer s.env).val }

/-- `Radio.setStandby()`, with the ghost mode (R37, R80). -/
def setStandby (s : State) : State := { emitEvent s .setStandby with radioMode := .standby }

/-- `Radio.setReceive(RX_MAX_FRAME_LEN, RX_LEADING_FILTER)`, with the ghost mode (R37, R80). -/
def setReceive (s : State) : State :=
  { emitEvent s (.setReceive Config.rxMaxFrameLen Config.rxLeadingFilter) with radioMode := .receive }

/-- `RX_RESET`: reset receive mode (R251). -/
def rxReset (s : State) : State := setReceive (setStandby s)

/-! ## The bit writer (R131 to R136) -/

/-- An encode session `E = {B, n}` (R41, R131). -/
structure BitWriter where
  B : Memory
  n : Nat
  deriving DecidableEq, Repr

/-- Byte `v` with bit `i` set. -/
def setBit (v : Byte) (i : Nat) : Byte := v ||| BitVec.ofNat 8 (2 ^ i)

/-- One pass of the loop of `APPEND_RAW` (R131). -/
def appendBit (E : BitWriter) (x : Bool) : BitWriter :=
  let i := E.n
  let B0 := if i % 8 = 0 then Memory.write E.B (i / 8) 0x00 else E.B
  let B1 := if x then Memory.write B0 (i / 8) (setBit (Memory.read B0 (i / 8)) (7 - i % 8)) else B0
  ⟨B1, i + 1⟩

/-- `APPEND_RAW(E, bits)` (R131). -/
def appendRaw (E : BitWriter) (bits : List Bool) : BitWriter := bits.foldl appendBit E

/-- `ENC_BIT(E, v)` (R132). -/
def encBit (E : BitWriter) (v : Bool) : BitWriter := appendRaw E (symbolBits v)

/-- `ENC_UNIT(E, b)` (R133). -/
def encUnit (E : BitWriter) (b : Byte) : BitWriter := encBit ((byteBits b).foldl encBit E) (parity8 b)

/-- `FINISH(E)`: the terminator after the zero-padded last byte, and `LEN` (R135). -/
def finishFrame (E : BitWriter) : Memory × Nat :=
  let len := (E.n + 7) / 8
  (Memory.write E.B len Config.terminator, len)

/-- The six preamble bytes: `APPEND_RAW(E, [1,1,0,0,1,1,0,0])` six times (R136). -/
def encPreamble (E : BitWriter) : BitWriter :=
  (List.replicate Config.preambleLen [true, true, false, false, true, true, false, false]).foldl appendRaw E

/-- `ENCODE` of a Command into the buffer `B`: the buffer after it and `LEN` (R136). -/
def encodeInto (c : Command) (B : Memory) : Memory × Nat :=
  let E := encPreamble ⟨B, 0⟩
  let E := encBit E true
  let E := encUnit E c.hc1
  let E := encUnit E c.hc2
  let E := encUnit E c.address
  let E := encUnit E c.command
  let E := encUnit E c.extension
  let E := encUnit E (checksum c)
  let E := encBit E false
  let E := encBit E false
  finishFrame E

/-! ## Transmission (R206, R85) -/

/-- The payload of a transmission: `TXBUF[0..LEN-1]`, `LEN` the index of the first `0xFF` (R85, R206). -/
def txPayload (P : Config.Params) (m : Memory) : List Byte :=
  (Memory.bytes m 0 (bufCap P)).takeWhile (fun b => b != Config.terminator)

/-- `TX`: hand the buffered frame to the radio (R206). -/
def tx (s : State) : State :=
  if Memory.read s.txbuf 0 = Config.terminator then s
  else
    let s := emitEvent (setStandby s) (.transmit (txPayload s.params s.txbuf))
    if s.hubEnabled then setReceive s else setStandby s

/-! ## Fault entry (R203, R304, R308): the one shared operation, with no return to make (R309) -/

/-- The four writes of `SYNC_RESET`, shared by every forced return to `UNSYNCED` (R207, R342). -/
def clearSync (s : State) : State :=
  { s with sync := .unsynced, gap := 0, openBelief := false, more := false }

/-- `VIOLATION`: a ProtocolPreconditionViolation (R203, R304). -/
def violation (s : State) : State := { clearSync s with logPPV := true }

/-- The log of a RadioFault (R303). -/
def logRadioFaultIf (fault : Bool) (s : State) : State :=
  if fault then { s with logRadioFault := true } else s

end Sys2Proof.Machine
end

