-- ==== Sys2Proof/Machine/Codec.lean ====
section
/-! DEFINITION. The codec family (40_bitstream_codec.md): the wire rows as operations of the codec (log entry 6), and the
host operations `ENCODE` and `DECODE`. Every session begins and ends inside one operation (R40, R41). -/

namespace Sys2Proof.Machine

/-- A finished build in the caller's buffer: the buffer after it, and the answer `LEN` (R135, R136). -/
def storeBuilt (r : Memory × Nat) (s : State) : State := respond { s with callerBuf := r.1 } (.length r.2)

/-- `ENC_BIT` in a session of its own over the caller's buffer, ended by `FINISH` (R41, R132, R135). -/
def makeSymbol (v : Bool) (s : State) : State := storeBuilt (finishFrame (encBit ⟨s.callerBuf, 0⟩ v)) s

/-- `ENC_UNIT` in a session of its own over the caller's buffer, ended by `FINISH` (R41, R133, R135). -/
def makeUnit (b : Byte) (s : State) : State := storeBuilt (finishFrame (encUnit ⟨s.callerBuf, 0⟩ b)) s

/-- `DEC_BIT` in a session of its own over the window `w` (R40, R141). -/
def readSymbol (w : List Byte) (s : State) : State :=
  let (b, D) := decBit (newSession w)
  respond s (.bit (!D.failed) b)

/-- `DEC_UNIT` in a session of its own over the window `w` (R40, R142). -/
def readUnit (w : List Byte) (s : State) : State :=
  let (b, D) := decUnit (newSession w)
  respond s (.byte (!D.failed) b)

/-- A symbol as an operation (R132, R141). -/
def runSymbol (v : Bool) (side : WireSide) (s : State) : State :=
  match side with
  | .encode => makeSymbol v s
  | .decode => readSymbol (packBits (symbolBits v)) s
  | .broken w => readSymbol w s

/-- `SYM0`: `ENC_BIT(E, 0)` (R132) or `DEC_BIT(D)` (R141). -/
def execSym0 (side : WireSide) (s : State) : Result := .next (runSymbol false side s)

/-- `SYM1`: `ENC_BIT(E, 1)` (R132) or `DEC_BIT(D)` (R141). -/
def execSym1 (side : WireSide) (s : State) : Result := .next (runSymbol true side s)

/-- `UNIT`: `ENC_UNIT(E, b)` (R133), which makes its own parity bit, or `DEC_UNIT(D)` (R142), which checks it. -/
def execUnit (side : WireSide) (b : Byte) (p : Bool) (s : State) : Result :=
  match side with
  | .encode => .next (makeUnit b s)
  | .decode => .next (readUnit (packBits (unitBits b p)) s)
  | .broken w => .next (readUnit w s)

/-- `ENCODE` of a Command into the caller's buffer, with the answer `LEN` (R136). -/
def encodeToCaller (c : Command) (s : State) : State := storeBuilt (encodeInto c s.callerBuf) s

/-- The Command of a failed decode: five free bytes (R146, U1; log entry 4). -/
def failedCommand (n : Nat) : Command :=
  ⟨Config.failedDecodeField n 0, Config.failedDecodeField n 1, Config.failedDecodeField n 2,
    Config.failedDecodeField n 3, Config.failedDecodeField n 4⟩

/-- The answer of a decode: `{ok: true, ...}` with the Command, or `ok = false` and fields that have no meaning
(R145, R146). -/
def answerDecode (ok : Bool) (c : Command) (s : State) : State :=
  if ok then respond s (.decoded true c)
  else respond { s with failedDecodes := s.failedDecodes + 1 } (.decoded false (failedCommand s.failedDecodes))

/-- `DECODE` of a window (R145, R146). -/
def decodeToAnswer (w : List Byte) (s : State) : State :=
  let (c, D) := decodeWindow w
  answerDecode (!D.failed) c s

/-- `FRAME`: `ENCODE` of its Command (R136), which makes its own checksum and takes the address byte as R107 says, or
`DECODE` of its window (R145), the checksum unit compared with the recomputed checksum. -/
def execFrame (side : WireSide) (c : Command) (chk : Byte) (s : State) : Result :=
  match side with
  | .encode => .next (encodeToCaller (wireCommand s.params c) s)
  | .decode => .next (decodeToAnswer (frameBytes c chk) s)
  | .broken w => .next (decodeToAnswer w s)

/-- `ENCODE` (R136, R107). -/
def execEncode (c : Command) (s : State) : Result := .next (encodeToCaller (wireCommand s.params c) s)

/-- `DECODE` (R145, R146). -/
def execDecode (w : List Byte) (s : State) : Result := .next (decodeToAnswer w s)

/-! ## The frame commands (R101 to R103) -/

/-- A frame command: the frame of that Command, without address, is built into the caller's buffer (R136, R171's Command) or
read by `DECODE` (R145, R106). What a received frame does to the hub receiver is `HUB_POLL`'s (R254, R258). Log entry 6. -/
def runCommand (cmd : Byte) (side : Side) (src : HouseCode) (ext : Byte) (s : State) : State :=
  let c : Command := ⟨src.hc1, src.hc2, 0x00, cmd, ext⟩
  match side with
  | .encode => encodeToCaller c s
  | .decode => decodeToAnswer (frameBytes c (checksum c)) s

/-- `VALVE_SET`, command byte `0x26` (R101). -/
def execValveSet (side : Side) (src : HouseCode) (ext : Byte) (s : State) : Result :=
  .next (runCommand Config.cmdValveSet side src ext s)

/-- `SYNC_STEP`, command byte `0x2C` (R102). -/
def execSyncStep (side : Side) (src : HouseCode) (ext : Byte) (s : State) : Result :=
  .next (runCommand Config.cmdSyncStep side src ext s)

/-- `SYNC_FINAL`, command byte `0x20` (R103). -/
def execSyncFinal (side : Side) (src : HouseCode) (ext : Byte) (s : State) : Result :=
  .next (runCommand Config.cmdSyncFinal side src ext s)

end Sys2Proof.Machine
end

