-- ==== Sys2Proof/Machine/Control.lean ====
section
/-! DEFINITION. `RESET` (70_reset_and_hazards.md) and the reserved operation codes (R111). -/

namespace Sys2Proof.Machine

/-- The writes of `RESET` (R340). -/
def resetBlock (s : State) : State :=
  { s with
    sync := .unsynced
    slot := 0
    gap := 0
    more := false
    localEnabled := true
    openBelief := false
    logPPV := false
    txbuf := []
    hubEnabled := false
    latch := none
    acl := []
    logRadioFault := false
    radioMode := .standby
    trace := [] }

/-- `RESET` (R340). -/
def execReset (s : State) : Result := .next (respond (resetBlock s) .none)

/-- `RESERVED`: "A request with a reserved code is refused" (R111). -/
def execReserved (code : BitVec 5) (_s : State) : Result := .refused (.reservedOperation code)

end Sys2Proof.Machine
end

