-- ==== Sys2Proof/Machine/Hub.lean ====
section
/-! DEFINITION. The HubReceiver (44_hub_receiver.md). -/

namespace Sys2Proof.Machine

/-- `HUB_ENABLE(force)` (R252). -/
def execHubEnable (force : Bool) (s : State) : Result :=
  .next (respond (if s.hubEnabled && !force then s else rxReset { s with hubEnabled := true }) .none)

/-- `HUB_DISABLE` (R253). -/
def execHubDisable (s : State) : Result :=
  .next (respond (if s.hubEnabled then setStandby { s with hubEnabled := false } else s) .none)

/-- `ACL_ACCEPTS(hc1, hc2)` (R264). -/
def aclAccepts (acl : List HouseCode) (hc : HouseCode) : Bool := acl.isEmpty || acl.contains hc

/-- `ACCEPT(r)` (R258). -/
def accepts (s : State) (c : Command) : Bool :=
  c.command == Config.cmdValveSet && decide (extThreshold s.params ≤ c.extension)
    && aclAccepts s.acl ⟨c.hc1, c.hc2⟩

/-- The skip loop of `PREAMBLE_CHECK` (R256), at most `fuel` passes. -/
def skipPreamble (m : Memory) : (fuel : Nat) → (pos : Nat) → Nat
  | 0, pos => pos
  | fuel + 1, pos =>
    if pos < Config.preambleLen ∧ Memory.read m pos = Config.preambleByte then skipPreamble m fuel (pos + 1) else pos

/-- `PREAMBLE_CHECK`: the start of the decode window, or nothing for `REJECT` (R256). -/
def preambleCheck (m : Memory) : Option Nat :=
  if Memory.read m 0 ≠ Config.preambleByte ∧ Memory.read m 1 ≠ Config.preambleByte then none
  else some (skipPreamble m Config.preambleLen (if Memory.read m 0 ≠ Config.preambleByte then 1 else 0))

/-- A frame that decoded (R258 to R260): an accepted one is recorded and the receiver disables itself, any other re-arms
the receiver. Either way activity is reported. -/
def receiveCommand (c : Command) (s : State) : State :=
  respond
    (if accepts s c then setStandby { s with latch := some ⟨c.hc1, c.hc2⟩, hubEnabled := false } else rxReset s)
    (.activity true)

/-- The frame branch of `HUB_POLL`, from `RXBUF` (R254, R256, R257, R261). -/
def receiveFrame (s : State) : State :=
  match preambleCheck s.rxbuf with
  | none => respond (rxReset s) (.activity false)
  | some pos =>
    let (c, D) := decodeWindow (Memory.bytes s.rxbuf pos (Config.rxBufCap - pos))
    if D.failed then respond (rxReset s) (.activity false) else receiveCommand c s

/-- What `HUB_POLL` does (R254, R255, R262). -/
def hubPoll (s : State) : State :=
  if !s.hubEnabled then respond s (.activity false)
  else
    let (st, s) := readStatus s
    let s := logRadioFaultIf st.fifoFault s
    if st.frameReceived then receiveFrame (readFrame s)
    else if st.fifoFault then respond (rxReset s) (.activity false)
    else respond s (.activity false)

/-- `HUB_POLL` (R254). -/
def execHubPoll (s : State) : Result := .next (hubPoll s)

/-- `LATCH_GET_CLEAR` (R263). -/
def execLatchGetClear (s : State) : Result := .next (respond { s with latch := none } (.latch s.latch))

/-- `ACL_ADD(hc1, hc2)` (R265). -/
def execAclAdd (hc : HouseCode) (s : State) : Result :=
  .next
    (if s.acl.contains hc then respond s (.flag true)
    else if s.acl.length = s.params.aclCap then respond s (.flag false)
    else respond { s with acl := s.acl ++ [hc] } (.flag true))

/-- `ACL_REMOVE(hc1, hc2)` (R266). -/
def execAclRemove (hc : HouseCode) (s : State) : Result :=
  .next (respond { s with acl := s.acl.filter (fun x => x != hc) } .none)

/-- `ACL_QUERY(hc1, hc2)` (R267). -/
def execAclQuery (hc : HouseCode) (s : State) : Result := .next (respond s (.flag (aclAccepts s.acl hc)))

/-- `ACL_COUNT` (R268). -/
def execAclCount (s : State) : Result := .next (respond s (.count s.acl.length))

end Sys2Proof.Machine
end

