-- ==== Sys2Proof/Machine/FrameBuilder.lean ====
section
/-! DEFINITION. The FrameBuilder: the builds that write `TXBUF`, and `VALVE_BUILD` (41_frame_builder.md). -/

namespace Sys2Proof.Machine

/-- `BUILD(cmd, ext)` (R171). -/
def build (cmd ext : Byte) (s : State) : State :=
  let (hc1, s) := getHouseCode1 s
  let (hc2, s) := getHouseCode2 s
  { s with txbuf := (encodeInto ⟨hc1, hc2, 0x00, cmd, ext⟩ s.txbuf).1 }

/-- `BUILD_SYNC_STEP(c)` (R172). -/
def buildSyncStep (c : Byte) (s : State) : State := build Config.cmdSyncStep c s

/-- `BUILD_SYNC_FINAL` (R173). -/
def buildSyncFinal (s : State) : State := build Config.cmdSyncFinal 0x00 s

/-- `BUILD_VALVE_SET` (R174): the demand is read before the house codes. -/
def buildValveSet (s : State) : State :=
  let (p, s) := getDemand s
  build Config.cmdValveSet (extOf p.val) s

/-- `VALVE_BUILD` (R176). -/
def execValveBuild (s : State) : Result := .next (respond (buildValveSet s) .none)

end Sys2Proof.Machine
end

