-- ==== Sys2Proof/Machine/Scheduler.lean ====
section
/-! DEFINITION. The SyncScheduler (42_sync_scheduler.md) and the ValveStateTracker's `IS_OPEN`
(43_valve_state_tracker.md). -/

namespace Sys2Proof.Machine

/-- The countdown 241 of a burst at its entry (R196). -/
def burstStart : Countdown := ⟨Config.syncStart, by decide⟩

/-- The countdown of the next burst poll, `c - 2` (R197). -/
def burstNext (c : Countdown) (h : c.val ≠ 3) : Countdown :=
  ⟨c.val - Config.syncStepDec, by
    obtain ⟨v, h1, h2, h3⟩ := c
    have h4 : v.toNat ≠ 3 := fun h5 => h (BitVec.eq_of_toNat_eq h5)
    have h5 : (v - Config.syncStepDec).toNat = v.toNat - 2 := by
      have h6 : Config.syncStepDec.toNat = 2 := rfl
      rw [BitVec.toNat_sub_of_le (by rw [BitVec.le_def]; omega), h6]
    simp only [h5]
    omega⟩

/-- `BURST_STEP(c)` (R197). -/
def burstStep (c : Countdown) (s : State) : Bool × State :=
  let s := if c.val.getLsbD 0 then tx (buildSyncStep c.val s) else s
  if h : c.val = 3 then
    let (hc2, s) := getHouseCode2 s
    (true, { s with sync := .finalWait (finalWaitOf hc2 s.slot) })
  else (true, { s with sync := .burst (burstNext c h) })

/-- `SYNC_FINAL_ACTIONS` (R199). -/
def syncFinalActions (s : State) : State :=
  let s := tx (buildSyncFinal s)
  let s := { s with sync := .synced, openBelief := false }
  let s := buildValveSet s
  let (hc2, s) := getHouseCode2 s
  { s with gap := gapOf hc2 s.slot }

/-- `FINAL_STEP(h)` (R198); the first case is `WAIT_ZERO` (R304). -/
def finalStep (h : Byte) (s : State) : Bool × State :=
  if h = 0 then (false, violation s)
  else if 0 < (h - 1).toNat then (true, { s with sync := .finalWait (h - 1) })
  else (false, syncFinalActions s)

/-- `VALVE_TX_ACTIONS` (R201). -/
def valveTxActions (s : State) : State :=
  let s := tx s
  let (p, s) := getDemand s
  let s := { s with openBelief := reallyOpen s.params p }
  let (hc2, s) := getHouseCode2 s
  { s with gap := gapOf hc2 s.slot }

/-- `SYNCED_STEP(first)` (R200); the first case is `GAP_ZERO` (R304). -/
def syncedStep (first : Bool) (s : State) : Bool × State :=
  if s.gap = 0 then (false, violation s)
  else if first ∧ nSlots s.params < s.gap.toNat then
    (false, { s with gap := s.gap - BitVec.ofNat 8 (nSlots s.params) })
  else
    let s := { s with gap := s.gap - 1 }
    if 0 < s.gap.toNat then (true, s) else (false, valveTxActions s)

/-- `STEP(first)`: one slot's work (R194). -/
def slotStep (first : Bool) (s : State) : Bool × State :=
  if !s.localEnabled then (false, { s with sync := .unsynced })
  else
    match s.sync with
    | .unsynced => burstStep burstStart s
    | .burst c => burstStep c s
    | .finalWait h => finalStep h s
    | .synced => syncedStep first s

/-- The end of a poll: `S.more` holds the answer (R192, R193). -/
def pollAnswer (r : Bool × State) : State := respond { r.2 with more := r.1 } (.flag r.1)

/-- `POLL_FIRST` (R192). -/
def execPollFirst (s : State) : Result := .next (pollAnswer (slotStep true { s with slot := 0 }))

/-- What `POLL_NEXT` does (R193); the second case is `SLOT_OVERRUN` (R304). -/
def pollNext (s : State) : State :=
  if !s.more then respond s (.flag false)
  else if s.slot = s.params.maxSlot.val then respond (violation s) (.flag false)
  else pollAnswer (slotStep false { s with slot := s.slot + 1 })

/-- `POLL_NEXT` (R193). -/
def execPollNext (s : State) : Result := .next (pollNext s)

/-- What `EXTRA_TX` does (R204). -/
def extraTx (s : State) : State :=
  if !s.localEnabled then respond s (.flag false)
  else if s.sync ≠ .synced then respond s (.flag false)
  else if ¬ (Config.extraTxLo < s.gap.toNat ∧ s.gap.toNat < Config.extraTxHi) then respond s (.flag false)
  else
    let (p, s) := getDemand s
    if !reallyOpen s.params p then respond s (.flag false)
    else respond { tx s with openBelief := true } (.flag true)

/-- `EXTRA_TX` (R204). -/
def execExtraTx (s : State) : Result := .next (extraTx s)

/-- `SYNC_RESET` (R207). -/
def execSyncReset (s : State) : Result := .next (respond (clearSync s) .none)

/-- `LOCAL_DISABLE` (R208). -/
def execLocalDisable (s : State) : Result := .next (respond (clearSync { s with localEnabled := false }) .none)

/-- `LOCAL_ENABLE` (R209). -/
def execLocalEnable (s : State) : Result := .next (respond { s with localEnabled := true } .none)

/-- `isOpen() = synced && internalOpenBelief` (R240). -/
def isOpen (s : State) : Bool := decide (s.sync = .synced) && s.openBelief

/-- `IS_OPEN` (R240). -/
def execIsOpen (s : State) : Result := .next (respond s (.flag (isOpen s)))

end Sys2Proof.Machine
end

