-- ==== Sys2Proof/Machine/Dispatch.lean ====
section
/-! DEFINITION. One arm per instruction. -/

namespace Sys2Proof.Machine

def exec (i : Instr) (s : State) : Host.Outcome State Fault Refusal :=
  match i with
  | .sym0 side => Sys2Proof.Machine.execSym0 side s
  | .sym1 side => Sys2Proof.Machine.execSym1 side s
  | .unit side b p => Sys2Proof.Machine.execUnit side b p s
  | .frame side c chk => Sys2Proof.Machine.execFrame side c chk s
  | .valveSet side src ext => Sys2Proof.Machine.execValveSet side src ext s
  | .syncStep side src ext => Sys2Proof.Machine.execSyncStep side src ext s
  | .syncFinal side src ext => Sys2Proof.Machine.execSyncFinal side src ext s
  | .reset => Sys2Proof.Machine.execReset s
  | .encode c => Sys2Proof.Machine.execEncode c s
  | .decode w => Sys2Proof.Machine.execDecode w s
  | .valveBuild => Sys2Proof.Machine.execValveBuild s
  | .pollFirst => Sys2Proof.Machine.execPollFirst s
  | .pollNext => Sys2Proof.Machine.execPollNext s
  | .extraTx => Sys2Proof.Machine.execExtraTx s
  | .syncReset => Sys2Proof.Machine.execSyncReset s
  | .localDisable => Sys2Proof.Machine.execLocalDisable s
  | .localEnable => Sys2Proof.Machine.execLocalEnable s
  | .isOpen => Sys2Proof.Machine.execIsOpen s
  | .hubEnable force => Sys2Proof.Machine.execHubEnable force s
  | .hubDisable => Sys2Proof.Machine.execHubDisable s
  | .hubPoll => Sys2Proof.Machine.execHubPoll s
  | .latchGetClear => Sys2Proof.Machine.execLatchGetClear s
  | .aclAdd hc => Sys2Proof.Machine.execAclAdd hc s
  | .aclRemove hc => Sys2Proof.Machine.execAclRemove hc s
  | .aclQuery hc => Sys2Proof.Machine.execAclQuery hc s
  | .aclCount => Sys2Proof.Machine.execAclCount s
  | .reserved code => Sys2Proof.Machine.execReserved code s

end Sys2Proof.Machine
end

