-- ==== Sys2Proof/Machine/Step.lean ====
section
/-! DEFINITION. One step: the next request of the host, decoded and run. -/

namespace Sys2Proof.Machine

/-- One step. Without a request nothing happens (R19, R190); a request whose arguments are out of range is refused
(R15, R305); an instruction runs in the state in which its request has been taken. -/
def step (s : State) : Host.Outcome State Fault Refusal :=
  match fetchRequest s with
  | none => .next s
  | some (r, s') =>
    match decodeRequest r with
    | .ok i => exec i s'
    | .reject e => .refused (.outOfRange e)

/-- `s` with the table word `w` issued by the host as the next request (log entries 7 and 9). -/
def State.withFetchWord (s : State) (nbits w : Nat) : State :=
  match tableRequest nbits w with
  | none => s
  | some r => issueRequest s r

end Sys2Proof.Machine
end

