-- ==== Sys2Proof/Safety.lean ====
section
/-! DEFINITION. What counts as a safe state and a safe run, in the terms the statements use: the invariants between
operations (R22, R23, R25 to R28, R39, R177, R212, R271), the layout of a frame in a buffer (R67, R97), what a window
carries (R145, R147, R151), and the polls a host issues (R350). Nothing here is read by the machine. -/

namespace Sys2Proof.Safety

open Sys2Proof.Machine

/-! ## Frames and buffers -/

/-- The bytes of the frame of `c`, without terminator (R97, R98). -/
def frameOf (c : Command) : List Byte := packBits (frameBits c (checksum c))

/-- `m'` is `m` after a build of `c`: the frame from byte 0, the terminator behind it, every other byte as before
(R67). -/
def buildsFrame (m m' : Memory) (c : Command) : Prop :=
  ∀ a, Memory.read m' a =
    if a < (frameOf c).length then (frameOf c).getD a 0x00
    else if a = (frameOf c).length then Config.terminator
    else Memory.read m a

/-- The buffer holds the frame of `c` and its terminator. -/
def holdsFrame (m : Memory) (c : Command) : Prop :=
  (∀ a, a < (frameOf c).length → Memory.read m a = (frameOf c).getD a 0x00)
    ∧ Memory.read m (frameOf c).length = Config.terminator

/-- `pl` is what a transmission of the buffer hands to the radio: the bytes before the first `0xFF`; nothing for an
empty buffer (R85, R206). -/
def holdsPayload (P : Config.Params) (m : Memory) (pl : List Byte) : Prop :=
  pl.length < bufCap P ∧ Memory.read m pl.length = Config.terminator
    ∧ ∀ a, a < pl.length → Memory.read m a = pl.getD a 0x00 ∧ pl.getD a 0x00 ≠ Config.terminator

/-- The radio event that ends a transmission (R206, R71). -/
def resumeEvent (hubEnabled : Bool) : Event :=
  if hubEnabled then .setReceive 46 true else .setStandby

/-- The radio events of `TX` with payload `pl` (R206): none for an empty buffer. -/
def sendEvents (hubEnabled : Bool) (pl : List Byte) : List Event :=
  if pl = [] then [] else [.setStandby, .transmit pl, resumeEvent hubEnabled]

/-- The radio mode after `TX` with payload `pl` (R206, R37). -/
def modeAfterSend (hubEnabled : Bool) (pl : List Byte) (mode : RadioMode) : RadioMode :=
  if pl = [] then mode else if hubEnabled then .receive else .standby

/-- The payloads of the transmissions in a trace, in order. -/
def transmits (tr : List Event) : List (List Byte) :=
  tr.filterMap (fun e => match e with
    | .transmit pl => some pl
    | .setStandby => none
    | .setReceive _ _ => none
    | .readStatus => none
    | .readFrame _ => none
    | .getHouseCode1 => none
    | .getHouseCode2 => none
    | .getRequestedOpenPercent => none)

/-- What was transmitted between two states of a run. -/
def newTransmits (s t : State) : List (List Byte) := transmits (t.trace.drop s.trace.length)

/-- Raw bit `i` of a buffer: bit `7 - (i mod 8)` of byte `floor(i / 8)` (R61). -/
def bufferBit (m : Memory) (i : Nat) : Bool := (Memory.read m (i / 8)).getLsbD (7 - i % 8)

/-! ## The environment after a call (R80 to R82) -/

/-- After `getHouseCode1`. -/
def afterHouseCode1 (e : Env) : Env := { e with houseCode1 := e.houseCode1.tail, calls := e.calls + 1 }
/-- After `getHouseCode2`. -/
def afterHouseCode2 (e : Env) : Env := { e with houseCode2 := e.houseCode2.tail, calls := e.calls + 1 }
/-- After `getRequestedOpenPercent`. -/
def afterDemand (e : Env) : Env := { e with demand := e.demand.tail, calls := e.calls + 1 }
/-- After `readStatus`. -/
def afterStatus (e : Env) : Env := { e with status := e.status.tail, calls := e.calls + 1 }
/-- After `readFrame`. -/
def afterFrame (e : Env) : Env := { e with frames := e.frames.tail, calls := e.calls + 1 }

/-- After the two reads of a build, in their order (R171). -/
def afterBuild (e : Env) : Env := afterHouseCode2 (afterHouseCode1 e)

/-- The Command of a build in environment `e` (R171). -/
def builtFrom (e : Env) (cmd ext : Byte) : Command :=
  ⟨houseCode1Answer e, houseCode2Answer (afterHouseCode1 e), 0x00, cmd, ext⟩

/-! ## Windows and received frames -/

/-- The raw bits of a window, in time order (R61). -/
def windowBits (W : List Byte) : List Bool := W.flatMap byteBits

/-- The nine logical bits of the good unit of `b` (R95). -/
def unitLogical (b : Byte) : List Bool := byteBits b ++ [parity8 b]

/-- The logical bits a decode of `c` reads: `n` zeros, the start bit, six units, one trailer zero (R143, R145). -/
def readLogical (n : Nat) (c : Command) : List Bool :=
  List.replicate n false ++ [true] ++ unitLogical c.hc1 ++ unitLogical c.hc2 ++ unitLogical c.address
    ++ unitLogical c.command ++ unitLogical c.extension ++ unitLogical (checksum c) ++ [false]

/-- The window `W` carries a frame of `c`: any number of leading zeros, then the frame up to its first trailer symbol,
then anything (R145, R147, R151). -/
def carries (W : List Byte) (c : Command) : Prop :=
  ∃ n rest, windowBits W = (readLogical n c).flatMap symbolBits ++ rest

/-- Where the decode window of a received frame starts (R256): nowhere if the first two bytes are both wrong, else behind
the preamble bytes among the first six, a wrong first byte skipped. -/
def windowStart (fr : List Byte) : Option Nat :=
  if fr.getD 0 0 = 0xCC then some (((fr.take 6).takeWhile (fun b => b == 0xCC)).length)
  else if fr.getD 1 0 = 0xCC then some (1 + (((fr.take 6).drop 1).takeWhile (fun b => b == 0xCC)).length)
  else none

/-- The received bytes carry a frame of `c` behind their preamble (R256, R257). -/
def received (fr : List Byte) (c : Command) : Prop := ∃ pos, windowStart fr = some pos ∧ carries (fr.drop pos) c

/-- The acceptance filter, on numbers (R258, R264). -/
def isCallForHeat (P : Config.Params) (acl : List HouseCode) (c : Command) : Prop :=
  c.command = 0x26 ∧ (255 * P.minReallyOpenPc.val + 50) / 100 ≤ c.extension.toNat
    ∧ (acl = [] ∨ ⟨c.hc1, c.hc2⟩ ∈ acl)

/-- The window starts with the symbol of `v` (R91, R92). -/
def startsWithSymbol (W : List Byte) (v : Bool) : Prop := ∃ rest, windowBits W = symbolBits v ++ rest

/-- The window starts with a unit: the symbols of the eight bits of `b` and of `p` (R95). -/
def startsWithUnit (W : List Byte) (b : Byte) (p : Bool) : Prop :=
  ∃ rest, windowBits W = (byteBits b ++ [p]).flatMap symbolBits ++ rest

/-- The operations of the codec: the wire rows of the opcode table, `ENCODE` and `DECODE` (R90, R130). -/
def CodecOp (i : Instr) : Prop :=
  (∃ side, i = .sym0 side) ∨ (∃ side, i = .sym1 side) ∨ (∃ side b p, i = .unit side b p)
    ∨ (∃ side c chk, i = .frame side c chk)
    ∨ (∃ side src ext, i = .valveSet side src ext) ∨ (∃ side src ext, i = .syncStep side src ext)
    ∨ (∃ side src ext, i = .syncFinal side src ext) ∨ (∃ c, i = .encode c) ∨ ∃ w, i = .decode w

/-! ## Polls -/

/-- The state in which a poll does its slot's work: the slot counter set by `POLL_FIRST`, moved on by a `POLL_NEXT` that
is neither a no-op nor an overrun (R192, R193); nothing for any other instruction. -/
def pollStart (i : Instr) (s : State) : Option State :=
  if i = .pollFirst then some { s with slot := 0 }
  else if i = .pollNext ∧ s.more = true ∧ s.slot ≠ s.params.maxSlot.val then some { s with slot := s.slot + 1 }
  else none

/-- The poll a host issues in slot number `k`, counted from the start of some cycle (R350). -/
def hostPoll (P : Config.Params) (k : Nat) : Instr := if k % nSlots P = 0 then .pollFirst else .pollNext

/-- The state after the polls of slots `first, first + 1, ...`, `n` of them. -/
def afterPolls (s : State) (first : Nat) : Nat → Option State
  | 0 => some s
  | n + 1 =>
    match afterPolls s first n with
    | none => none
    | some t =>
      match exec (hostPoll s.params (first + n)) t with
      | .next u => some u
      | .fault _ => none
      | .refused _ => none

/-! ## Invariants between operations -/

/-- The radio listens exactly while the hub receiver is enabled (R39, R271). -/
def RadioInv (s : State) : Prop := s.radioMode = .receive ↔ s.hubEnabled = true

/-- The scheduler's counters and flags (R23, R25 to R28, R212). -/
structure SchedulerInv (s : State) : Prop where
  /-- R25. -/
  slot_le : s.slot ≤ s.params.maxSlot.val
  /-- R23. -/
  wait_range : ∀ h, s.sync = .finalWait h → 1 ≤ h.toNat ∧ h.toNat ≤ 15
  /-- R26. -/
  gap_le : s.gap.toNat ≤ 237
  /-- R212 (a). -/
  gap_pos : s.sync = .synced → 1 ≤ s.gap.toNat
  /-- R212 (b). -/
  disabled : s.localEnabled = false → s.sync = .unsynced
  /-- R212 (e). -/
  belief : s.openBelief = true → s.sync = .synced
  /-- A pending slot belongs to an enabled scheduler that is under way (R193, corner cases). -/
  more : s.more = true → s.localEnabled = true ∧ s.sync ≠ .unsynced

/-- The buffers: canonical, within their capacities, and `TXBUF` as the sync state says (R9, R60, R137, R177, R212). -/
structure BufferInv (s : State) : Prop where
  tx_wf : Memory.wf s.txbuf = true
  rx_wf : Memory.wf s.rxbuf = true
  caller_wf : Memory.wf s.callerBuf = true
  tx_cap : ∀ a, bufCap s.params ≤ a → Memory.read s.txbuf a = Memory.blank
  rx_cap : ∀ a, Config.rxBufCap ≤ a → Memory.read s.rxbuf a = Memory.blank
  caller_cap : ∀ a, Config.callerCap ≤ a → Memory.read s.callerBuf a = Memory.blank
  /-- R212 (c). -/
  synced : s.sync = .synced → ∃ hc1 hc2 ext, holdsFrame s.txbuf ⟨hc1, hc2, 0x00, 0x26, ext⟩
  /-- R177: a sync-step frame, or a valve-set frame where `VALVE_BUILD` was issued since. -/
  handshake : (∃ c, s.sync = .burst c) ∨ (∃ h, s.sync = .finalWait h) →
    ∃ hc1 hc2 cmd ext, holdsFrame s.txbuf ⟨hc1, hc2, 0x00, cmd, ext⟩ ∧ (cmd = 0x2C ∨ cmd = 0x26)

/-- The accept-list has no duplicate and at most `ACL_CAP` entries (R35, R271). -/
def AclInv (s : State) : Prop := s.acl.Nodup ∧ s.acl.length ≤ s.params.aclCap

/-- No ProtocolPreconditionViolation has been recorded since reset (R30). -/
def NoViolation (s : State) : Prop := s.logPPV = false

/-- A `POLL_NEXT` in this state is one more than the cycle has slots (R304, `SLOT_OVERRUN`): what a host that obeys R350
never issues. -/
def Overrun (i : Instr) (s : State) : Prop :=
  i = .pollNext ∧ s.more = true ∧ s.slot = s.params.maxSlot.val

end Sys2Proof.Safety
end

