-- ==== Sys2Proof/Certificates/Slice0/Obligations.lean ====
section
/-! DEFINITION. The statements for the provers. A conclusion `exec i s = .next { s with ... }` also says the frame: every
field not named, memory included, is as before. A buffer is described byte by byte. -/

open Sys2Proof Sys2Proof.Machine Sys2Proof.Safety

/-! ## Encodings and the step -/

/-- Decode and encode agree on every well-formed instruction, with every operand (R90 to R111). -/
def Obligations.DecodeEncodeRoundTrip : Prop :=
  ∀ i : Instr, WellFormed i → decodeRequest (encodeInstr i) = .ok i

/-- Words of the opcode table decode to their rows (R91, R101 to R103, R109, R111). -/
def Obligations.TableWordsDecode : Prop :=
  decodeTableWord 4 0x0C = some (.sym0 .decode)
  ∧ decodeTableWord 6 0x38 = some (.sym1 .decode)
  ∧ decodeTableWord 8 0x26 = some (.valveSet .decode ⟨0, 0⟩ 0)
  ∧ decodeTableWord 16 0x802C = some (.syncStep .decode ⟨0, 0⟩ 0x80)
  ∧ decodeTableWord 8 0x20 = some (.syncFinal .decode ⟨0, 0⟩ 0)
  ∧ decodeTableWord 8 0x01 = some .reset
  ∧ decodeTableWord 8 0x05 = some .pollFirst
  ∧ decodeTableWord 8 0x06 = some .pollNext
  ∧ decodeTableWord 16 0x010C = some (.hubEnable true)
  ∧ decodeTableWord 24 0x490D10 = some (.aclAdd ⟨0x0D, 0x49⟩)
  ∧ decodeTableWord 8 0x1F = some (.reserved 0x1F)

/-- A table word given to the host interface is the next instruction that runs. -/
def Obligations.WordRunsAsRequest : Prop :=
  ∀ (s : State) (nbits w : Nat) (i : Instr), decodeTableWord nbits w = some i →
    step (s.withFetchWord nbits w) = exec i s

/-- One step takes the next request of the host and runs the instruction it decodes to; only a host request with arguments
out of range decodes to none and is refused; with no request nothing happens (R15, R70, R305). -/
def Obligations.StepRunsDecodedRequest : Prop :=
  ∀ s : State,
    (∀ r rest i, s.inbox = r :: rest → decodeRequest r = .ok i → step s = exec i { s with inbox := rest })
    ∧ (∀ r rest e, s.inbox = r :: rest → decodeRequest r = .reject e → step s = .refused (.outOfRange e))
    ∧ (∀ r e, decodeRequest r = .reject e → ∃ op args, r = .hostop op args)
    ∧ (s.inbox = [] → step s = .next s)

/-- The line code is prefix-free, so a raw bit stream has at most one parse (R92). -/
def Obligations.SymbolCodePrefixFree : Prop :=
  ∀ l l' : List Bool, l.flatMap symbolBits <+: l'.flatMap symbolBits → l <+: l'

/-- A byte that consists wholly of symbol bits takes one of seven values, none of them the terminator (R93). -/
def Obligations.SymbolStreamBytes : Prop :=
  ∀ (l : List Bool) (a : Nat), 8 * (a + 1) ≤ (l.flatMap symbolBits).length →
    (packBits (l.flatMap symbolBits)).getD a 0 ∈ ([0x33, 0x38, 0x8C, 0x8E, 0xCC, 0xCE, 0xE3] : List Byte)

/-! ## The codec -/

/-- `ENCODE` leaves the frame, its terminator and every byte behind it unchanged, and answers the length; nothing of the
block changes. -/
def Obligations.EncodeResult : Prop :=
  ∀ (c : Command) (s : State),
    let w : Command := if s.params.adrUsed then c else { c with address := 0x00 }
    ∃ t, exec (.encode c) s = .next t ∧ buildsFrame s.callerBuf t.callerBuf w
      ∧ t = { s with callerBuf := t.callerBuf, answer := .length (frameOf w).length }

/-- The six properties of `ENCODE` (R137): determinism, length, capacity, preamble, no terminator byte inside, padding. -/
def Obligations.EncodeProperties : Prop :=
  ∀ (c : Command) (s : State),
    let w : Command := if s.params.adrUsed then c else { c with address := 0x00 }
    let K := frameOnesHalf w (checksum w)
    ∃ t LEN, exec (.encode c) s = .next t ∧ t.answer = .length LEN
      ∧ (∀ s' t', s'.params.adrUsed = s.params.adrUsed → exec (.encode c) s' = .next t' →
          t'.answer = .length LEN ∧ ∀ a, a ≤ LEN → Memory.read t'.callerBuf a = Memory.read t.callerBuf a)
      ∧ LEN = 35 + (K + 1) / 2 ∧ 36 ≤ LEN ∧ LEN ≤ 47 ∧ (w.address = 0x00 → LEN ≤ 45)
      ∧ (∀ a, LEN < a → Memory.read t.callerBuf a = Memory.read s.callerBuf a)
      ∧ LEN < bufCap s.params
      ∧ (∀ a, a < 6 → Memory.read t.callerBuf a = 0xCC)
      ∧ (Memory.read t.callerBuf 6).extractLsb' 2 6 = 0b111000
      ∧ (∀ a, a < LEN → Memory.read t.callerBuf a ≠ 0xFF) ∧ Memory.read t.callerBuf LEN = 0xFF
      ∧ Memory.read t.callerBuf (LEN - 1) = if K % 2 = 1 then 0x00 else 0x30

/-- Encode, then decode any window that holds at least the frame's bytes: the same five bytes come back (R149). -/
def Obligations.EncodeThenDecode : Prop :=
  ∀ (c : Command) (B : Memory) (n : Nat) (s : State), (encodeInto c B).2 ≤ n →
    exec (.decode (Memory.bytes (encodeInto c B).1 0 n)) s = .next { s with answer := .decoded true c }

/-- `DECODE` answers `ok` with exactly the Command a window carries, and a failure, its five fields free, where it carries
none (R145 to R147, R151). The counter of free answers is the model's (log entry 4). -/
def Obligations.DecodeReadsCarriedFrames : Prop :=
  ∀ (W : List Byte) (s : State),
    (∀ c, carries W c → exec (.decode W) s = .next { s with answer := .decoded true c })
    ∧ ((∀ c, ¬ carries W c) →
        ∃ f, exec (.decode W) s = .next { s with failedDecodes := s.failedDecodes + 1, answer := .decoded false f })

/-- Sticky failure: the first cause is kept and every reader answers 0 without moving (R139). -/
def Obligations.StickyDecodeFailure : Prop :=
  ∀ D : DecSession,
    (D.failed = false → ∀ c, failWith D c = { D with failed := true, cause := c })
    ∧ (D.failed = true → (∀ c, failWith D c = D) ∧ nextPair D = (0, D) ∧ decBit D = (false, D) ∧ decUnit D = (0, D)
        ∧ findStart D = D)

/-- `DEC_BIT` by the pairs it finds, all cases (R141). -/
def Obligations.DecBitByPairs : Prop :=
  ∀ D : DecSession,
    let p := fun k => pairAt D.W (D.j + k)
    let failed := fun k c => (false, ({ D with j := D.j + k, failed := true, cause := c } : DecSession))
    (D.failed = true → decBit D = (false, D))
    ∧ (D.failed = false → p 0 = none → decBit D = failed 0 .exhausted)
    ∧ (∀ x, D.failed = false → p 0 = some x → x ≠ 0b11 → decBit D = failed 1 .malformedPair)
    ∧ (D.failed = false → p 0 = some 0b11 →
        (p 1 = none → decBit D = failed 1 .exhausted)
        ∧ (p 1 = some 0b00 → decBit D = (false, { D with j := D.j + 2 }))
        ∧ (∀ x, p 1 = some x → x ≠ 0b00 → x ≠ 0b10 → decBit D = failed 2 .malformedPair)
        ∧ (p 1 = some 0b10 →
            (p 2 = none → decBit D = failed 2 .exhausted)
            ∧ (∀ x, p 2 = some x → x ≠ 0b00 → decBit D = failed 3 .malformedPair)
            ∧ (p 2 = some 0b00 → decBit D = (true, { D with j := D.j + 3 }))))

/-- `SYM0` and `SYM1` on the decode side: the logical bit; on a window that starts with neither symbol `DEC_BIT` fails and
answers the default 0 (R91, R92, R139, R141). That a symbol runs as an instruction is the model's (log entry 6). -/
def Obligations.ReadSymbolResult : Prop :=
  ∀ s : State,
    exec (.sym0 .decode) s = .next { s with answer := .bit true false }
    ∧ exec (.sym1 .decode) s = .next { s with answer := .bit true true }
    ∧ ∀ W, (∀ v, ¬ startsWithSymbol W v) →
      exec (.sym0 (.broken W)) s = .next { s with answer := .bit false false }
      ∧ exec (.sym1 (.broken W)) s = .next { s with answer := .bit false false }

/-- `UNIT` on the decode side: the byte where the parity is even, the failure `PARITY` and the default 0 where it is odd; on
a window that starts with no unit a failure and the default 0 (R95, R96, R139, R142). That a unit runs as an instruction is the
model's (log entry 6). -/
def Obligations.ReadUnitResult : Prop :=
  ∀ (b : Byte) (p : Bool) (s : State),
    (p = parity8 b → exec (.unit .decode b p) s = .next { s with answer := .byte true b })
    ∧ (p ≠ parity8 b → exec (.unit .decode b p) s = .next { s with answer := .byte false 0 }
        ∧ (decUnit (newSession (packBits (unitBits b p)))).2.cause = .parity)
    ∧ ∀ W, (∀ b' p', ¬ startsWithUnit W b' p') →
      exec (.unit (.broken W) b p) s = .next { s with answer := .byte false 0 }

/-- `SYM0`, `SYM1` and `UNIT` on the encode side: their raw bits from the start of the caller's buffer, the rest of the last
byte 0, the terminator behind it, every other byte unchanged (R61, R131 to R133, R135). That they run as instructions, each
in a session of its own ended by `FINISH`, is the model's (log entry 6). -/
def Obligations.WireItemsEncode : Prop :=
  ∀ (i : Instr) (bits : List Bool) (s : State),
    ((i = .sym0 .encode ∧ bits = [true, true, false, false])
      ∨ (i = .sym1 .encode ∧ bits = [true, true, true, false, false, false])
      ∨ (∃ b p, i = .unit .encode b p ∧ bits = (unitLogical b).flatMap symbolBits)) →
    let LEN := (bits.length + 7) / 8
    ∃ t, exec i s = .next t
      ∧ t = { s with callerBuf := t.callerBuf, answer := .length LEN }
      ∧ (∀ k, k < bits.length → bufferBit t.callerBuf k = bits.getD k false)
      ∧ (∀ k, bits.length ≤ k → k < 8 * LEN → bufferBit t.callerBuf k = false)
      ∧ Memory.read t.callerBuf LEN = 0xFF
      ∧ (∀ a, LEN < a → Memory.read t.callerBuf a = Memory.read s.callerBuf a)

/-- Decode and encode agree through the buffer: what the encode side of a wire row leaves there decodes, from any window that
holds its bytes, to the decode side of the same row with the same operands; the address of a `FRAME` as R107 says (R91, R95,
R97, R149). That these rows run as instructions is the model's (log entry 6). -/
def Obligations.WireRowsRoundTrip : Prop :=
  ∀ (i j : Instr) (ask : List Byte → Request) (s : State),
    ((i = .sym0 .encode ∧ j = .sym0 .decode ∧ ask = .symbol)
      ∨ (i = .sym1 .encode ∧ j = .sym1 .decode ∧ ask = .symbol)
      ∨ (∃ b p, i = .unit .encode b p ∧ j = .unit .decode b (parity8 b) ∧ ask = .unit)
      ∨ (∃ c chk, i = .frame .encode c chk ∧ ask = .frame
          ∧ let w : Command := if s.params.adrUsed then c else { c with address := 0x00 }
            j = .frame .decode w (checksum w))) →
    ∃ t LEN, exec i s = .next t ∧ t.answer = .length LEN
      ∧ ∀ n, LEN ≤ n → decodeRequest (ask (Memory.bytes t.callerBuf 0 n)) = .ok j

/-- `FRAME` and the three frame commands on the encode side build their frame into the caller's buffer; a `FRAME` puts the
address `0x00` on the wire when `ADR_USED` is false (R97, R101 to R103, R107, R136). That a frame row runs as an instruction is
the model's (log entry 6). -/
def Obligations.FrameRowsEncode : Prop :=
  ∀ (i : Instr) (c : Command) (s : State),
    ((∃ c0 chk, i = .frame .encode c0 chk ∧ c = if s.params.adrUsed then c0 else { c0 with address := 0x00 })
      ∨ (∃ src ext, i = .valveSet .encode src ext ∧ c = ⟨src.hc1, src.hc2, 0x00, 0x26, ext⟩)
      ∨ (∃ src ext, i = .syncStep .encode src ext ∧ c = ⟨src.hc1, src.hc2, 0x00, 0x2C, ext⟩)
      ∨ (∃ src ext, i = .syncFinal .encode src ext ∧ c = ⟨src.hc1, src.hc2, 0x00, 0x20, ext⟩)) →
    ∃ t, exec i s = .next t ∧ buildsFrame s.callerBuf t.callerBuf c
      ∧ t = { s with callerBuf := t.callerBuf, answer := .length (frameOf c).length }

/-- `FRAME` on the decode side: the Command where the checksum unit is the checksum, else a failed decode; a broken window is
a failed decode too (R99, R112, R145). That a frame row runs as an instruction is the model's (log entries 4 and 6). -/
def Obligations.FrameRowDecodes : Prop :=
  ∀ (c : Command) (chk : Byte) (s : State),
    (chk = checksum c → exec (.frame .decode c chk) s = .next { s with answer := .decoded true c })
    ∧ (chk ≠ checksum c →
        ∃ f, exec (.frame .decode c chk) s
          = .next { s with failedDecodes := s.failedDecodes + 1, answer := .decoded false f })
    ∧ ∀ W, (∀ c', ¬ carries W c') →
        ∃ f, exec (.frame (.broken W) c chk) s
          = .next { s with failedDecodes := s.failedDecodes + 1, answer := .decoded false f }

/-- The three frame commands on the decode side are read by `DECODE`, with address 0 (R101 to R103, R106, R145). A frame of any
command byte that reaches `HUB_POLL` behind its six preamble bytes is activity; `0x26` alone is recorded, where the filter
accepts it; every other one re-arms the receiver (R254, R258 to R260). That a command row runs as an instruction is the model's
(log entry 6). -/
def Obligations.ReceivedCommands : Prop :=
  ∀ (src : HouseCode) (ext : Byte) (s : State),
    exec (.valveSet .decode src ext) s = .next { s with answer := .decoded true ⟨src.hc1, src.hc2, 0x00, 0x26, ext⟩ }
    ∧ exec (.syncStep .decode src ext) s = .next { s with answer := .decoded true ⟨src.hc1, src.hc2, 0x00, 0x2C, ext⟩ }
    ∧ exec (.syncFinal .decode src ext) s = .next { s with answer := .decoded true ⟨src.hc1, src.hc2, 0x00, 0x20, ext⟩ }
    ∧ ∀ (cmd : Byte) (tail : List Byte), s.hubEnabled = true → statusAnswer s.env = ⟨true, false⟩ →
        let c : Command := ⟨src.hc1, src.hc2, 0x00, cmd, ext⟩
        (frameAnswer (afterStatus s.env)).val = frameOf c ++ tail →
        ∃ t, exec .hubPoll s = .next t ∧ t.answer = .activity true
          ∧ (isCallForHeat s.params s.acl c → t.latch = some src ∧ t.hubEnabled = false ∧ t.radioMode = .standby)
          ∧ (¬ isCallForHeat s.params s.acl c →
              t.latch = s.latch ∧ t.hubEnabled = true ∧ t.radioMode = .receive)

/-! ## The frame builder -/

/-- `VALVE_BUILD`: the demand, then the two house codes, then the valve-set frame in `TXBUF`; nothing else (R171, R174,
R176). -/
def Obligations.ValveBuildResult : Prop :=
  ∀ s : State,
    let e := afterDemand s.env
    let ext : Byte := BitVec.ofNat 8 ((255 * (demandAnswer s.env).val + 50) / 100)
    ∃ t, exec .valveBuild s = .next t ∧ buildsFrame s.txbuf t.txbuf (builtFrom e 0x26 ext)
      ∧ t = { s with
          txbuf := t.txbuf
          trace := s.trace ++ [.getRequestedOpenPercent, .getHouseCode1, .getHouseCode2]
          env := afterBuild e
          answer := .none }

/-! ## The scheduler -/

/-- A burst poll: the sync-step frame with the countdown is built and sent, and the countdown goes down by 2, or after 3 the
final wait begins (R192 to R197, R206). -/
def Obligations.BurstPoll : Prop :=
  ∀ (i : Instr) (s s0 : State) (c : Countdown), pollStart i s = some s0 → s.localEnabled = true →
    ((s.sync = .unsynced ∧ c.val = 241) ∨ s.sync = .burst c) →
    let F := builtFrom s.env 0x2C c.val
    let last := decide (c.val = 3)
    ∃ t, exec i s = .next t ∧ buildsFrame s.txbuf t.txbuf F
      ∧ (c.val = 3 → t.sync = .finalWait
          (BitVec.ofNat 8 ((houseCode2Answer (afterBuild s.env) &&& 7).toNat + 8 - s0.slot)))
      ∧ (c.val ≠ 3 → ∃ c' : Countdown, t.sync = .burst c' ∧ c'.val.toNat + 2 = c.val.toNat)
      ∧ t = { s0 with
          sync := t.sync
          more := true
          txbuf := t.txbuf
          radioMode := modeAfterSend s.hubEnabled (frameOf F) s.radioMode
          trace := s.trace ++ [.getHouseCode1, .getHouseCode2] ++ sendEvents s.hubEnabled (frameOf F)
            ++ (if last then [.getHouseCode2] else [])
          env := if last then afterHouseCode2 (afterBuild s.env) else afterBuild s.env
          answer := .flag true }

/-- A poll of the final wait that is not its last: the wait goes down by 1, nothing is sent (R198). -/
def Obligations.FinalWaitPoll : Prop :=
  ∀ (i : Instr) (s s0 : State) (h : Byte), pollStart i s = some s0 → s.localEnabled = true → s.sync = .finalWait h →
    2 ≤ h.toNat →
    exec i s = .next { s0 with sync := .finalWait (h - 1), more := true, answer := .flag true }

/-- The poll that ends the final wait: sync-final is built and sent, the scheduler is synced with the belief false, a fresh
valve-set frame is in `TXBUF`, and the gap is set (R198, R199). -/
def Obligations.SyncFinalPoll : Prop :=
  ∀ (i : Instr) (s s0 : State), pollStart i s = some s0 → s.localEnabled = true → s.sync = .finalWait 1 →
    let F := builtFrom s.env 0x20 0x00
    let e1 := afterBuild s.env
    let ext : Byte := BitVec.ofNat 8 ((255 * (demandAnswer e1).val + 50) / 100)
    let V := builtFrom (afterDemand e1) 0x26 ext
    let e2 := afterBuild (afterDemand e1)
    ∃ t m, exec i s = .next t ∧ buildsFrame s.txbuf m F ∧ buildsFrame m t.txbuf V
      ∧ t = { s0 with
          sync := .synced
          gap := BitVec.ofNat 8 ((houseCode2Answer e2 &&& 7).toNat + 230 - s0.slot)
          more := false
          openBelief := false
          txbuf := t.txbuf
          radioMode := modeAfterSend s.hubEnabled (frameOf F) s.radioMode
          trace := s.trace ++ [.getHouseCode1, .getHouseCode2] ++ sendEvents s.hubEnabled (frameOf F)
            ++ [.getRequestedOpenPercent, .getHouseCode1, .getHouseCode2, .getHouseCode2]
          env := afterHouseCode2 e2
          answer := .flag false }

/-- `POLL_FIRST` in a cycle in which no transmission can fall: the whole cycle is counted at once (R200). -/
def Obligations.SyncedCyclePoll : Prop :=
  ∀ s : State, s.localEnabled = true → s.sync = .synced → s.params.maxSlot.val + 1 < s.gap.toNat →
    exec .pollFirst s = .next { s with
      slot := 0, gap := BitVec.ofNat 8 (s.gap.toNat - (s.params.maxSlot.val + 1)), more := false,
      answer := .flag false }

/-- A synced poll that counts one slot and does not reach 0 (R200). -/
def Obligations.SyncedSlotPoll : Prop :=
  ∀ (i : Instr) (s s0 : State), pollStart i s = some s0 → s.localEnabled = true → s.sync = .synced →
    2 ≤ s.gap.toNat → (i = .pollFirst → s.gap.toNat ≤ s.params.maxSlot.val + 1) →
    exec i s = .next { s0 with gap := s.gap - 1, more := true, answer := .flag true }

/-- The synced poll that brings the gap to 0: the buffer is sent as it is, the belief follows the demand read then, and the
gap is set again (R200, R201, R206). -/
def Obligations.SyncedTransmitPoll : Prop :=
  ∀ (i : Instr) (s s0 : State) (pl : List Byte), pollStart i s = some s0 → s.localEnabled = true → s.sync = .synced →
    s.gap = 1 → holdsPayload s.params s.txbuf pl →
    exec i s = .next { s0 with
      gap := BitVec.ofNat 8 ((houseCode2Answer (afterDemand s.env) &&& 7).toNat + 230 - s0.slot)
      more := false
      openBelief := decide (s.params.minReallyOpenPc.val ≤ (demandAnswer s.env).val)
      radioMode := modeAfterSend s.hubEnabled pl s.radioMode
      trace := s.trace ++ sendEvents s.hubEnabled pl ++ [.getRequestedOpenPercent, .getHouseCode2]
      env := afterHouseCode2 (afterDemand s.env)
      answer := .flag false }

/-- While local control is disabled a poll transmits nothing, keeps `UNSYNCED` and answers false (R194, R195). -/
def Obligations.DisabledPoll : Prop :=
  ∀ (i : Instr) (s s0 : State), pollStart i s = some s0 → s.localEnabled = false →
    exec i s = .next { s0 with sync := .unsynced, more := false, answer := .flag false }

/-- The three causes of a ProtocolPreconditionViolation and its one effect (R203, R304). -/
def Obligations.PollViolations : Prop :=
  (∀ (i : Instr) (s s0 : State), pollStart i s = some s0 → s.localEnabled = true →
    ((s.sync = .synced ∧ s.gap = 0) ∨ s.sync = .finalWait 0) →
    exec i s = .next { s0 with
      sync := .unsynced, gap := 0, openBelief := false, more := false, logPPV := true, answer := .flag false })
  ∧ (∀ s : State, s.more = true → s.slot = s.params.maxSlot.val →
    exec .pollNext s = .next { s with
      sync := .unsynced, gap := 0, openBelief := false, more := false, logPPV := true, answer := .flag false })

/-- A `POLL_NEXT` after a false answer changes nothing at all (R193). -/
def Obligations.PollNextIdle : Prop :=
  ∀ s : State, s.more = false → exec .pollNext s = .next { s with answer := .flag false }

/-- `EXTRA_TX` with its guards true: the buffer is sent once and the belief is true; the gap, the slot and the sync state
stay (R204, R206). -/
def Obligations.ExtraTxSends : Prop :=
  ∀ (s : State) (pl : List Byte), s.localEnabled = true → s.sync = .synced → 20 < s.gap.toNat → s.gap.toNat < 210 →
    s.params.minReallyOpenPc.val ≤ (demandAnswer s.env).val → holdsPayload s.params s.txbuf pl →
    exec .extraTx s = .next { s with
      openBelief := true
      radioMode := modeAfterSend s.hubEnabled pl s.radioMode
      trace := s.trace ++ [.getRequestedOpenPercent] ++ sendEvents s.hubEnabled pl
      env := afterDemand s.env
      answer := .flag true }

/-- `EXTRA_TX` with a guard false answers false; the demand is read only when the first three guards pass (R204). -/
def Obligations.ExtraTxRefuses : Prop :=
  ∀ s : State,
    ((s.localEnabled = false ∨ s.sync ≠ .synced ∨ s.gap.toNat ≤ 20 ∨ 210 ≤ s.gap.toNat) →
      exec .extraTx s = .next { s with answer := .flag false })
    ∧ (s.localEnabled = true → s.sync = .synced → 20 < s.gap.toNat → s.gap.toNat < 210 →
      (demandAnswer s.env).val < s.params.minReallyOpenPc.val →
      exec .extraTx s = .next { s with
        trace := s.trace ++ [.getRequestedOpenPercent], env := afterDemand s.env, answer := .flag false })

/-- `SYNC_RESET`, `LOCAL_DISABLE` and `LOCAL_ENABLE`: their writes and nothing else (R207 to R209, R342). -/
def Obligations.AdministrativeOperations : Prop :=
  ∀ s : State,
    exec .syncReset s = .next { s with
      sync := .unsynced, gap := 0, openBelief := false, more := false, answer := .none }
    ∧ exec .localDisable s = .next { s with
      localEnabled := false, sync := .unsynced, gap := 0, openBelief := false, more := false, answer := .none }
    ∧ exec .localEnable s = .next { s with localEnabled := true, answer := .none }

/-- `IS_OPEN` answers synced and belief, and changes nothing (R240). -/
def Obligations.IsOpenAnswer : Prop :=
  ∀ s : State,
    (s.sync = .synced ∧ s.openBelief = true → exec .isOpen s = .next { s with answer := .flag true })
    ∧ (¬ (s.sync = .synced ∧ s.openBelief = true) → exec .isOpen s = .next { s with answer := .flag false })

/-- The whole handshake from `UNSYNCED`, the host polling every slot: 120 sync-step frames with extensions 241 down to 3,
the final wait, then the one sync-final frame (R210, R350). -/
def Obligations.SyncHandshakeRun : Prop :=
  ∀ (s : State) (hc1 hc2 : Byte) (r1 r2 : List Byte), s.localEnabled = true → s.sync = .unsynced →
    s.env.houseCode1 = List.replicate 122 hc1 ++ r1 → s.env.houseCode2 = List.replicate 124 hc2 ++ r2 →
    let N := s.params.maxSlot.val + 1
    let h := (hc2 &&& 7).toNat + 8 - 119 % N
    (∀ i, i ≤ 119 + h → ∃ t u, afterPolls s 0 i = some t ∧ exec (hostPoll s.params i) t = .next u
      ∧ u.slot = i % N
      ∧ newTransmits t u =
          (if i < 120 then [frameOf ⟨hc1, hc2, 0x00, 0x2C, BitVec.ofNat 8 (241 - 2 * i)⟩]
          else if i < 119 + h then [] else [frameOf ⟨hc1, hc2, 0x00, 0x20, 0x00⟩])
      ∧ u.answer = .flag (decide (i < 119 + h))
      ∧ (i = 119 → u.sync = .finalWait (BitVec.ofNat 8 h))
      ∧ (i = 119 + h → u.sync = .synced))

/-- The spacing of steady-state transmissions: after one in slot `s`, the next comes `230 + g + MAX_SLOT - 2 s` slots later
and none before it, in slot `(229 + g - s) mod N_SLOTS` (R211). -/
def Obligations.TransmissionSpacing : Prop :=
  ∀ (s : State) (g : Nat) (pl : List Byte), s.localEnabled = true → s.sync = .synced → s.more = false →
    s.slot ≤ s.params.maxSlot.val → g ≤ 7 → s.gap.toNat + s.slot = 230 + g →
    holdsPayload s.params s.txbuf pl → pl ≠ [] →
    let N := s.params.maxSlot.val + 1
    let later := 230 + g + s.params.maxSlot.val - 2 * s.slot
    (∀ k, 1 ≤ k → k < later → ∃ t u, afterPolls s (s.slot + 1) (k - 1) = some t
      ∧ exec (hostPoll s.params (s.slot + k)) t = .next u ∧ newTransmits t u = [])
    ∧ (∃ t u, afterPolls s (s.slot + 1) (later - 1) = some t
      ∧ exec (hostPoll s.params (s.slot + later)) t = .next u ∧ newTransmits t u = [pl]
      ∧ u.slot = (229 + g - s.slot) % N)

/-! ## The hub receiver -/

/-- `HUB_ENABLE(force)` and `HUB_DISABLE`: idempotent, but for a forced enable (R252, R253). -/
def Obligations.HubSwitches : Prop :=
  ∀ (s : State) (force : Bool),
    (s.hubEnabled = true ∧ force = false → exec (.hubEnable force) s = .next { s with answer := .none })
    ∧ (s.hubEnabled = false ∨ force = true → exec (.hubEnable force) s = .next { s with
        hubEnabled := true, radioMode := .receive, trace := s.trace ++ [.setStandby, .setReceive 46 true],
        answer := .none })
    ∧ (s.hubEnabled = false → exec .hubDisable s = .next { s with answer := .none })
    ∧ (s.hubEnabled = true → exec .hubDisable s = .next { s with
        hubEnabled := false, radioMode := .standby, trace := s.trace ++ [.setStandby], answer := .none })

/-- `HUB_POLL` without a frame: nothing while disabled, one status read while enabled, and the recovery of a RadioFault
(R254, R255, R262, R303). -/
def Obligations.HubPollWithoutFrame : Prop :=
  ∀ s : State,
    (s.hubEnabled = false → exec .hubPoll s = .next { s with answer := .activity false })
    ∧ (s.hubEnabled = true → statusAnswer s.env = ⟨false, false⟩ → exec .hubPoll s = .next { s with
        trace := s.trace ++ [.readStatus], env := afterStatus s.env, answer := .activity false })
    ∧ (s.hubEnabled = true → statusAnswer s.env = ⟨false, true⟩ → exec .hubPoll s = .next { s with
        logRadioFault := true, radioMode := .receive,
        trace := s.trace ++ [.readStatus, .setStandby, .setReceive 46 true], env := afterStatus s.env,
        answer := .activity false })

/-- `HUB_POLL` with a frame that is a call for heat: recorded in the latch, and the receiver disables itself (R254, R257,
R258, R260). -/
def Obligations.HubPollAccepts : Prop :=
  ∀ (s : State) (fault : Bool) (c : Command), s.hubEnabled = true → statusAnswer s.env = ⟨true, fault⟩ →
    let fr := (frameAnswer (afterStatus s.env)).val
    received fr c → isCallForHeat s.params s.acl c →
    ∃ t, exec .hubPoll s = .next t
      ∧ (∀ a, Memory.read t.rxbuf a = if a < 46 then fr.getD a 0 else Memory.read s.rxbuf a)
      ∧ t = { s with
          hubEnabled := false
          rxbuf := t.rxbuf
          latch := some ⟨c.hc1, c.hc2⟩
          logRadioFault := s.logRadioFault || fault
          radioMode := .standby
          trace := s.trace ++ [.readStatus, .readFrame 46, .setStandby]
          env := afterFrame (afterStatus s.env)
          answer := .activity true }

/-- `HUB_POLL` with a frame that decodes and is not accepted: activity, nothing recorded, the receiver re-armed (R254,
R259). -/
def Obligations.HubPollRearms : Prop :=
  ∀ (s : State) (fault : Bool) (c : Command), s.hubEnabled = true → statusAnswer s.env = ⟨true, fault⟩ →
    let fr := (frameAnswer (afterStatus s.env)).val
    received fr c → ¬ isCallForHeat s.params s.acl c →
    ∃ t, exec .hubPoll s = .next t
      ∧ (∀ a, Memory.read t.rxbuf a = if a < 46 then fr.getD a 0 else Memory.read s.rxbuf a)
      ∧ t = { s with
          rxbuf := t.rxbuf
          logRadioFault := s.logRadioFault || fault
          radioMode := .receive
          trace := s.trace ++ [.readStatus, .readFrame 46, .setStandby, .setReceive 46 true]
          env := afterFrame (afterStatus s.env)
          answer := .activity true }

/-- `HUB_POLL` with bytes that carry no frame, a rejected preamble among them: discarded, no activity, the enabled flag and
the latch preserved (R254, R256, R261). -/
def Obligations.HubPollDiscards : Prop :=
  ∀ (s : State) (fault : Bool), s.hubEnabled = true → statusAnswer s.env = ⟨true, fault⟩ →
    let fr := (frameAnswer (afterStatus s.env)).val
    (∀ c, ¬ received fr c) →
    ∃ t, exec .hubPoll s = .next t
      ∧ (∀ a, Memory.read t.rxbuf a = if a < 46 then fr.getD a 0 else Memory.read s.rxbuf a)
      ∧ t = { s with
          rxbuf := t.rxbuf
          logRadioFault := s.logRadioFault || fault
          radioMode := .receive
          trace := s.trace ++ [.readStatus, .readFrame 46, .setStandby, .setReceive 46 true]
          env := afterFrame (afterStatus s.env)
          answer := .activity false }

/-- `PREAMBLE_CHECK`: reject only when both of the first two bytes are wrong, else skip a wrong first byte and the preamble
bytes among the first six; the result is 1 to 6 (R256). -/
def Obligations.PreambleCheckPosition : Prop :=
  ∀ m : Memory, preambleCheck m = windowStart (Memory.bytes m 0 46)
    ∧ ∀ pos, preambleCheck m = some pos → 1 ≤ pos ∧ pos ≤ 6

/-- The hub latch property: an enabled receiver that is read a valve-set frame at or above the threshold records its house
code; a read-and-clear returns it once, then `none`. Also with six more `0xCC` bytes in front where the frame still fits
(R269). -/
def Obligations.HubLatchOnce : Prop :=
  ∀ (s : State) (c : Command) (B : Memory), s.hubEnabled = true → statusAnswer s.env = ⟨true, false⟩ →
    isCallForHeat s.params s.acl c →
    let fr := (frameAnswer (afterStatus s.env)).val
    let LEN := (encodeInto c B).2
    let sent := Memory.bytes (encodeInto c B).1 0 LEN
    ((LEN ≤ 46 ∧ ∃ tail, fr = sent ++ tail)
      ∨ (frameOnesHalf c (checksum c) ≤ 11 ∧ ∃ tail, fr = List.replicate 6 0xCC ++ (sent ++ tail).take 40)) →
    ∃ t1 t2 t3, exec .hubPoll s = .next t1 ∧ t1.answer = .activity true ∧ t1.latch = some ⟨c.hc1, c.hc2⟩
      ∧ t1.hubEnabled = false
      ∧ exec .latchGetClear t1 = .next t2 ∧ t2.answer = .latch (some ⟨c.hc1, c.hc2⟩)
      ∧ exec .latchGetClear t2 = .next t3 ∧ t3.answer = .latch none

/-- `HUB_POLL` never reads or writes scheduler state or `TXBUF`: with any other scheduler state it does the same to the
rest; and it does not write the accept-list, which it reads (R254, R75). -/
def Obligations.HubPollIgnoresScheduler : Prop :=
  ∀ s x : State,
    let swap := fun u : State => { u with
      sync := x.sync, slot := x.slot, gap := x.gap, more := x.more, localEnabled := x.localEnabled,
      openBelief := x.openBelief, logPPV := x.logPPV, txbuf := x.txbuf }
    ∃ t, exec .hubPoll s = .next t ∧ exec .hubPoll (swap s) = .next (swap t)
      ∧ t.sync = s.sync ∧ t.slot = s.slot ∧ t.gap = s.gap ∧ t.more = s.more ∧ t.localEnabled = s.localEnabled
      ∧ t.openBelief = s.openBelief ∧ t.logPPV = s.logPPV ∧ t.txbuf = s.txbuf ∧ t.acl = s.acl

/-- `LATCH_GET_CLEAR`: the latch as it was, and `none` in it (R263). -/
def Obligations.LatchGetClearResult : Prop :=
  ∀ s : State, exec .latchGetClear s = .next { s with latch := none, answer := .latch s.latch }

/-- The accept-list operations (R264 to R268): add, full, already present; remove; query with the empty list accepting
all; count. -/
def Obligations.AcceptListOperations : Prop :=
  ∀ (s : State) (hc : HouseCode),
    (hc ∈ s.acl → exec (.aclAdd hc) s = .next { s with answer := .flag true })
    ∧ (hc ∉ s.acl → s.acl.length = s.params.aclCap → exec (.aclAdd hc) s = .next { s with answer := .flag false })
    ∧ (hc ∉ s.acl → s.acl.length ≠ s.params.aclCap →
        ∃ t, exec (.aclAdd hc) s = .next t ∧ t = { s with acl := t.acl, answer := .flag true }
          ∧ (∀ x, x ∈ t.acl ↔ x ∈ s.acl ∨ x = hc) ∧ t.acl.length = s.acl.length + 1)
    ∧ (∃ t, exec (.aclRemove hc) s = .next t ∧ t = { s with acl := t.acl, answer := .none }
        ∧ (∀ x, x ∈ t.acl ↔ x ∈ s.acl ∧ x ≠ hc) ∧ (hc ∉ s.acl → t.acl = s.acl))
    ∧ (s.acl = [] ∨ hc ∈ s.acl → exec (.aclQuery hc) s = .next { s with answer := .flag true })
    ∧ (¬ (s.acl = [] ∨ hc ∈ s.acl) → exec (.aclQuery hc) s = .next { s with answer := .flag false })
    ∧ exec .aclCount s = .next { s with answer := .count s.acl.length }

/-- `EXT` is strictly increasing, so a frame built from demand `p` passes the threshold exactly when
`p >= MIN_REALLY_OPEN_PC` (R104, R258). -/
def Obligations.ThresholdOnExtensionScale : Prop :=
  (∀ p q : Nat, p < q → q ≤ 100 → (extOf p).toNat < (extOf q).toNat)
  ∧ (∀ (P : Config.Params) (p : Percent), (extThreshold P).toNat ≤ (extOf p.val).toNat ↔ P.minReallyOpenPc.val ≤ p.val)

/-- The two slot formulas stay in range for every slot and house code: no wrap-around (R205). -/
def Obligations.SlotFormulaBounds : Prop :=
  ∀ (P : Config.Params) (hc2 : Byte) (slot : Nat), slot ≤ P.maxSlot.val →
    nSlots P = P.maxSlot.val + 1
    ∧ (finalWaitOf hc2 slot).toNat + slot = (hc2 &&& 7).toNat + 8
    ∧ 1 ≤ (finalWaitOf hc2 slot).toNat ∧ (finalWaitOf hc2 slot).toNat ≤ 15
    ∧ (gapOf hc2 slot).toNat + slot = (hc2 &&& 7).toNat + 230
    ∧ 223 ≤ (gapOf hc2 slot).toNat ∧ (gapOf hc2 slot).toNat ≤ 237

/-! ## Reset and reserved codes -/

/-- `RESET`: every write of R340, `RXBUF`, the caller's buffer and the parameters left as they are, no collaborator called. -/
def Obligations.ResetResult : Prop :=
  ∀ s : State, ∃ t, exec .reset s = .next t ∧ (∀ a, Memory.read t.txbuf a = 0xFF)
    ∧ t = { s with
        sync := .unsynced
        slot := 0
        gap := 0
        more := false
        localEnabled := true
        openBelief := false
        logPPV := false
        txbuf := t.txbuf
        hubEnabled := false
        latch := none
        acl := []
        logRadioFault := false
        radioMode := .standby
        trace := []
        answer := .none }

/-- The state after reset has the values of R20 and meets every invariant. The clauses of `BufferInv` on the caller's buffer
and on `RXBUF` rest on the model's choices: their contents at reset (log entry 3) and the caller's 48 bytes (log entry 5). -/
def Obligations.ResetMeetsInvariants : Prop :=
  State.reset.sync = .unsynced ∧ State.reset.slot = 0 ∧ State.reset.gap = 0 ∧ State.reset.more = false
  ∧ State.reset.localEnabled = true ∧ State.reset.openBelief = false ∧ State.reset.logPPV = false
  ∧ (∀ a, Memory.read State.reset.txbuf a = 0xFF) ∧ State.reset.hubEnabled = false ∧ State.reset.latch = none
  ∧ State.reset.acl = [] ∧ State.reset.logRadioFault = false ∧ State.reset.radioMode = .standby
  ∧ State.reset.trace = []
  ∧ RadioInv State.reset ∧ SchedulerInv State.reset ∧ BufferInv State.reset ∧ AclInv State.reset ∧ NoViolation State.reset

/-- A request with a reserved code, `0x00` or `0x14..0x1F`, is refused, in every state (R111). -/
def Obligations.ReservedRefused : Prop :=
  (∀ (code : BitVec 5) (s : State), exec (.reserved code) s = .refused (.reservedOperation code))
  ∧ ∀ (code : BitVec 5) (args : List Byte), code = 0x00 ∨ 0x14 ≤ code.toNat →
      decodeRequest (.hostop code args) = .ok (.reserved code)

/-! ## What every step keeps -/

/-- `G.radioMode = RECEIVE` if and only if `H.enabled`: it holds after reset and every operation restores it (R39). -/
def Obligations.RadioFollowsHub : Prop :=
  RadioInv State.reset ∧ ∀ s t : State, RadioInv s → step s = .next t → RadioInv t

/-- The counters stay in range, a disabled scheduler is `UNSYNCED`, and the belief implies `SYNCED` (R23, R25, R26, R212). -/
def Obligations.StepKeepsSchedulerInv : Prop :=
  ∀ s t : State, SchedulerInv s → step s = .next t → SchedulerInv t

/-- The buffers stay canonical and within their capacities, and while synced `TXBUF` holds a valve-set frame (R177,
R212). That the caller's buffer has 48 bytes is the model's (log entry 5). -/
def Obligations.StepKeepsBufferInv : Prop :=
  ∀ s t : State, BufferInv s → step s = .next t → BufferInv t

/-- The accept-list keeps no duplicate and at most `ACL_CAP` entries, and the latch changes only in `HUB_POLL`,
`LATCH_GET_CLEAR` and `RESET` (R271). -/
def Obligations.StepKeepsAclInv : Prop :=
  (∀ s t : State, AclInv s → step s = .next t → AclInv t)
  ∧ ∀ (i : Instr) (s t : State), exec i s = .next t → t.latch ≠ s.latch →
      i = .hubPoll ∨ i = .latchGetClear ∨ i = .reset

/-- No codec session outlives its operation: an operation of the codec changes nothing but the caller's buffer, the answer and
the model's count of failed answers; what it answers and the bytes it writes depend on its operands and the parameters alone
(that count apart, which numbers free values: log entry 4), not on what an earlier operation left; and inside an operation a
decode session has a cause exactly when it has failed (R40, R41, R130, R138). -/
def Obligations.CodecSessionsTransient : Prop :=
  (∀ (i : Instr) (s : State), CodecOp i → ∃ t, exec i s = .next t
    ∧ t = { s with callerBuf := t.callerBuf, answer := t.answer, failedDecodes := t.failedDecodes }
    ∧ ∀ s' : State, s'.params = s.params → s'.failedDecodes = s.failedDecodes →
        ∃ t', exec i s' = .next t' ∧ t'.answer = t.answer
          ∧ ∀ a, Memory.read t.callerBuf a ≠ Memory.read s.callerBuf a →
              Memory.read t'.callerBuf a = Memory.read t.callerBuf a)
  ∧ ∀ W : List Byte, (decodeWindow W).2.failed = true ↔ (decodeWindow W).2.cause ≠ .none

/-- A violation is recorded only by a `POLL_NEXT` beyond the last slot: a zero gap or a zero wait cannot arise (R304). -/
def Obligations.ViolationsOnlyByOverrun : Prop :=
  ∀ (i : Instr) (s t : State), SchedulerInv s → NoViolation s → exec i s = .next t →
    (¬ NoViolation t ↔ Overrun i s)

/-- The writers of the belief: polls and `EXTRA_TX` of a synced, enabled scheduler set it; only those and the four events of
R241 clear it. -/
def Obligations.BeliefWriters : Prop :=
  ∀ (i : Instr) (s t : State), exec i s = .next t →
    (t.openBelief ≠ s.openBelief → i ∈ [.reset, .syncReset, .localDisable, .pollFirst, .pollNext, .extraTx])
    ∧ (t.openBelief = true → s.openBelief = false →
        i ∈ [.pollFirst, .pollNext, .extraTx] ∧ s.sync = .synced ∧ s.localEnabled = true)

/-- Only an enabled scheduler transmits, at most once per operation, and each transmission stands between a `setStandby` and
the resumption of what the hub receiver needs (R28, R71, R195, R206). -/
def Obligations.TransmissionsBracketed : Prop :=
  ∀ (i : Instr) (s t : State), exec i s = .next t → i ≠ .reset →
    ∃ ev, t.trace = s.trace ++ ev ∧ (transmits ev).length ≤ 1
      ∧ (transmits ev ≠ [] → s.localEnabled = true ∧ i ∈ [.pollFirst, .pollNext, .extraTx])
      ∧ ∀ pre pl post, ev = pre ++ [.transmit pl] ++ post →
          ∃ pre' post', pre = pre' ++ [.setStandby] ∧ post = resumeEvent s.hubEnabled :: post'

/-- Who writes what: the parameters nobody; `TXBUF` only the scheduler's builds and `RESET`; `RXBUF` only `HUB_POLL`; the
caller's buffer only the codec's operations; the administrative switch only its three operations; the sticky flags are cleared
only by `RESET` (R28, R30, R36, R60, R75, R83). That wire rows write the caller's buffer is the model's (log entry 6). -/
def Obligations.StateOwners : Prop :=
  ∀ (i : Instr) (s t : State), exec i s = .next t →
    t.params = s.params
    ∧ (t.txbuf ≠ s.txbuf → i ∈ [.reset, .valveBuild, .pollFirst, .pollNext])
    ∧ (t.rxbuf ≠ s.rxbuf → i = .hubPoll)
    ∧ (t.callerBuf ≠ s.callerBuf → CodecOp i)
    ∧ (t.localEnabled ≠ s.localEnabled → i ∈ [.reset, .localDisable, .localEnable])
    ∧ (s.logPPV = true → t.logPPV = false → i = .reset)
    ∧ (s.logRadioFault = true → t.logRadioFault = false → i = .reset)
end

