-- ==== Sys2Proof/Laws/Memory.lean ====
section
/-! SUPPORT. The laws of a byte space: read after write, and the canonical form kept by every write. -/

namespace Sys2Proof.Machine

-- One theorem at a time: elaborated all at once, this file's many small theorems wait on each
-- other in more threads than the memory limit has stacks for.
set_option Elab.async false

theorem Memory.read_put_same (m : Memory) (a : Nat) (b : Byte) : Memory.read (Memory.put m a b) a = b := by
  induction m with
  | nil => simp [Memory.put, Memory.read]
  | cons c m ih =>
    obtain ⟨k, v⟩ := c
    simp only [Memory.put]
    split
    · simp [Memory.read]
    · split
      · simp [Memory.read]
      · next h => simp [Memory.read, h, ih]

theorem Memory.read_put_other (m : Memory) {a x : Nat} (b : Byte) (h : x ≠ a) :
    Memory.read (Memory.put m a b) x = Memory.read m x := by
  induction m with
  | nil => simp [Memory.put, Memory.read, h]
  | cons c m ih =>
    obtain ⟨k, v⟩ := c
    simp only [Memory.put]
    split
    · simp [Memory.read, h]
    · split
      · next h2 => subst h2; simp [Memory.read, h]
      · simp [Memory.read, ih]

theorem Memory.read_erase (m : Memory) (a x : Nat) :
    Memory.read (m.filter (fun c => c.1 != a)) x = if x = a then Memory.blank else Memory.read m x := by
  induction m with
  | nil => simp [Memory.read]
  | cons c m ih =>
    obtain ⟨k, v⟩ := c
    by_cases h : k = a
    · subst h
      rw [List.filter_cons_of_neg (by simp), ih]
      by_cases hx : x = k <;> simp [Memory.read, hx]
    · rw [List.filter_cons_of_pos (by simpa using h)]
      by_cases hx : x = k
      · subst hx; simp [Memory.read, h]
      · simp [Memory.read, hx, ih]

/-- Reading after a write: the written byte at its address, every other byte as before. -/
theorem Memory.read_write (m : Memory) (a x : Nat) (b : Byte) :
    Memory.read (Memory.write m a b) x = if x = a then b else Memory.read m x := by
  unfold Memory.write
  split
  · next h => rw [Memory.read_erase, h]
  · by_cases h : x = a
    · subst h; simp [Memory.read_put_same]
    · simp [Memory.read_put_other _ _ h, h]

@[simp] theorem Memory.read_write_same (m : Memory) (a : Nat) (b : Byte) :
    Memory.read (Memory.write m a b) a = b := by simp [Memory.read_write]

theorem Memory.read_write_other (m : Memory) {a x : Nat} (b : Byte) (h : x ≠ a) :
    Memory.read (Memory.write m a b) x = Memory.read m x := by simp [Memory.read_write, h]

/-- Reading after a run of bytes was stored. -/
theorem Memory.read_writeBytes (bs : List Byte) : ∀ (m : Memory) (a x : Nat),
    Memory.read (Memory.writeBytes m a bs) x =
      if a ≤ x ∧ x < a + bs.length then bs.getD (x - a) Memory.blank else Memory.read m x := by
  induction bs with
  | nil =>
    intro m a x
    rw [if_neg (by simp), Memory.writeBytes]
  | cons b bs ih =>
    intro m a x
    simp only [Memory.writeBytes, ih, Memory.read_write, List.length_cons]
    by_cases h1 : a + 1 ≤ x ∧ x < a + 1 + bs.length
    · have h2 : a ≤ x ∧ x < a + (bs.length + 1) := by omega
      have h3 : x - a = (x - (a + 1)) + 1 := by omega
      simp [h1, h2, h3]
    · by_cases h2 : x = a
      · subst h2; simp
      · have h3 : ¬ (a ≤ x ∧ x < a + (bs.length + 1)) := by omega
        rw [if_neg h1, if_neg h2, if_neg h3]

/-! ## The canonical form -/

theorem Memory.read_of_unlisted (m : Memory) (a : Nat) (h : ∀ c ∈ m, c.1 ≠ a) :
    Memory.read m a = Memory.blank := by
  induction m with
  | nil => rfl
  | cons c m ih =>
    obtain ⟨k, v⟩ := c
    have h1 : a ≠ k := fun e => h (k, v) (by simp) e.symm
    simp [Memory.read, h1, ih (fun c hc => h c (by simp [hc]))]

theorem Memory.wf_iff (m : Memory) :
    Memory.wf m = true ↔ m.Pairwise (fun x y => x.1 < y.1) ∧ ∀ c ∈ m, c.2 ≠ Memory.blank := by
  simp [Memory.wf]

theorem Memory.mem_put (m : Memory) (a : Nat) (b : Byte) (c : Host.Cell) (h : c ∈ Memory.put m a b) :
    c = (a, b) ∨ c ∈ m := by
  induction m with
  | nil => simpa [Memory.put] using h
  | cons d m ih =>
    obtain ⟨k, v⟩ := d
    simp only [Memory.put] at h
    split at h
    · simp only [List.mem_cons] at h ⊢; tauto
    · split at h
      · simp only [List.mem_cons] at h ⊢; tauto
      · simp only [List.mem_cons] at h ⊢
        rcases h with h | h
        · tauto
        · rcases ih h with h | h <;> tauto

theorem Memory.wf_put (m : Memory) (a : Nat) (b : Byte) (hb : b ≠ Memory.blank) (h : Memory.wf m = true) :
    Memory.wf (Memory.put m a b) = true := by
  rw [Memory.wf_iff] at h ⊢
  obtain ⟨h1, h2⟩ := h
  refine ⟨?_, fun c hc => ?_⟩
  · clear h2
    induction m with
    | nil => simp [Memory.put]
    | cons d m ih =>
      obtain ⟨k, v⟩ := d
      rw [List.pairwise_cons] at h1
      simp only [Memory.put]
      split
      · next hak =>
        refine List.pairwise_cons.2 ⟨fun c hc => ?_, List.pairwise_cons.2 h1⟩
        rcases List.mem_cons.1 hc with rfl | hc
        · exact hak
        · exact lt_trans hak (h1.1 c hc)
      · split
        · next hak => subst hak; exact List.pairwise_cons.2 h1
        · refine List.pairwise_cons.2 ⟨fun c hc => ?_, ih h1.2⟩
          rcases Memory.mem_put m a b c hc with rfl | hc
          · simp only; omega
          · exact h1.1 c hc
  · rcases Memory.mem_put m a b c hc with rfl | hc
    · exact hb
    · exact h2 c hc

/-- Every write keeps the canonical form. -/
theorem Memory.wf_write (m : Memory) (a : Nat) (b : Byte) (h : Memory.wf m = true) :
    Memory.wf (Memory.write m a b) = true := by
  unfold Memory.write
  split
  · rw [Memory.wf_iff] at h ⊢
    exact ⟨h.1.filter _, fun c hc => h.2 c (List.mem_of_mem_filter hc)⟩
  · next hb => exact Memory.wf_put m a b hb h

/-- Storing a run of bytes keeps the canonical form. -/
theorem Memory.wf_writeBytes (bs : List Byte) : ∀ (m : Memory) (a : Nat), Memory.wf m = true →
    Memory.wf (Memory.writeBytes m a bs) = true := by
  induction bs with
  | nil => exact fun m a h => h
  | cons b bs ih => exact fun m a h => ih _ _ (Memory.wf_write m a b h)

/-- Equal reads make equal memories: the canonical form is one form. -/
theorem Memory.eq_of_read_eq : ∀ (m m' : Memory), Memory.wf m = true → Memory.wf m' = true →
    (∀ a, Memory.read m a = Memory.read m' a) → m = m' := by
  have key : ∀ (k : Nat) (v : Byte) (m m' : Memory), Memory.wf ((k, v) :: m) = true → Memory.wf m' = true →
      (∀ a, Memory.read ((k, v) :: m) a = Memory.read m' a) →
      ∃ k' v' r, m' = (k', v') :: r ∧ k' ≤ k := by
    intro k v m m' h h' hr
    cases m' with
    | nil =>
      have := hr k
      rw [Memory.wf_iff] at h
      simp only [Memory.read, if_true] at this
      exact absurd this (h.2 (k, v) (by simp))
    | cons c r =>
      obtain ⟨k', v'⟩ := c
      refine ⟨k', v', r, rfl, ?_⟩
      by_contra hlt
      have h3 := hr k
      rw [Memory.wf_iff] at h h'
      rw [Memory.read_of_unlisted ((k', v') :: r) k] at h3
      · simp only [Memory.read, if_true] at h3
        exact h.2 (k, v) (by simp) h3
      · intro c hc
        rcases List.mem_cons.1 hc with rfl | hc
        · simp only; omega
        · have := (List.pairwise_cons.1 h'.1).1 c hc
          simp only at this
          omega
  intro m
  induction m with
  | nil =>
    intro m' _ h' hr
    cases m' with
    | nil => rfl
    | cons c r =>
      obtain ⟨k', v'⟩ := c
      have := hr k'
      rw [Memory.wf_iff] at h'
      simp only [Memory.read, if_true] at this
      exact absurd this.symm (h'.2 (k', v') (by simp))
  | cons c m ih =>
    intro m' h h' hr
    obtain ⟨k, v⟩ := c
    obtain ⟨k', v', r, rfl, hle⟩ := key k v m m' h h' hr
    obtain ⟨_, _, _, he, hle'⟩ := key k' v' r ((k, v) :: m) h' h (fun a => (hr a).symm)
    injection he with he1 he2
    injection he1 with he3 he4
    subst he3 he4 he2
    have hk : k = k' := le_antisymm hle' hle
    subst hk
    have hv : v = v' := by simpa [Memory.read] using hr k
    subst hv
    rw [Memory.wf_iff, List.pairwise_cons] at h h'
    congr 1
    refine ih r ((Memory.wf_iff _).2 ⟨h.1.2, fun c hc => h.2 c (by simp [hc])⟩)
      ((Memory.wf_iff _).2 ⟨h'.1.2, fun c hc => h'.2 c (by simp [hc])⟩) (fun a => ?_)
    by_cases ha : a = k
    · subst ha
      rw [Memory.read_of_unlisted m a, Memory.read_of_unlisted r a]
      · intro c hc e; exact absurd (h'.1.1 c hc) (by simp only; omega)
      · intro c hc e; exact absurd (h.1.1 c hc) (by simp only; omega)
    · simpa [Memory.read, ha] using hr a

theorem Memory.wf_empty : Memory.wf [] = true := by decide

@[simp] theorem Memory.length_bytes (m : Memory) (a n : Nat) : (Memory.bytes m a n).length = n := by
  simp [Memory.bytes]

@[simp] theorem Memory.getElem_bytes (m : Memory) (a n i : Nat) (h : i < (Memory.bytes m a n).length) :
    (Memory.bytes m a n)[i] = Memory.read m (a + i) := by
  simp [Memory.bytes]

end Sys2Proof.Machine
end

