-- ==== Sys2Proof/Laws/BitWriter.lean ====
section
/-! SUPPORT. The bit writer (R131 to R136): what `APPEND_RAW` does to each raw bit and each byte of its buffer, and what
`ENCODE` leaves there. -/

namespace Sys2Proof.Machine

-- One theorem at a time: elaborated all at once, this file's many small theorems wait on each
-- other in more threads than the memory limit has stacks for.
set_option Elab.async false

/-! ## Raw bits of a buffer -/

/-- Raw bit `i` of a buffer (R61). -/
def rawBit (m : Memory) (i : Nat) : Bool := (Memory.read m (i / 8)).getLsbD (7 - i % 8)

theorem byte_ext {a b : Byte} (h : ∀ k, k < 8 → a.getLsbD (7 - k) = b.getLsbD (7 - k)) : a = b := by
  apply BitVec.eq_of_getLsbD_eq
  intro i hi
  have := h (7 - i) (by omega)
  rwa [show 7 - (7 - i) = i by omega] at this

theorem rawBit_byte (m : Memory) (a k : Nat) (hk : k < 8) :
    rawBit m (8 * a + k) = (Memory.read m a).getLsbD (7 - k) := by
  rw [rawBit, show (8 * a + k) / 8 = a by omega, show (8 * a + k) % 8 = k by omega]

theorem getLsbD_setBit (v : Byte) (i k : Nat) (hk : k < 8) :
    (setBit v i).getLsbD k = (v.getLsbD k || decide (i = k)) := by
  rw [setBit, BitVec.getLsbD_or, BitVec.getLsbD_ofNat, Nat.testBit_two_pow]
  simp [hk]

theorem getLsbD_byteOfBits (bits : List Bool) (k : Nat) (hk : k < 8) :
    (byteOfBits bits).getLsbD (7 - k) = bits.getD k false := by
  have key : ∀ a b c d e f g h : Bool, ∀ k : Fin 8,
      (BitVec.ofNat 8 (2*(2*(2*(2*(2*(2*(2*(2*0+a.toNat)+b.toNat)+c.toNat)+d.toNat)+e.toNat)+f.toNat)+g.toNat)+h.toNat) :
        Byte).getLsbD (7 - k.val) = [a, b, c, d, e, f, g, h].getD k.val false := by decide +kernel
  have h1 := key (bits.getD 0 false) (bits.getD 1 false) (bits.getD 2 false) (bits.getD 3 false) (bits.getD 4 false)
    (bits.getD 5 false) (bits.getD 6 false) (bits.getD 7 false) ⟨k, hk⟩
  refine Eq.trans h1 ?_
  obtain rfl | rfl | rfl | rfl | rfl | rfl | rfl | rfl :
    k = 0 ∨ k = 1 ∨ k = 2 ∨ k = 3 ∨ k = 4 ∨ k = 5 ∨ k = 6 ∨ k = 7 := by omega
  all_goals rfl

/-! ## Packed bits -/

theorem length_packBits (bits : List Bool) : (packBits bits).length = (bits.length + 7) / 8 := by
  induction bits using packBits.induct with
  | case1 => rfl
  | case2 a b c d e f g h rest ih => simp only [packBits, List.length_cons, ih]; omega
  | case3 bits h1 h2 =>
    match bits, h1, h2 with
    | [], h1, _ => exact (h1 rfl).elim
    | [_], _, _ => simp [packBits]
    | [_, _], _, _ => simp [packBits]
    | [_, _, _], _, _ => simp [packBits]
    | [_, _, _, _], _, _ => simp [packBits]
    | [_, _, _, _, _], _, _ => simp [packBits]
    | [_, _, _, _, _, _], _, _ => simp [packBits]
    | [_, _, _, _, _, _, _], _, _ => simp [packBits]
    | a :: b :: c :: d :: e :: f :: g :: h :: rest, _, h2 => exact (h2 a b c d e f g h rest rfl).elim

/-- Raw bit `8 a + k` of a packed stream (R61, R98). -/
theorem getLsbD_packBits (bits : List Bool) : ∀ a k, k < 8 →
    ((packBits bits).getD a 0).getLsbD (7 - k) = bits.getD (8 * a + k) false := by
  induction bits using packBits.induct with
  | case1 => intro a k _; simp [packBits]
  | case2 x0 x1 x2 x3 x4 x5 x6 x7 rest ih =>
    intro a k hk
    cases a with
    | zero =>
      rw [packBits, List.getD_cons_zero, getLsbD_byteOfBits _ _ hk]
      obtain rfl | rfl | rfl | rfl | rfl | rfl | rfl | rfl :
        k = 0 ∨ k = 1 ∨ k = 2 ∨ k = 3 ∨ k = 4 ∨ k = 5 ∨ k = 6 ∨ k = 7 := by omega
      all_goals rfl
    | succ a =>
      rw [packBits, List.getD_cons_succ, ih a k hk, show 8 * (a + 1) + k = 8 * a + k + 8 by omega]
      rfl
  | case3 bits h1 h2 =>
    intro a k hk
    have hl : bits.length < 8 := by
      match bits, h2 with
      | [], _ => simp
      | [_], _ => simp
      | [_, _], _ => simp
      | [_, _, _], _ => simp
      | [_, _, _, _], _ => simp
      | [_, _, _, _, _], _ => simp
      | [_, _, _, _, _, _], _ => simp
      | [_, _, _, _, _, _, _], _ => simp
      | a :: b :: c :: d :: e :: f :: g :: h :: rest, h2 => exact (h2 a b c d e f g h rest rfl).elim
    rw [packBits.eq_3 _ h1 h2]
    cases a with
    | zero => rw [List.getD_cons_zero, getLsbD_byteOfBits _ _ hk, show 8 * 0 + k = k by omega]
    | succ a =>
      have h3 : bits.getD (8 * (a + 1) + k) false = false := by simp [show bits.length ≤ 8 * (a + 1) + k by omega]
      rw [h3]
      simp

/-! ## `APPEND_RAW` -/

/-- The unwritten bits of the byte being filled are 0 (R131: a fresh byte starts as all zero). -/
def BitWriter.tailClear (E : BitWriter) : Prop :=
  ∀ k, E.n % 8 ≤ k → k < 8 → E.n % 8 ≠ 0 → (Memory.read E.B (E.n / 8)).getLsbD (7 - k) = false

@[simp] theorem appendBit_n (E : BitWriter) (x : Bool) : (appendBit E x).n = E.n + 1 := rfl

/-- One appended bit, byte by byte. -/
theorem appendBit_read (E : BitWriter) (x : Bool) (a : Nat) :
    Memory.read (appendBit E x).B a =
      if a = E.n / 8 then
        (let v := if E.n % 8 = 0 then 0x00 else Memory.read E.B a
        if x then setBit v (7 - E.n % 8) else v)
      else Memory.read E.B a := by
  by_cases ha : a = E.n / 8
  · subst ha
    simp only [appendBit, if_true]
    split <;> split <;> simp
  · simp only [appendBit, ha, if_false]
    split <;> split <;> simp [Memory.read_write, ha]

theorem appendRaw_nil (E : BitWriter) : appendRaw E [] = E := rfl
theorem appendRaw_cons (E : BitWriter) (x : Bool) (xs : List Bool) :
    appendRaw E (x :: xs) = appendRaw (appendBit E x) xs := rfl
theorem appendRaw_append (E : BitWriter) (xs ys : List Bool) :
    appendRaw E (xs ++ ys) = appendRaw (appendRaw E xs) ys := by simp [appendRaw]

@[simp] theorem appendRaw_n (E : BitWriter) (bits : List Bool) : (appendRaw E bits).n = E.n + bits.length := by
  induction bits generalizing E with
  | nil => rfl
  | cons x xs ih => rw [appendRaw_cons, ih, appendBit_n, List.length_cons]; omega

theorem appendBit_tailClear (E : BitWriter) (x : Bool) (h : E.tailClear) : (appendBit E x).tailClear := by
  intro k hk hk8 h0
  rw [appendBit_n] at hk h0 ⊢
  have hq : (E.n + 1) / 8 = E.n / 8 := by omega
  have hr : (E.n + 1) % 8 = E.n % 8 + 1 := by omega
  rw [hq, appendBit_read, if_pos rfl]
  have hv : (if E.n % 8 = 0 then 0x00 else Memory.read E.B (E.n / 8)).getLsbD (7 - k) = false := by
    split
    · simp
    · next hn => exact h k (by omega) hk8 hn
  cases x
  · simpa using hv
  · simp only [if_true]
    rw [getLsbD_setBit _ _ _ (by omega), hv, Bool.false_or, decide_eq_false_iff_not]
    omega

theorem appendRaw_tailClear (bits : List Bool) : ∀ E : BitWriter, E.tailClear → (appendRaw E bits).tailClear := by
  induction bits with
  | nil => intro E h; exact h
  | cons x xs ih => intro E h; exact ih _ (appendBit_tailClear E x h)

/-- `APPEND_RAW`, byte by byte: bytes before and after the written stretch keep their value; in the stretch, bits already
there stay, the appended bits follow, and what is left of the last byte is 0 (R131). -/
theorem appendRaw_read_outside (bits : List Bool) : ∀ (E : BitWriter) (a : Nat),
    (a < E.n / 8 ∨ (E.n + bits.length + 7) / 8 ≤ a) → E.tailClear →
    Memory.read (appendRaw E bits).B a = Memory.read E.B a := by
  induction bits with
  | nil => intro E a _ _; rfl
  | cons x xs ih =>
    intro E a ha h
    rw [List.length_cons] at ha
    rw [appendRaw_cons, ih _ _ (by rw [appendBit_n]; omega) (appendBit_tailClear E x h), appendBit_read,
      if_neg (by omega)]

theorem appendBit_rawBit_old (E : BitWriter) (x : Bool) (i : Nat) (hi : i < E.n) :
    rawBit (appendBit E x).B i = rawBit E.B i := by
  rw [rawBit, rawBit, appendBit_read]
  by_cases ha : i / 8 = E.n / 8
  · rw [if_pos ha, if_neg (by omega : ¬ E.n % 8 = 0)]
    cases x
    · rfl
    · simp only [if_true]
      rw [getLsbD_setBit _ _ _ (by omega), decide_eq_false (by omega), Bool.or_false]
  · rw [if_neg ha]

theorem appendBit_rawBit_new (E : BitWriter) (x : Bool) (h : E.tailClear) : rawBit (appendBit E x).B E.n = x := by
  rw [rawBit, appendBit_read, if_pos rfl]
  have hv : (if E.n % 8 = 0 then 0x00 else Memory.read E.B (E.n / 8)).getLsbD (7 - E.n % 8) = false := by
    split
    · simp
    · next hn => exact h _ (Nat.le_refl _) (by omega) hn
  cases x
  · simpa using hv
  · simp only [if_true]
    rw [getLsbD_setBit _ _ _ (by omega)]
    simp

theorem appendRaw_rawBit_old (bits : List Bool) : ∀ (E : BitWriter) (i : Nat), i < E.n →
    rawBit (appendRaw E bits).B i = rawBit E.B i := by
  induction bits with
  | nil => intro E i _; rfl
  | cons x xs ih =>
    intro E i hi
    rw [appendRaw_cons, ih _ _ (by rw [appendBit_n]; omega), appendBit_rawBit_old E x i hi]

theorem appendRaw_rawBit_new (bits : List Bool) : ∀ (E : BitWriter) (j : Nat), E.tailClear → j < bits.length →
    rawBit (appendRaw E bits).B (E.n + j) = bits.getD j false := by
  induction bits with
  | nil => intro E j _ hj; simp at hj
  | cons x xs ih =>
    intro E j h hj
    rw [appendRaw_cons]
    cases j with
    | zero =>
      rw [appendRaw_rawBit_old _ _ _ (by rw [appendBit_n]; omega), Nat.add_zero, appendBit_rawBit_new E x h]
      rfl
    | succ j =>
      have := ih (appendBit E x) j (appendBit_tailClear E x h) (by simpa using hj)
      rw [appendBit_n] at this
      rw [show E.n + (j + 1) = E.n + 1 + j by omega, this]
      rfl

/-- Bits of the last byte that were never written are 0 (R131). -/
theorem appendRaw_rawBit_pad (bits : List Bool) (E : BitWriter) (i : Nat) (h : E.tailClear)
    (hi : E.n + bits.length ≤ i) (hb : i < 8 * ((E.n + bits.length + 7) / 8)) :
    rawBit (appendRaw E bits).B i = false := by
  have ht := appendRaw_tailClear bits E h (i % 8) (by rw [appendRaw_n]; omega) (by omega) (by rw [appendRaw_n]; omega)
  rw [appendRaw_n, show (E.n + bits.length) / 8 = i / 8 by omega] at ht
  exact ht

theorem tailClear_zero (B : Memory) : (⟨B, 0⟩ : BitWriter).tailClear := fun _ _ _ h => absurd rfl h

/-- From the start of a buffer, `APPEND_RAW` writes exactly the packed bytes (R61, R131). -/
theorem appendRaw_zero_read (B : Memory) (bits : List Bool) (a : Nat) :
    Memory.read (appendRaw ⟨B, 0⟩ bits).B a =
      if a < (packBits bits).length then (packBits bits).getD a 0 else Memory.read B a := by
  have hz := tailClear_zero B
  rw [length_packBits]
  split
  · next ha =>
    apply byte_ext
    intro k hk
    rw [getLsbD_packBits _ _ _ hk, ← rawBit_byte _ _ _ hk]
    by_cases hn : 8 * a + k < bits.length
    · have := appendRaw_rawBit_new bits ⟨B, 0⟩ (8 * a + k) hz hn
      simpa using this
    · rw [appendRaw_rawBit_pad bits ⟨B, 0⟩ (8 * a + k) hz (by simp only [Nat.zero_add]; omega)
        (by simp only [Nat.zero_add]; omega), List.getD_eq_default _ _ (by omega)]
  · next ha => exact appendRaw_read_outside bits ⟨B, 0⟩ a (Or.inr (by simp only [Nat.zero_add]; omega)) hz

/-- Every write of the bit writer keeps the canonical form. -/
theorem appendBit_wf (E : BitWriter) (x : Bool) (h : Memory.wf E.B = true) : Memory.wf (appendBit E x).B = true := by
  simp only [appendBit]
  split <;> split <;> simp [Memory.wf_write, h]

theorem appendRaw_wf (bits : List Bool) : ∀ E : BitWriter, Memory.wf E.B = true →
    Memory.wf (appendRaw E bits).B = true := by
  induction bits with
  | nil => intro E h; exact h
  | cons x xs ih => intro E h; exact ih _ (appendBit_wf E x h)

/-- A session ended by `FINISH` (R135): the packed bytes from byte 0, the terminator, the rest unchanged. -/
theorem finishFrame_read (B : Memory) (bits : List Bool) (a : Nat) :
    Memory.read (finishFrame (appendRaw ⟨B, 0⟩ bits)).1 a =
      if a < (packBits bits).length then (packBits bits).getD a 0
      else if a = (packBits bits).length then Config.terminator
      else Memory.read B a := by
  simp only [finishFrame, appendRaw_n, Nat.zero_add, ← length_packBits, Memory.read_write, appendRaw_zero_read]
  by_cases h : a = (packBits bits).length
  · simp [h]
  · simp [h]

/-- A finished session keeps the canonical form. -/
theorem finishFrame_wf (B : Memory) (bits : List Bool) (h : Memory.wf B = true) :
    Memory.wf (finishFrame (appendRaw ⟨B, 0⟩ bits)).1 = true := by
  simp only [finishFrame]
  exact Memory.wf_write _ _ _ (appendRaw_wf _ ⟨B, 0⟩ h)

/-! ## Units and frames -/

/-- `ENC_UNIT` appends the nine symbols of its byte (R133, R95). -/
theorem encUnit_eq (E : BitWriter) (b : Byte) : encUnit E b = appendRaw E (unitBits b (parity8 b)) := by
  have key : ∀ (l : List Bool) (E : BitWriter), l.foldl encBit E = appendRaw E (l.flatMap symbolBits) := by
    intro l
    induction l with
    | nil => intro E; rfl
    | cons v l ih => intro E; rw [List.foldl_cons, ih, List.flatMap_cons, appendRaw_append]; rfl
  rw [encUnit, key, encBit, unitBits, appendRaw_append]

theorem encPreamble_eq (E : BitWriter) : encPreamble E = appendRaw E preambleBits := by
  have h : preambleBits = [true, true, false, false, true, true, false, false]
      ++ [true, true, false, false, true, true, false, false] ++ [true, true, false, false, true, true, false, false]
      ++ [true, true, false, false, true, true, false, false] ++ [true, true, false, false, true, true, false, false]
      ++ [true, true, false, false, true, true, false, false] := by decide
  rw [h]
  simp only [appendRaw_append, encPreamble, Config.preambleLen, List.replicate, List.foldl_cons, List.foldl_nil]

/-- `ENCODE` is one `APPEND_RAW` of the frame's raw bits and `FINISH` (R136, R97). -/
theorem encodeInto_eq (c : Command) (B : Memory) :
    encodeInto c B = finishFrame (appendRaw ⟨B, 0⟩ (frameBits c (checksum c))) := by
  simp only [encodeInto, encPreamble_eq, encUnit_eq, encBit, frameBits, appendRaw_append]

/-- The bytes of the frame of `c`, without terminator (R97). -/
def framePacked (c : Command) : List Byte := packBits (frameBits c (checksum c))

/-- The answer of `ENCODE`: how many bytes the frame occupies (R135). -/
theorem encodeInto_len (c : Command) (B : Memory) : (encodeInto c B).2 = (framePacked c).length := by
  rw [encodeInto_eq, finishFrame, framePacked, length_packBits, appendRaw_n, Nat.zero_add]

/-- What `ENCODE` leaves in its buffer: the frame, the terminator, the rest unchanged (R67, R136). -/
theorem encodeInto_read (c : Command) (B : Memory) (a : Nat) :
    Memory.read (encodeInto c B).1 a =
      if a < (framePacked c).length then (framePacked c).getD a 0
      else if a = (framePacked c).length then Config.terminator
      else Memory.read B a := by
  rw [encodeInto_eq]
  exact finishFrame_read B _ a

theorem encodeInto_wf (c : Command) (B : Memory) (h : Memory.wf B = true) : Memory.wf (encodeInto c B).1 = true := by
  rw [encodeInto_eq]
  exact finishFrame_wf B _ h

end Sys2Proof.Machine
end

