-- ==== Sys2Proof/Laws/LineCode.lean ====
section
/-! SUPPORT. The pair view of the line code: what packing puts into a window (R61, R63), and what each reader of a decode
session does on well-formed symbols (R141 to R143). -/

namespace Sys2Proof.Machine

-- One theorem at a time: elaborated all at once, this file's many small theorems wait on each
-- other in more threads than the memory limit has stacks for.
set_option Elab.async false

/-! ## Windows as pairs -/

/-- The four pairs of a byte, pair 0 first (R11). -/
def bytePairs (b : Byte) : List Pair :=
  [b.extractLsb' 6 2, b.extractLsb' 4 2, b.extractLsb' 2 2, b.extractLsb' 0 2]

/-- All pairs of a window, in time order. -/
def windowPairs (W : List Byte) : List Pair := W.flatMap bytePairs

/-- A pair of raw bits. -/
def pairOf (a b : Bool) : Pair := BitVec.ofNat 2 (2 * a.toNat + b.toNat)

/-- Raw bits two at a time. -/
def pairsOf : List Bool → List Pair
  | a :: b :: rest => pairOf a b :: pairsOf rest
  | _ => []

/-- The pairs of one symbol (R91). -/
def symbolPairs : Bool → List Pair
  | false => [0b11, 0b00]
  | true => [0b11, 0b10, 0b00]

/-- The pairs of a unit (R95). -/
def unitPairs (b : Byte) (p : Bool) : List Pair := (byteBits b).flatMap symbolPairs ++ symbolPairs p

@[simp] theorem length_windowPairs (W : List Byte) : (windowPairs W).length = 4 * W.length := by
  induction W with
  | nil => rfl
  | cons b W ih => simp only [windowPairs, List.flatMap_cons, List.length_append] at ih ⊢; simp [ih, bytePairs]; omega

@[simp] theorem windowPairs_append (V W : List Byte) : windowPairs (V ++ W) = windowPairs V ++ windowPairs W := by
  simp [windowPairs]

/-- `pair(W, j)` is entry `j` of the window's pairs (R14). -/
theorem pairAt_eq (W : List Byte) : ∀ j, pairAt W j = (windowPairs W)[j]? := by
  induction W with
  | nil => intro j; simp [pairAt, windowPairs]
  | cons b W ih =>
    intro j
    have hcons : windowPairs (b :: W) = bytePairs b ++ windowPairs W := by simp [windowPairs]
    by_cases h : j < 4
    · rw [hcons, List.getElem?_append_left (by simpa [bytePairs] using h)]
      have h0 : j / 4 = 0 := by omega
      rw [pairAt, h0]
      obtain rfl | rfl | rfl | rfl : j = 0 ∨ j = 1 ∨ j = 2 ∨ j = 3 := by omega
      all_goals rfl
    · rw [hcons, List.getElem?_append_right (by simp [bytePairs]; omega)]
      have h1 : j / 4 = (j - 4) / 4 + 1 := by omega
      have h2 : j % 4 = (j - 4) % 4 := by omega
      have h3 : (bytePairs b).length = 4 := rfl
      rw [h3, ← ih (j - 4), pairAt, pairAt, h1, h2]
      rfl

theorem bytePairs_byteOfBits (a b c d e f g h : Bool) :
    bytePairs (byteOfBits [a, b, c, d, e, f, g, h]) = [pairOf a b, pairOf c d, pairOf e f, pairOf g h] := by
  revert a b c d e f g h; decide

/-- Packing an even number of raw bits keeps their pairs; what follows in the last byte is zero (R61, R63, R98). -/
theorem windowPairs_packBits (bits : List Bool) (he : bits.length % 2 = 0) :
    ∃ k, windowPairs (packBits bits) = pairsOf bits ++ List.replicate k 0 := by
  induction bits using packBits.induct with
  | case1 => exact ⟨0, rfl⟩
  | case2 a b c d e f g h rest ih =>
    obtain ⟨k, hk⟩ := ih (by simp only [List.length_cons] at he; omega)
    refine ⟨k, ?_⟩
    rw [packBits, windowPairs, List.flatMap_cons, ← windowPairs, hk, bytePairs_byteOfBits]
    rfl
  | case3 bits h1 h2 =>
    match bits, h1, h2, he with
    | [a, b], _, _, _ => exact ⟨3, tail2 a b⟩
    | [a, b, c, d], _, _, _ => exact ⟨2, tail4 a b c d⟩
    | [a, b, c, d, e, f], _, _, _ => exact ⟨1, tail6 a b c d e f⟩
    | [_], _, _, he => simp at he
    | [_, _, _], _, _, he => simp at he
    | [_, _, _, _, _], _, _, he => simp at he
    | [_, _, _, _, _, _, _], _, _, he => simp at he
    | a :: b :: c :: d :: e :: f :: g :: h :: rest, _, h2, _ => exact (h2 a b c d e f g h rest rfl).elim
where
  tail2 (a b : Bool) : windowPairs (packBits [a, b]) = pairsOf [a, b] ++ List.replicate 3 0 := by
    revert a b; decide
  tail4 (a b c d : Bool) : windowPairs (packBits [a, b, c, d]) = pairsOf [a, b, c, d] ++ List.replicate 2 0 := by
    revert a b c d; decide
  tail6 (a b c d e f : Bool) :
      windowPairs (packBits [a, b, c, d, e, f]) = pairsOf [a, b, c, d, e, f] ++ List.replicate 1 0 := by
    revert a b c d e f; decide

theorem pairsOf_append (xs : List Bool) : ∀ ys, xs.length % 2 = 0 → pairsOf (xs ++ ys) = pairsOf xs ++ pairsOf ys := by
  induction xs using pairsOf.induct with
  | case1 a b rest ih =>
    intro ys h
    simp only [List.cons_append, pairsOf, ih ys (by simp only [List.length_cons] at h; omega)]
  | case2 xs h1 =>
    intro ys h
    match xs, h1, h with
    | [], _, _ => rfl
    | a :: b :: rest, h1, _ => exact (h1 a b rest rfl).elim

@[simp] theorem pairsOf_symbolBits (v : Bool) : pairsOf (symbolBits v) = symbolPairs v := by cases v <;> rfl

theorem length_symbolBits_even (v : Bool) : (symbolBits v).length % 2 = 0 := by cases v <;> rfl

theorem length_flatMap_symbolBits_even (l : List Bool) : (l.flatMap symbolBits).length % 2 = 0 := by
  induction l with
  | nil => rfl
  | cons v l ih =>
    have := length_symbolBits_even v
    simp only [List.flatMap_cons, List.length_append]
    omega

/-- The raw bits of a sequence of symbols, as pairs. -/
theorem pairsOf_flatMap_symbolBits (l : List Bool) : pairsOf (l.flatMap symbolBits) = l.flatMap symbolPairs := by
  induction l with
  | nil => rfl
  | cons v l ih =>
    rw [List.flatMap_cons, List.flatMap_cons, pairsOf_append _ _ (length_symbolBits_even v), ih, pairsOf_symbolBits]

theorem unitBits_eq_flatMap (b : Byte) (p : Bool) : unitBits b p = (byteBits b ++ [p]).flatMap symbolBits := by
  simp [unitBits, List.flatMap_append]

theorem unitPairs_eq_flatMap (b : Byte) (p : Bool) : unitPairs b p = (byteBits b ++ [p]).flatMap symbolPairs := by
  simp [unitPairs, List.flatMap_append]

/-- The logical bits of a frame: twelve zeros, the start bit, six units, two trailer zeros (R97). -/
def frameLogical (c : Command) (chk : Byte) : List Bool :=
  List.replicate 12 false ++ [true]
    ++ (byteBits c.hc1 ++ [parity8 c.hc1]) ++ (byteBits c.hc2 ++ [parity8 c.hc2])
    ++ (byteBits c.address ++ [parity8 c.address]) ++ (byteBits c.command ++ [parity8 c.command])
    ++ (byteBits c.extension ++ [parity8 c.extension]) ++ (byteBits chk ++ [parity8 chk]) ++ [false] ++ [false]

/-- A frame's raw bits are the symbols of its logical bits (R94: no inter-symbol state). -/
theorem frameBits_eq_flatMap (c : Command) (chk : Byte) : frameBits c chk = (frameLogical c chk).flatMap symbolBits := by
  simp only [frameBits, frameLogical, unitBits_eq_flatMap, preambleBits, List.flatMap_append, List.flatMap_singleton]

/-! ## Readers on well-formed symbols -/

/-- What is left to read in a session, as pairs. -/
def pairsLeft (D : DecSession) : List Pair := (windowPairs D.W).drop D.j

theorem nextPair_cons {D : DecSession} {p : Pair} {r : List Pair} (hf : D.failed = false)
    (h : pairsLeft D = p :: r) : nextPair D = (p, { D with j := D.j + 1 }) := by
  have h1 : (windowPairs D.W)[D.j]? = some p := by
    rw [pairsLeft] at h
    rw [← List.head?_drop, h]; rfl
  simp [nextPair, hf, pairAt_eq, h1]

theorem nextPair_nil {D : DecSession} (hf : D.failed = false) (h : pairsLeft D = []) :
    nextPair D = (0, failWith D .exhausted) := by
  have h1 : (windowPairs D.W)[D.j]? = none := by
    rw [pairsLeft] at h
    rw [← List.head?_drop, h]; rfl
  simp [nextPair, hf, pairAt_eq, h1]

theorem pairsLeft_advance {D : DecSession} {ps r : List Pair} (h : pairsLeft D = ps ++ r) :
    pairsLeft { D with j := D.j + ps.length } = r := by
  have h' : List.drop D.j (windowPairs D.W) = ps ++ r := h
  show List.drop (D.j + ps.length) (windowPairs D.W) = r
  rw [← List.drop_drop, h', List.drop_left]

/-- `DEC_BIT` on a symbol: its logical bit, and past its pairs (R141). -/
theorem decBit_symbol {D : DecSession} {v : Bool} {r : List Pair} (hf : D.failed = false)
    (h : pairsLeft D = symbolPairs v ++ r) :
    decBit D = (v, { D with j := D.j + (symbolPairs v).length }) := by
  obtain ⟨W, j, f, k⟩ := D
  subst hf
  cases v with
  | false =>
    have h1 := nextPair_cons (p := 0b11) (r := 0b00 :: r) rfl h
    have h2 := nextPair_cons (D := ⟨W, j + 1, false, k⟩) (p := 0b00) (r := r) rfl (pairsLeft_advance (ps := [0b11]) h)
    simp [decBit, h1, h2, symbolPairs]
  | true =>
    have h1 := nextPair_cons (p := 0b11) (r := 0b10 :: 0b00 :: r) rfl h
    have h2 := nextPair_cons (D := ⟨W, j + 1, false, k⟩) (p := 0b10) (r := 0b00 :: r) rfl
      (pairsLeft_advance (ps := [0b11]) h)
    have h3 := nextPair_cons (D := ⟨W, j + 1 + 1, false, k⟩) (p := 0b00) (r := r) rfl
      (pairsLeft_advance (ps := [0b11, 0b10]) h)
    simp [decBit, h1, h2, h3, symbolPairs]

/-- The data-bit loop of `DEC_UNIT` on a run of symbols (R142). -/
theorem decBits_symbols (l : List Bool) : ∀ (v : Byte) (x : Bool) (D : DecSession) (r : List Pair), D.failed = false →
    pairsLeft D = l.flatMap symbolPairs ++ r →
    decBits l.length v x D =
      (l.foldl (fun (v : Byte) b => (v <<< 1) ||| BitVec.ofNat 8 b.toNat) v, l.foldl xor x,
        { D with j := D.j + (l.flatMap symbolPairs).length }) := by
  induction l with
  | nil => intro v x D r hf h; simp [decBits]
  | cons b l ih =>
    intro v x D r hf h
    rw [List.flatMap_cons, List.append_assoc] at h
    have h1 := decBit_symbol hf h
    have h2 := ih ((v <<< 1) ||| BitVec.ofNat 8 b.toNat) (xor x b)
      { D with j := D.j + (symbolPairs b).length } r hf (pairsLeft_advance h)
    simp only [List.length_cons, decBits, h1, h2, List.foldl_cons, List.flatMap_cons, List.length_append, Nat.add_assoc]

theorem foldl_byteBits (b : Byte) :
    (byteBits b).foldl (fun (v : Byte) x => (v <<< 1) ||| BitVec.ofNat 8 x.toNat) 0 = b := by
  revert b; decide +kernel

/-- `DEC_UNIT` on the unit of `b` with parity bit `p` (R142). -/
theorem decUnit_unit {D : DecSession} {b : Byte} {p : Bool} {r : List Pair} (hf : D.failed = false)
    (h : pairsLeft D = unitPairs b p ++ r) :
    decUnit D =
      if p = parity8 b then (b, { D with j := D.j + (unitPairs b p).length })
      else (0, failWith { D with j := D.j + (unitPairs b p).length } .parity) := by
  obtain ⟨W, j, f, k⟩ := D
  subst hf
  rw [unitPairs, List.append_assoc] at h
  have h8 : (byteBits b).length = 8 := rfl
  have h1 := decBits_symbols (byteBits b) 0 false ⟨W, j, false, k⟩ (symbolPairs p ++ r) rfl h
  rw [h8, foldl_byteBits] at h1
  have h2 := decBit_symbol (D := ⟨W, j + ((byteBits b).flatMap symbolPairs).length, false, k⟩)
    (v := p) (r := r) rfl (pairsLeft_advance h)
  have h3 : (byteBits b).foldl xor false = parity8 b := rfl
  rw [unitPairs, List.length_append, ← Nat.add_assoc]
  simp only [decUnit, h1, h2, h3, Bool.false_eq_true, if_false]
  cases p <;> cases parity8 b <;> simp

/-- `FIND_START` on leading zeros and a start bit: it stops behind the start bit (R143). -/
theorem findStartLoop_symbols (n : Nat) : ∀ (fuel : Nat) (D : DecSession) (r : List Pair), n < fuel → D.failed = false →
    pairsLeft D = (List.replicate n false).flatMap symbolPairs ++ symbolPairs true ++ r →
    findStartLoop fuel D = { D with j := D.j + (2 * n + 3) } := by
  induction n with
  | zero =>
    intro fuel D r hlt hf h
    obtain ⟨fuel, rfl⟩ : ∃ k, fuel = k + 1 := ⟨fuel - 1, by omega⟩
    have h1 := decBit_symbol (v := true) (r := r) hf (by simpa using h)
    rw [findStartLoop, h1]
    simp [hf, symbolPairs]
  | succ n ih =>
    intro fuel D r hlt hf h
    obtain ⟨fuel, rfl⟩ : ∃ k, fuel = k + 1 := ⟨fuel - 1, by omega⟩
    rw [List.replicate_succ, List.flatMap_cons, List.append_assoc, List.append_assoc] at h
    have h1 := decBit_symbol (v := false) hf h
    have h2 := ih fuel { D with j := D.j + (symbolPairs false).length } r (by omega) hf
      (by rw [pairsLeft_advance h, List.append_assoc])
    have h3 : D.j + (symbolPairs false).length + (2 * n + 3) = D.j + (2 * (n + 1) + 3) := by
      simp only [symbolPairs, List.length_cons, List.length_nil]; omega
    rw [h3] at h2
    rw [findStartLoop, h1]
    simpa [hf] using h2

/-- A unit with its even parity reads back as its byte (R142). -/
theorem decUnit_good {D : DecSession} {b : Byte} {r : List Pair} (hf : D.failed = false)
    (h : pairsLeft D = unitPairs b (parity8 b) ++ r) :
    decUnit D = (b, { D with j := D.j + (unitPairs b (parity8 b)).length }) := by
  rw [decUnit_unit hf h, if_pos rfl]

/-- The pairs of a frame with `n` leading zeros, up to and with its last unit (R97, R145). -/
def bodyPairs (n : Nat) (c : Command) (chk : Byte) : List Pair :=
  (List.replicate n false).flatMap symbolPairs ++ symbolPairs true
    ++ unitPairs c.hc1 (parity8 c.hc1) ++ unitPairs c.hc2 (parity8 c.hc2) ++ unitPairs c.address (parity8 c.address)
    ++ unitPairs c.command (parity8 c.command) ++ unitPairs c.extension (parity8 c.extension)
    ++ unitPairs chk (parity8 chk)

/-- The start search and the six units, read from a well-formed frame with any number of leading zeros
(R143, R145, R151). -/
theorem decBody_frame {W : List Byte} {n : Nat} {c : Command} {chk : Byte} {r : List Pair}
    (h : windowPairs W = bodyPairs n c chk ++ r) :
    decBody (newSession W) = (c, chk, { newSession W with j := (bodyPairs n c chk).length }) := by
  obtain ⟨hc1, hc2, adr, cmd, ext⟩ := c
  have hlen : 2 * n < 4 * W.length + 1 := by
    have h0 := congrArg List.length h
    have h1 : ((List.replicate n false).flatMap symbolPairs).length = 2 * n := by
      induction n with
      | zero => rfl
      | succ n _ => simp [symbolPairs]; omega
    simp only [length_windowPairs, bodyPairs, List.length_append, h1] at h0
    omega
  simp only [bodyPairs, List.append_assoc] at h
  have s0 := findStartLoop_symbols n (4 * W.length + 1) (newSession W) _ (by omega) rfl
    (show pairsLeft (newSession W) = _ by rw [pairsLeft, List.append_assoc]; exact h)
  have l0 : ((List.replicate n false).flatMap symbolPairs ++ symbolPairs true).length = 2 * n + 3 := by
    simp [symbolPairs]; omega
  have q0 := pairsLeft_advance (D := newSession W) (ps := (List.replicate n false).flatMap symbolPairs ++ symbolPairs true)
    (show pairsLeft (newSession W) = _ by rw [pairsLeft, List.append_assoc]; exact h)
  rw [l0] at q0
  have u1 := decUnit_good (b := hc1) rfl q0
  have q1 := pairsLeft_advance q0
  have u2 := decUnit_good (b := hc2) rfl q1
  have q2 := pairsLeft_advance q1
  have u3 := decUnit_good (b := adr) rfl q2
  have q3 := pairsLeft_advance q2
  have u4 := decUnit_good (b := cmd) rfl q3
  have q4 := pairsLeft_advance q3
  have u5 := decUnit_good (b := ext) rfl q4
  have q5 := pairsLeft_advance q4
  have u6 := decUnit_good (b := chk) rfl q5
  have f0 : findStart (newSession W) = { newSession W with j := (newSession W).j + (2 * n + 3) } := s0
  simp only [decBody, f0, u1, u2, u3, u4, u5, u6]
  simp only [bodyPairs, List.length_append, ← l0, newSession, Nat.zero_add]

/-- The trailer check on an encoded 0 (R145, step 4). -/
theorem checkTrailer_zero {D : DecSession} {r : List Pair} (hf : D.failed = false)
    (h : pairsLeft D = symbolPairs false ++ r) : checkTrailer D = { D with j := D.j + 2 } := by
  rw [checkTrailer, decBit_symbol hf h]
  simp [symbolPairs]

/-- `DECODE` of a window that holds a frame of `c` and then its first trailer symbol (R145, R147, R151). -/
theorem decodeWindow_frame {W : List Byte} {n : Nat} {c : Command} {r : List Pair}
    (h : windowPairs W = bodyPairs n c (checksum c) ++ (symbolPairs false ++ r)) :
    decodeWindow W = (c, { newSession W with j := (bodyPairs n c (checksum c)).length + 2 }) := by
  have hq : pairsLeft ⟨W, (bodyPairs n c (checksum c)).length, false, .none⟩ = symbolPairs false ++ r := by
    have := pairsLeft_advance (D := newSession W) (ps := bodyPairs n c (checksum c)) h
    simpa [newSession] using this
  have ht := checkTrailer_zero rfl hq
  rw [decodeWindow, decBody_frame h]
  simpa [checkChecksum, newSession] using ht

/-- The pairs of a built frame: body, two trailer zeros, padding, whatever follows (R97, R67). -/
theorem windowPairs_frame (c : Command) (chk : Byte) (tail : List Byte) :
    ∃ r, windowPairs (packBits (frameBits c chk) ++ tail) = bodyPairs 12 c chk ++ (symbolPairs false ++ r) := by
  obtain ⟨k, hk⟩ := windowPairs_packBits (frameBits c chk)
    (by rw [frameBits_eq_flatMap]; exact length_flatMap_symbolBits_even _)
  rw [windowPairs_append, hk, frameBits_eq_flatMap, pairsOf_flatMap_symbolBits]
  refine ⟨symbolPairs false ++ (List.replicate k 0 ++ windowPairs tail), ?_⟩
  simp only [frameLogical, bodyPairs, unitPairs_eq_flatMap, List.flatMap_append, List.flatMap_singleton,
    List.append_assoc]

/-! ## A failed session reads nothing more (R139) -/

@[simp] theorem nextPair_failed {D : DecSession} (h : D.failed = true) : nextPair D = (0, D) := by simp [nextPair, h]
@[simp] theorem decBit_failed {D : DecSession} (h : D.failed = true) : decBit D = (false, D) := by simp [decBit, h]
@[simp] theorem decUnit_failed {D : DecSession} (h : D.failed = true) : decUnit D = (0, D) := by simp [decUnit, h]

theorem findStart_failed {D : DecSession} (h : D.failed = true) : findStart D = D := by
  simp [findStart, findStartLoop, h]

theorem checkTrailer_failed {D : DecSession} (h : D.failed = true) : checkTrailer D = D := by
  simp [checkTrailer, h]

theorem checkChecksum_failed {c : Command} {chk : Byte} {D : DecSession} (h : D.failed = true) :
    checkChecksum c chk D = D := by
  simp [checkChecksum, h]

/-- Once failed, the rest of a decode changes nothing: the first cause is the one reported (R139, R148). -/
theorem failWith_failed {D : DecSession} {k : Cause} (h : D.failed = true) : failWith D k = D := by
  simp [failWith, h]

end Sys2Proof.Machine
end

