-- ==== Sys2Proof/Laws/State.lean ====
section
/-! SUPPORT. What each record update of the shared operations does to each field, so that no proof unfolds an update. -/

namespace Sys2Proof.Machine

-- One theorem at a time: elaborated all at once, this file's many small theorems wait on each
-- other in more threads than the memory limit has stacks for.
set_option Elab.async false

section UpdateLemmas

variable (s : State)

/-! `respond`: the answer port only. -/

section
variable (a : Answer)
@[simp] theorem respond_params : (respond s a).params = s.params := rfl
@[simp] theorem respond_sync : (respond s a).sync = s.sync := rfl
@[simp] theorem respond_slot : (respond s a).slot = s.slot := rfl
@[simp] theorem respond_gap : (respond s a).gap = s.gap := rfl
@[simp] theorem respond_more : (respond s a).more = s.more := rfl
@[simp] theorem respond_localEnabled : (respond s a).localEnabled = s.localEnabled := rfl
@[simp] theorem respond_openBelief : (respond s a).openBelief = s.openBelief := rfl
@[simp] theorem respond_logPPV : (respond s a).logPPV = s.logPPV := rfl
@[simp] theorem respond_txbuf : (respond s a).txbuf = s.txbuf := rfl
@[simp] theorem respond_hubEnabled : (respond s a).hubEnabled = s.hubEnabled := rfl
@[simp] theorem respond_rxbuf : (respond s a).rxbuf = s.rxbuf := rfl
@[simp] theorem respond_latch : (respond s a).latch = s.latch := rfl
@[simp] theorem respond_acl : (respond s a).acl = s.acl := rfl
@[simp] theorem respond_logRadioFault : (respond s a).logRadioFault = s.logRadioFault := rfl
@[simp] theorem respond_radioMode : (respond s a).radioMode = s.radioMode := rfl
@[simp] theorem respond_trace : (respond s a).trace = s.trace := rfl
@[simp] theorem respond_callerBuf : (respond s a).callerBuf = s.callerBuf := rfl
@[simp] theorem respond_inbox : (respond s a).inbox = s.inbox := rfl
@[simp] theorem respond_answer : (respond s a).answer = a := rfl
@[simp] theorem respond_env : (respond s a).env = s.env := rfl
@[simp] theorem respond_failedDecodes : (respond s a).failedDecodes = s.failedDecodes := rfl
end

/-! `emitEvent`: the trace only. -/

section
variable (e : Event)
@[simp] theorem emitEvent_params : (emitEvent s e).params = s.params := rfl
@[simp] theorem emitEvent_sync : (emitEvent s e).sync = s.sync := rfl
@[simp] theorem emitEvent_slot : (emitEvent s e).slot = s.slot := rfl
@[simp] theorem emitEvent_gap : (emitEvent s e).gap = s.gap := rfl
@[simp] theorem emitEvent_more : (emitEvent s e).more = s.more := rfl
@[simp] theorem emitEvent_localEnabled : (emitEvent s e).localEnabled = s.localEnabled := rfl
@[simp] theorem emitEvent_openBelief : (emitEvent s e).openBelief = s.openBelief := rfl
@[simp] theorem emitEvent_logPPV : (emitEvent s e).logPPV = s.logPPV := rfl
@[simp] theorem emitEvent_txbuf : (emitEvent s e).txbuf = s.txbuf := rfl
@[simp] theorem emitEvent_hubEnabled : (emitEvent s e).hubEnabled = s.hubEnabled := rfl
@[simp] theorem emitEvent_rxbuf : (emitEvent s e).rxbuf = s.rxbuf := rfl
@[simp] theorem emitEvent_latch : (emitEvent s e).latch = s.latch := rfl
@[simp] theorem emitEvent_acl : (emitEvent s e).acl = s.acl := rfl
@[simp] theorem emitEvent_logRadioFault : (emitEvent s e).logRadioFault = s.logRadioFault := rfl
@[simp] theorem emitEvent_radioMode : (emitEvent s e).radioMode = s.radioMode := rfl
@[simp] theorem emitEvent_trace : (emitEvent s e).trace = s.trace ++ [e] := rfl
@[simp] theorem emitEvent_callerBuf : (emitEvent s e).callerBuf = s.callerBuf := rfl
@[simp] theorem emitEvent_inbox : (emitEvent s e).inbox = s.inbox := rfl
@[simp] theorem emitEvent_answer : (emitEvent s e).answer = s.answer := rfl
@[simp] theorem emitEvent_env : (emitEvent s e).env = s.env := rfl
@[simp] theorem emitEvent_failedDecodes : (emitEvent s e).failedDecodes = s.failedDecodes := rfl
end

/-! `issueRequest`: the inbox only. -/

section
variable (r : Request)
@[simp] theorem issueRequest_params : (issueRequest s r).params = s.params := rfl
@[simp] theorem issueRequest_sync : (issueRequest s r).sync = s.sync := rfl
@[simp] theorem issueRequest_slot : (issueRequest s r).slot = s.slot := rfl
@[simp] theorem issueRequest_gap : (issueRequest s r).gap = s.gap := rfl
@[simp] theorem issueRequest_more : (issueRequest s r).more = s.more := rfl
@[simp] theorem issueRequest_localEnabled : (issueRequest s r).localEnabled = s.localEnabled := rfl
@[simp] theorem issueRequest_openBelief : (issueRequest s r).openBelief = s.openBelief := rfl
@[simp] theorem issueRequest_logPPV : (issueRequest s r).logPPV = s.logPPV := rfl
@[simp] theorem issueRequest_txbuf : (issueRequest s r).txbuf = s.txbuf := rfl
@[simp] theorem issueRequest_hubEnabled : (issueRequest s r).hubEnabled = s.hubEnabled := rfl
@[simp] theorem issueRequest_rxbuf : (issueRequest s r).rxbuf = s.rxbuf := rfl
@[simp] theorem issueRequest_latch : (issueRequest s r).latch = s.latch := rfl
@[simp] theorem issueRequest_acl : (issueRequest s r).acl = s.acl := rfl
@[simp] theorem issueRequest_logRadioFault : (issueRequest s r).logRadioFault = s.logRadioFault := rfl
@[simp] theorem issueRequest_radioMode : (issueRequest s r).radioMode = s.radioMode := rfl
@[simp] theorem issueRequest_trace : (issueRequest s r).trace = s.trace := rfl
@[simp] theorem issueRequest_callerBuf : (issueRequest s r).callerBuf = s.callerBuf := rfl
@[simp] theorem issueRequest_inbox : (issueRequest s r).inbox = r :: s.inbox := rfl
@[simp] theorem issueRequest_answer : (issueRequest s r).answer = s.answer := rfl
@[simp] theorem issueRequest_env : (issueRequest s r).env = s.env := rfl
@[simp] theorem issueRequest_failedDecodes : (issueRequest s r).failedDecodes = s.failedDecodes := rfl
end

/-! `setStandby`. -/

@[simp] theorem setStandby_params : (setStandby s).params = s.params := rfl
@[simp] theorem setStandby_sync : (setStandby s).sync = s.sync := rfl
@[simp] theorem setStandby_slot : (setStandby s).slot = s.slot := rfl
@[simp] theorem setStandby_gap : (setStandby s).gap = s.gap := rfl
@[simp] theorem setStandby_more : (setStandby s).more = s.more := rfl
@[simp] theorem setStandby_localEnabled : (setStandby s).localEnabled = s.localEnabled := rfl
@[simp] theorem setStandby_openBelief : (setStandby s).openBelief = s.openBelief := rfl
@[simp] theorem setStandby_logPPV : (setStandby s).logPPV = s.logPPV := rfl
@[simp] theorem setStandby_txbuf : (setStandby s).txbuf = s.txbuf := rfl
@[simp] theorem setStandby_hubEnabled : (setStandby s).hubEnabled = s.hubEnabled := rfl
@[simp] theorem setStandby_rxbuf : (setStandby s).rxbuf = s.rxbuf := rfl
@[simp] theorem setStandby_latch : (setStandby s).latch = s.latch := rfl
@[simp] theorem setStandby_acl : (setStandby s).acl = s.acl := rfl
@[simp] theorem setStandby_logRadioFault : (setStandby s).logRadioFault = s.logRadioFault := rfl
@[simp] theorem setStandby_radioMode : (setStandby s).radioMode = .standby := rfl
@[simp] theorem setStandby_trace : (setStandby s).trace = s.trace ++ [.setStandby] := rfl
@[simp] theorem setStandby_callerBuf : (setStandby s).callerBuf = s.callerBuf := rfl
@[simp] theorem setStandby_inbox : (setStandby s).inbox = s.inbox := rfl
@[simp] theorem setStandby_answer : (setStandby s).answer = s.answer := rfl
@[simp] theorem setStandby_env : (setStandby s).env = s.env := rfl
@[simp] theorem setStandby_failedDecodes : (setStandby s).failedDecodes = s.failedDecodes := rfl

/-! `setReceive`. -/

@[simp] theorem setReceive_params : (setReceive s).params = s.params := rfl
@[simp] theorem setReceive_sync : (setReceive s).sync = s.sync := rfl
@[simp] theorem setReceive_slot : (setReceive s).slot = s.slot := rfl
@[simp] theorem setReceive_gap : (setReceive s).gap = s.gap := rfl
@[simp] theorem setReceive_more : (setReceive s).more = s.more := rfl
@[simp] theorem setReceive_localEnabled : (setReceive s).localEnabled = s.localEnabled := rfl
@[simp] theorem setReceive_openBelief : (setReceive s).openBelief = s.openBelief := rfl
@[simp] theorem setReceive_logPPV : (setReceive s).logPPV = s.logPPV := rfl
@[simp] theorem setReceive_txbuf : (setReceive s).txbuf = s.txbuf := rfl
@[simp] theorem setReceive_hubEnabled : (setReceive s).hubEnabled = s.hubEnabled := rfl
@[simp] theorem setReceive_rxbuf : (setReceive s).rxbuf = s.rxbuf := rfl
@[simp] theorem setReceive_latch : (setReceive s).latch = s.latch := rfl
@[simp] theorem setReceive_acl : (setReceive s).acl = s.acl := rfl
@[simp] theorem setReceive_logRadioFault : (setReceive s).logRadioFault = s.logRadioFault := rfl
@[simp] theorem setReceive_radioMode : (setReceive s).radioMode = .receive := rfl
@[simp] theorem setReceive_trace : (setReceive s).trace = s.trace ++ [.setReceive Config.rxMaxFrameLen Config.rxLeadingFilter] := rfl
@[simp] theorem setReceive_callerBuf : (setReceive s).callerBuf = s.callerBuf := rfl
@[simp] theorem setReceive_inbox : (setReceive s).inbox = s.inbox := rfl
@[simp] theorem setReceive_answer : (setReceive s).answer = s.answer := rfl
@[simp] theorem setReceive_env : (setReceive s).env = s.env := rfl
@[simp] theorem setReceive_failedDecodes : (setReceive s).failedDecodes = s.failedDecodes := rfl

/-! `RX_RESET`. -/

@[simp] theorem rxReset_params : (rxReset s).params = s.params := rfl
@[simp] theorem rxReset_sync : (rxReset s).sync = s.sync := rfl
@[simp] theorem rxReset_slot : (rxReset s).slot = s.slot := rfl
@[simp] theorem rxReset_gap : (rxReset s).gap = s.gap := rfl
@[simp] theorem rxReset_more : (rxReset s).more = s.more := rfl
@[simp] theorem rxReset_localEnabled : (rxReset s).localEnabled = s.localEnabled := rfl
@[simp] theorem rxReset_openBelief : (rxReset s).openBelief = s.openBelief := rfl
@[simp] theorem rxReset_logPPV : (rxReset s).logPPV = s.logPPV := rfl
@[simp] theorem rxReset_txbuf : (rxReset s).txbuf = s.txbuf := rfl
@[simp] theorem rxReset_hubEnabled : (rxReset s).hubEnabled = s.hubEnabled := rfl
@[simp] theorem rxReset_rxbuf : (rxReset s).rxbuf = s.rxbuf := rfl
@[simp] theorem rxReset_latch : (rxReset s).latch = s.latch := rfl
@[simp] theorem rxReset_acl : (rxReset s).acl = s.acl := rfl
@[simp] theorem rxReset_logRadioFault : (rxReset s).logRadioFault = s.logRadioFault := rfl
@[simp] theorem rxReset_radioMode : (rxReset s).radioMode = .receive := rfl
@[simp] theorem rxReset_trace : (rxReset s).trace = s.trace ++ [.setStandby] ++ [.setReceive Config.rxMaxFrameLen Config.rxLeadingFilter] := rfl
@[simp] theorem rxReset_callerBuf : (rxReset s).callerBuf = s.callerBuf := rfl
@[simp] theorem rxReset_inbox : (rxReset s).inbox = s.inbox := rfl
@[simp] theorem rxReset_answer : (rxReset s).answer = s.answer := rfl
@[simp] theorem rxReset_env : (rxReset s).env = s.env := rfl
@[simp] theorem rxReset_failedDecodes : (rxReset s).failedDecodes = s.failedDecodes := rfl

/-! the four writes of `SYNC_RESET`. -/

@[simp] theorem clearSync_params : (clearSync s).params = s.params := rfl
@[simp] theorem clearSync_sync : (clearSync s).sync = .unsynced := rfl
@[simp] theorem clearSync_slot : (clearSync s).slot = s.slot := rfl
@[simp] theorem clearSync_gap : (clearSync s).gap = 0 := rfl
@[simp] theorem clearSync_more : (clearSync s).more = false := rfl
@[simp] theorem clearSync_localEnabled : (clearSync s).localEnabled = s.localEnabled := rfl
@[simp] theorem clearSync_openBelief : (clearSync s).openBelief = false := rfl
@[simp] theorem clearSync_logPPV : (clearSync s).logPPV = s.logPPV := rfl
@[simp] theorem clearSync_txbuf : (clearSync s).txbuf = s.txbuf := rfl
@[simp] theorem clearSync_hubEnabled : (clearSync s).hubEnabled = s.hubEnabled := rfl
@[simp] theorem clearSync_rxbuf : (clearSync s).rxbuf = s.rxbuf := rfl
@[simp] theorem clearSync_latch : (clearSync s).latch = s.latch := rfl
@[simp] theorem clearSync_acl : (clearSync s).acl = s.acl := rfl
@[simp] theorem clearSync_logRadioFault : (clearSync s).logRadioFault = s.logRadioFault := rfl
@[simp] theorem clearSync_radioMode : (clearSync s).radioMode = s.radioMode := rfl
@[simp] theorem clearSync_trace : (clearSync s).trace = s.trace := rfl
@[simp] theorem clearSync_callerBuf : (clearSync s).callerBuf = s.callerBuf := rfl
@[simp] theorem clearSync_inbox : (clearSync s).inbox = s.inbox := rfl
@[simp] theorem clearSync_answer : (clearSync s).answer = s.answer := rfl
@[simp] theorem clearSync_env : (clearSync s).env = s.env := rfl
@[simp] theorem clearSync_failedDecodes : (clearSync s).failedDecodes = s.failedDecodes := rfl

/-! `VIOLATION`. -/

@[simp] theorem violation_params : (violation s).params = s.params := rfl
@[simp] theorem violation_sync : (violation s).sync = .unsynced := rfl
@[simp] theorem violation_slot : (violation s).slot = s.slot := rfl
@[simp] theorem violation_gap : (violation s).gap = 0 := rfl
@[simp] theorem violation_more : (violation s).more = false := rfl
@[simp] theorem violation_localEnabled : (violation s).localEnabled = s.localEnabled := rfl
@[simp] theorem violation_openBelief : (violation s).openBelief = false := rfl
@[simp] theorem violation_logPPV : (violation s).logPPV = true := rfl
@[simp] theorem violation_txbuf : (violation s).txbuf = s.txbuf := rfl
@[simp] theorem violation_hubEnabled : (violation s).hubEnabled = s.hubEnabled := rfl
@[simp] theorem violation_rxbuf : (violation s).rxbuf = s.rxbuf := rfl
@[simp] theorem violation_latch : (violation s).latch = s.latch := rfl
@[simp] theorem violation_acl : (violation s).acl = s.acl := rfl
@[simp] theorem violation_logRadioFault : (violation s).logRadioFault = s.logRadioFault := rfl
@[simp] theorem violation_radioMode : (violation s).radioMode = s.radioMode := rfl
@[simp] theorem violation_trace : (violation s).trace = s.trace := rfl
@[simp] theorem violation_callerBuf : (violation s).callerBuf = s.callerBuf := rfl
@[simp] theorem violation_inbox : (violation s).inbox = s.inbox := rfl
@[simp] theorem violation_answer : (violation s).answer = s.answer := rfl
@[simp] theorem violation_env : (violation s).env = s.env := rfl
@[simp] theorem violation_failedDecodes : (violation s).failedDecodes = s.failedDecodes := rfl

/-! `getHouseCode1`: the trace and the environment. -/

@[simp] theorem getHouseCode1_params : ((getHouseCode1 s).2).params = s.params := rfl
@[simp] theorem getHouseCode1_sync : ((getHouseCode1 s).2).sync = s.sync := rfl
@[simp] theorem getHouseCode1_slot : ((getHouseCode1 s).2).slot = s.slot := rfl
@[simp] theorem getHouseCode1_gap : ((getHouseCode1 s).2).gap = s.gap := rfl
@[simp] theorem getHouseCode1_more : ((getHouseCode1 s).2).more = s.more := rfl
@[simp] theorem getHouseCode1_localEnabled : ((getHouseCode1 s).2).localEnabled = s.localEnabled := rfl
@[simp] theorem getHouseCode1_openBelief : ((getHouseCode1 s).2).openBelief = s.openBelief := rfl
@[simp] theorem getHouseCode1_logPPV : ((getHouseCode1 s).2).logPPV = s.logPPV := rfl
@[simp] theorem getHouseCode1_txbuf : ((getHouseCode1 s).2).txbuf = s.txbuf := rfl
@[simp] theorem getHouseCode1_hubEnabled : ((getHouseCode1 s).2).hubEnabled = s.hubEnabled := rfl
@[simp] theorem getHouseCode1_rxbuf : ((getHouseCode1 s).2).rxbuf = s.rxbuf := rfl
@[simp] theorem getHouseCode1_latch : ((getHouseCode1 s).2).latch = s.latch := rfl
@[simp] theorem getHouseCode1_acl : ((getHouseCode1 s).2).acl = s.acl := rfl
@[simp] theorem getHouseCode1_logRadioFault : ((getHouseCode1 s).2).logRadioFault = s.logRadioFault := rfl
@[simp] theorem getHouseCode1_radioMode : ((getHouseCode1 s).2).radioMode = s.radioMode := rfl
@[simp] theorem getHouseCode1_trace : ((getHouseCode1 s).2).trace = s.trace ++ [.getHouseCode1] := rfl
@[simp] theorem getHouseCode1_callerBuf : ((getHouseCode1 s).2).callerBuf = s.callerBuf := rfl
@[simp] theorem getHouseCode1_inbox : ((getHouseCode1 s).2).inbox = s.inbox := rfl
@[simp] theorem getHouseCode1_answer : ((getHouseCode1 s).2).answer = s.answer := rfl
@[simp] theorem getHouseCode1_env : ((getHouseCode1 s).2).env = { s.env with houseCode1 := s.env.houseCode1.tail, calls := s.env.calls + 1 } := rfl
@[simp] theorem getHouseCode1_failedDecodes : ((getHouseCode1 s).2).failedDecodes = s.failedDecodes := rfl
@[simp] theorem getHouseCode1_value : (getHouseCode1 s).1 = houseCode1Answer s.env := rfl

/-! `getHouseCode2`: the trace and the environment. -/

@[simp] theorem getHouseCode2_params : ((getHouseCode2 s).2).params = s.params := rfl
@[simp] theorem getHouseCode2_sync : ((getHouseCode2 s).2).sync = s.sync := rfl
@[simp] theorem getHouseCode2_slot : ((getHouseCode2 s).2).slot = s.slot := rfl
@[simp] theorem getHouseCode2_gap : ((getHouseCode2 s).2).gap = s.gap := rfl
@[simp] theorem getHouseCode2_more : ((getHouseCode2 s).2).more = s.more := rfl
@[simp] theorem getHouseCode2_localEnabled : ((getHouseCode2 s).2).localEnabled = s.localEnabled := rfl
@[simp] theorem getHouseCode2_openBelief : ((getHouseCode2 s).2).openBelief = s.openBelief := rfl
@[simp] theorem getHouseCode2_logPPV : ((getHouseCode2 s).2).logPPV = s.logPPV := rfl
@[simp] theorem getHouseCode2_txbuf : ((getHouseCode2 s).2).txbuf = s.txbuf := rfl
@[simp] theorem getHouseCode2_hubEnabled : ((getHouseCode2 s).2).hubEnabled = s.hubEnabled := rfl
@[simp] theorem getHouseCode2_rxbuf : ((getHouseCode2 s).2).rxbuf = s.rxbuf := rfl
@[simp] theorem getHouseCode2_latch : ((getHouseCode2 s).2).latch = s.latch := rfl
@[simp] theorem getHouseCode2_acl : ((getHouseCode2 s).2).acl = s.acl := rfl
@[simp] theorem getHouseCode2_logRadioFault : ((getHouseCode2 s).2).logRadioFault = s.logRadioFault := rfl
@[simp] theorem getHouseCode2_radioMode : ((getHouseCode2 s).2).radioMode = s.radioMode := rfl
@[simp] theorem getHouseCode2_trace : ((getHouseCode2 s).2).trace = s.trace ++ [.getHouseCode2] := rfl
@[simp] theorem getHouseCode2_callerBuf : ((getHouseCode2 s).2).callerBuf = s.callerBuf := rfl
@[simp] theorem getHouseCode2_inbox : ((getHouseCode2 s).2).inbox = s.inbox := rfl
@[simp] theorem getHouseCode2_answer : ((getHouseCode2 s).2).answer = s.answer := rfl
@[simp] theorem getHouseCode2_env : ((getHouseCode2 s).2).env = { s.env with houseCode2 := s.env.houseCode2.tail, calls := s.env.calls + 1 } := rfl
@[simp] theorem getHouseCode2_failedDecodes : ((getHouseCode2 s).2).failedDecodes = s.failedDecodes := rfl
@[simp] theorem getHouseCode2_value : (getHouseCode2 s).1 = houseCode2Answer s.env := rfl

/-! `getRequestedOpenPercent`: the trace and the environment. -/

@[simp] theorem getDemand_params : ((getDemand s).2).params = s.params := rfl
@[simp] theorem getDemand_sync : ((getDemand s).2).sync = s.sync := rfl
@[simp] theorem getDemand_slot : ((getDemand s).2).slot = s.slot := rfl
@[simp] theorem getDemand_gap : ((getDemand s).2).gap = s.gap := rfl
@[simp] theorem getDemand_more : ((getDemand s).2).more = s.more := rfl
@[simp] theorem getDemand_localEnabled : ((getDemand s).2).localEnabled = s.localEnabled := rfl
@[simp] theorem getDemand_openBelief : ((getDemand s).2).openBelief = s.openBelief := rfl
@[simp] theorem getDemand_logPPV : ((getDemand s).2).logPPV = s.logPPV := rfl
@[simp] theorem getDemand_txbuf : ((getDemand s).2).txbuf = s.txbuf := rfl
@[simp] theorem getDemand_hubEnabled : ((getDemand s).2).hubEnabled = s.hubEnabled := rfl
@[simp] theorem getDemand_rxbuf : ((getDemand s).2).rxbuf = s.rxbuf := rfl
@[simp] theorem getDemand_latch : ((getDemand s).2).latch = s.latch := rfl
@[simp] theorem getDemand_acl : ((getDemand s).2).acl = s.acl := rfl
@[simp] theorem getDemand_logRadioFault : ((getDemand s).2).logRadioFault = s.logRadioFault := rfl
@[simp] theorem getDemand_radioMode : ((getDemand s).2).radioMode = s.radioMode := rfl
@[simp] theorem getDemand_trace : ((getDemand s).2).trace = s.trace ++ [.getRequestedOpenPercent] := rfl
@[simp] theorem getDemand_callerBuf : ((getDemand s).2).callerBuf = s.callerBuf := rfl
@[simp] theorem getDemand_inbox : ((getDemand s).2).inbox = s.inbox := rfl
@[simp] theorem getDemand_answer : ((getDemand s).2).answer = s.answer := rfl
@[simp] theorem getDemand_env : ((getDemand s).2).env = { s.env with demand := s.env.demand.tail, calls := s.env.calls + 1 } := rfl
@[simp] theorem getDemand_failedDecodes : ((getDemand s).2).failedDecodes = s.failedDecodes := rfl
@[simp] theorem getDemand_value : (getDemand s).1 = demandAnswer s.env := rfl

/-! `readStatus`: the trace and the environment. -/

@[simp] theorem readStatus_params : ((readStatus s).2).params = s.params := rfl
@[simp] theorem readStatus_sync : ((readStatus s).2).sync = s.sync := rfl
@[simp] theorem readStatus_slot : ((readStatus s).2).slot = s.slot := rfl
@[simp] theorem readStatus_gap : ((readStatus s).2).gap = s.gap := rfl
@[simp] theorem readStatus_more : ((readStatus s).2).more = s.more := rfl
@[simp] theorem readStatus_localEnabled : ((readStatus s).2).localEnabled = s.localEnabled := rfl
@[simp] theorem readStatus_openBelief : ((readStatus s).2).openBelief = s.openBelief := rfl
@[simp] theorem readStatus_logPPV : ((readStatus s).2).logPPV = s.logPPV := rfl
@[simp] theorem readStatus_txbuf : ((readStatus s).2).txbuf = s.txbuf := rfl
@[simp] theorem readStatus_hubEnabled : ((readStatus s).2).hubEnabled = s.hubEnabled := rfl
@[simp] theorem readStatus_rxbuf : ((readStatus s).2).rxbuf = s.rxbuf := rfl
@[simp] theorem readStatus_latch : ((readStatus s).2).latch = s.latch := rfl
@[simp] theorem readStatus_acl : ((readStatus s).2).acl = s.acl := rfl
@[simp] theorem readStatus_logRadioFault : ((readStatus s).2).logRadioFault = s.logRadioFault := rfl
@[simp] theorem readStatus_radioMode : ((readStatus s).2).radioMode = s.radioMode := rfl
@[simp] theorem readStatus_trace : ((readStatus s).2).trace = s.trace ++ [.readStatus] := rfl
@[simp] theorem readStatus_callerBuf : ((readStatus s).2).callerBuf = s.callerBuf := rfl
@[simp] theorem readStatus_inbox : ((readStatus s).2).inbox = s.inbox := rfl
@[simp] theorem readStatus_answer : ((readStatus s).2).answer = s.answer := rfl
@[simp] theorem readStatus_env : ((readStatus s).2).env = { s.env with status := s.env.status.tail, calls := s.env.calls + 1 } := rfl
@[simp] theorem readStatus_failedDecodes : ((readStatus s).2).failedDecodes = s.failedDecodes := rfl
@[simp] theorem readStatus_value : (readStatus s).1 = statusAnswer s.env := rfl

/-! `readFrame`. -/

@[simp] theorem readFrame_params : (readFrame s).params = s.params := rfl
@[simp] theorem readFrame_sync : (readFrame s).sync = s.sync := rfl
@[simp] theorem readFrame_slot : (readFrame s).slot = s.slot := rfl
@[simp] theorem readFrame_gap : (readFrame s).gap = s.gap := rfl
@[simp] theorem readFrame_more : (readFrame s).more = s.more := rfl
@[simp] theorem readFrame_localEnabled : (readFrame s).localEnabled = s.localEnabled := rfl
@[simp] theorem readFrame_openBelief : (readFrame s).openBelief = s.openBelief := rfl
@[simp] theorem readFrame_logPPV : (readFrame s).logPPV = s.logPPV := rfl
@[simp] theorem readFrame_txbuf : (readFrame s).txbuf = s.txbuf := rfl
@[simp] theorem readFrame_hubEnabled : (readFrame s).hubEnabled = s.hubEnabled := rfl
@[simp] theorem readFrame_rxbuf : (readFrame s).rxbuf = Memory.writeBytes s.rxbuf 0 (frameAnswer s.env).val := rfl
@[simp] theorem readFrame_latch : (readFrame s).latch = s.latch := rfl
@[simp] theorem readFrame_acl : (readFrame s).acl = s.acl := rfl
@[simp] theorem readFrame_logRadioFault : (readFrame s).logRadioFault = s.logRadioFault := rfl
@[simp] theorem readFrame_radioMode : (readFrame s).radioMode = s.radioMode := rfl
@[simp] theorem readFrame_trace : (readFrame s).trace = s.trace ++ [.readFrame Config.rxMaxFrameLen] := rfl
@[simp] theorem readFrame_callerBuf : (readFrame s).callerBuf = s.callerBuf := rfl
@[simp] theorem readFrame_inbox : (readFrame s).inbox = s.inbox := rfl
@[simp] theorem readFrame_answer : (readFrame s).answer = s.answer := rfl
@[simp] theorem readFrame_env : (readFrame s).env = { s.env with frames := s.env.frames.tail, calls := s.env.calls + 1 } := rfl
@[simp] theorem readFrame_failedDecodes : (readFrame s).failedDecodes = s.failedDecodes := rfl

/-! `storeBuilt`: the caller's buffer and the answer. -/

section
variable (r : Memory × Nat)
@[simp] theorem storeBuilt_params : (storeBuilt r s).params = s.params := rfl
@[simp] theorem storeBuilt_sync : (storeBuilt r s).sync = s.sync := rfl
@[simp] theorem storeBuilt_slot : (storeBuilt r s).slot = s.slot := rfl
@[simp] theorem storeBuilt_gap : (storeBuilt r s).gap = s.gap := rfl
@[simp] theorem storeBuilt_more : (storeBuilt r s).more = s.more := rfl
@[simp] theorem storeBuilt_localEnabled : (storeBuilt r s).localEnabled = s.localEnabled := rfl
@[simp] theorem storeBuilt_openBelief : (storeBuilt r s).openBelief = s.openBelief := rfl
@[simp] theorem storeBuilt_logPPV : (storeBuilt r s).logPPV = s.logPPV := rfl
@[simp] theorem storeBuilt_txbuf : (storeBuilt r s).txbuf = s.txbuf := rfl
@[simp] theorem storeBuilt_hubEnabled : (storeBuilt r s).hubEnabled = s.hubEnabled := rfl
@[simp] theorem storeBuilt_rxbuf : (storeBuilt r s).rxbuf = s.rxbuf := rfl
@[simp] theorem storeBuilt_latch : (storeBuilt r s).latch = s.latch := rfl
@[simp] theorem storeBuilt_acl : (storeBuilt r s).acl = s.acl := rfl
@[simp] theorem storeBuilt_logRadioFault : (storeBuilt r s).logRadioFault = s.logRadioFault := rfl
@[simp] theorem storeBuilt_radioMode : (storeBuilt r s).radioMode = s.radioMode := rfl
@[simp] theorem storeBuilt_trace : (storeBuilt r s).trace = s.trace := rfl
@[simp] theorem storeBuilt_callerBuf : (storeBuilt r s).callerBuf = r.1 := rfl
@[simp] theorem storeBuilt_inbox : (storeBuilt r s).inbox = s.inbox := rfl
@[simp] theorem storeBuilt_answer : (storeBuilt r s).answer = .length r.2 := rfl
@[simp] theorem storeBuilt_env : (storeBuilt r s).env = s.env := rfl
@[simp] theorem storeBuilt_failedDecodes : (storeBuilt r s).failedDecodes = s.failedDecodes := rfl
end

end UpdateLemmas

end Sys2Proof.Machine
end

