-- ==== Sys2Proof/Laws/Ops.lean ====
section
/-! SUPPORT. For each shared operation, one lemma that says what it does; callers cite it and unfold nothing. -/

namespace Sys2Proof.Machine

-- One theorem at a time: elaborated all at once, this file's many small theorems wait on each
-- other in more threads than the memory limit has stacks for.
set_option Elab.async false

/-! ## Collaborators and transmission -/

/-- `RX_RESET` (R251). -/
theorem rxReset_eq (s : State) :
    rxReset s = { s with
      radioMode := .receive
      trace := s.trace ++ [.setStandby, .setReceive Config.rxMaxFrameLen Config.rxLeadingFilter] } := by
  simp [rxReset, setReceive, setStandby, emitEvent]

/-- The calls of one transmission, in order (R206, R71). -/
def txEvents (s : State) : List Event :=
  [.setStandby, .transmit (txPayload s.params s.txbuf),
    if s.hubEnabled then .setReceive Config.rxMaxFrameLen Config.rxLeadingFilter else .setStandby]

/-- `TX` (R206): nothing on an empty buffer, else one transmission; only the radio and its trace change. -/
theorem tx_eq (s : State) :
    tx s = if Memory.read s.txbuf 0 = Config.terminator then s
      else { s with
        radioMode := if s.hubEnabled then .receive else .standby
        trace := s.trace ++ txEvents s } := by
  unfold tx txEvents
  split
  · rfl
  · cases h : s.hubEnabled <;> simp [setReceive, setStandby, emitEvent, h]

/-- The environment after a build has read both house codes (R171). -/
def envAfterCodes (e : Env) : Env :=
  { e with houseCode1 := e.houseCode1.tail, houseCode2 := e.houseCode2.tail, calls := e.calls + 2 }

/-- The Command a build makes in environment `e` (R171). -/
def builtCommand (e : Env) (cmd ext : Byte) : Command :=
  ⟨houseCode1Answer e, houseCode2Answer { e with calls := e.calls + 1 }, 0x00, cmd, ext⟩

/-- `BUILD(cmd, ext)` (R171): `TXBUF`, the trace and the environment change, nothing else. -/
theorem build_eq (cmd ext : Byte) (s : State) :
    build cmd ext s = { s with
      txbuf := (encodeInto (builtCommand s.env cmd ext) s.txbuf).1
      trace := s.trace ++ [.getHouseCode1, .getHouseCode2]
      env := envAfterCodes s.env } := by
  simp [build, getHouseCode1, getHouseCode2, emitEvent, builtCommand, envAfterCodes, houseCode2Answer]

/-- The environment after the demand was read (R174). -/
def envAfterDemand (e : Env) : Env := { e with demand := e.demand.tail, calls := e.calls + 1 }

/-- `BUILD_VALVE_SET` (R174). -/
theorem buildValveSet_eq (s : State) :
    buildValveSet s = { s with
      txbuf := (encodeInto
        (builtCommand (envAfterDemand s.env) Config.cmdValveSet (extOf (demandAnswer s.env).val)) s.txbuf).1
      trace := s.trace ++ [.getRequestedOpenPercent, .getHouseCode1, .getHouseCode2]
      env := envAfterCodes (envAfterDemand s.env) } := by
  simp only [buildValveSet, build_eq]
  simp [getDemand, emitEvent, envAfterDemand]

/-- The fault entry (R203): five writes. -/
theorem violation_eq (s : State) :
    violation s = { s with sync := .unsynced, gap := 0, openBelief := false, more := false, logPPV := true } := rfl

/-! ## The codec's operations on the state -/

/-- `ENCODE` into the caller's buffer (R136): the buffer and the answer. -/
theorem encodeToCaller_eq (c : Command) (s : State) :
    encodeToCaller c s = { s with
      callerBuf := (encodeInto c s.callerBuf).1
      answer := .length (framePacked c).length } := by
  rw [← encodeInto_len c s.callerBuf]; rfl

/-- A symbol made in a session of its own (R132, R135): the packed raw bits, the terminator, and the answer. -/
theorem makeSymbol_eq (v : Bool) (s : State) :
    makeSymbol v s = { s with
      callerBuf := (finishFrame (appendRaw ⟨s.callerBuf, 0⟩ (symbolBits v))).1
      answer := .length (((symbolBits v).length + 7) / 8) } := by
  simp [makeSymbol, storeBuilt, respond, encBit, finishFrame]

/-- A unit made in a session of its own (R133, R135). -/
theorem makeUnit_eq (b : Byte) (s : State) :
    makeUnit b s = { s with
      callerBuf := (finishFrame (appendRaw ⟨s.callerBuf, 0⟩ (unitBits b (parity8 b)))).1
      answer := .length (((unitBits b (parity8 b)).length + 7) / 8) } := by
  simp [makeUnit, storeBuilt, respond, encUnit_eq, finishFrame]

/-- `DECODE` of a window (R145): the answer, and the count of failed answers. -/
theorem decodeToAnswer_eq (w : List Byte) (s : State) :
    decodeToAnswer w s =
      if (decodeWindow w).2.failed then
        { s with failedDecodes := s.failedDecodes + 1, answer := .decoded false (failedCommand s.failedDecodes) }
      else { s with answer := .decoded true (decodeWindow w).1 } := by
  simp only [decodeToAnswer, answerDecode]
  cases (decodeWindow w).2.failed <;> rfl

/-! ## The frame of one slot's work -/

/-- What no slot's work touches (R194): the parameters, the switches, the hub receiver's state, the caller's buffer, the
slot counter and the host's requests. -/
def untouchedBySlot (s t : State) : Prop :=
  t.params = s.params ∧ t.slot = s.slot ∧ t.localEnabled = s.localEnabled ∧ t.hubEnabled = s.hubEnabled
    ∧ t.rxbuf = s.rxbuf ∧ t.latch = s.latch ∧ t.acl = s.acl ∧ t.logRadioFault = s.logRadioFault
    ∧ t.callerBuf = s.callerBuf ∧ t.inbox = s.inbox ∧ t.failedDecodes = s.failedDecodes

theorem tx_untouched (s : State) : untouchedBySlot s (tx s) := by
  rw [tx_eq]; split <;> simp [untouchedBySlot]

theorem build_untouched (cmd ext : Byte) (s : State) : untouchedBySlot s (build cmd ext s) := by
  rw [build_eq]; simp [untouchedBySlot]

theorem untouchedBySlot.trans {s t u : State} (h1 : untouchedBySlot s t) (h2 : untouchedBySlot t u) :
    untouchedBySlot s u := by
  unfold untouchedBySlot at *
  simp_all

/-- A countdown is odd, so every burst step sends (R22, R197). -/
theorem countdown_lsb (c : Countdown) : c.val.getLsbD 0 = true := by
  have h := c.property.1
  rw [BitVec.getLsbD, Nat.testBit_zero, h]; rfl

/-- `BURST_STEP(c)` (R197): build, send, then the final wait after countdown 3, else the next countdown. -/
theorem burstStep_eq (c : Countdown) (s : State) :
    burstStep c s =
      (let t := tx (buildSyncStep c.val s)
      if h : c.val = 3 then
        (true, { (getHouseCode2 t).2 with sync := .finalWait (finalWaitOf (getHouseCode2 t).1 t.slot) })
      else (true, { t with sync := .burst (burstNext c h) })) := by
  simp only [burstStep, countdown_lsb, if_true, getHouseCode2_slot]

theorem burstStep_untouched (c : Countdown) (s : State) : untouchedBySlot s (burstStep c s).2 := by
  have h1 : untouchedBySlot s (tx (buildSyncStep c.val s)) := (build_untouched _ _ s).trans (tx_untouched _)
  rw [burstStep_eq]
  generalize tx (buildSyncStep c.val s) = t at h1 ⊢
  dsimp only
  split <;> simpa [untouchedBySlot, getHouseCode2, emitEvent] using h1

theorem syncFinalActions_untouched (s : State) : untouchedBySlot s (syncFinalActions s) := by
  have h1 := (build_untouched Config.cmdSyncFinal 0x00 s).trans (tx_untouched (buildSyncFinal s))
  simp only [syncFinalActions, buildValveSet_eq]
  simpa [untouchedBySlot, getHouseCode2, emitEvent] using h1

theorem valveTxActions_untouched (s : State) : untouchedBySlot s (valveTxActions s) := by
  have h1 := tx_untouched s
  simpa [untouchedBySlot, valveTxActions, getHouseCode2, getDemand, emitEvent] using h1

theorem finalStep_untouched (h : Byte) (s : State) : untouchedBySlot s (finalStep h s).2 := by
  unfold finalStep
  split
  · simp [untouchedBySlot, violation_eq]
  · split
    · simp [untouchedBySlot]
    · exact syncFinalActions_untouched s

theorem syncedStep_untouched (first : Bool) (s : State) : untouchedBySlot s (syncedStep first s).2 := by
  unfold syncedStep
  split
  · simp [untouchedBySlot, violation_eq]
  · split
    · simp [untouchedBySlot]
    · simp only
      split
      · simp [untouchedBySlot]
      · have h1 := valveTxActions_untouched { s with gap := s.gap - 1 }
        simpa [untouchedBySlot] using h1

/-- One slot's work leaves all of this alone (R194, R75). -/
theorem slotStep_untouched (first : Bool) (s : State) : untouchedBySlot s (slotStep first s).2 := by
  unfold slotStep
  split
  · simp [untouchedBySlot]
  · split
    · exact burstStep_untouched _ s
    · exact burstStep_untouched _ s
    · exact finalStep_untouched _ s
    · exact syncedStep_untouched _ s

/-! ## Decode sessions -/

/-- Reading one pair, all cases (R140). -/
theorem nextPair_cases (D : DecSession) :
    (D.failed = true ∧ nextPair D = (0, D))
    ∨ (D.failed = false ∧ pairAt D.W D.j = none ∧ nextPair D = (0, ⟨D.W, D.j, true, .exhausted⟩))
    ∨ (D.failed = false ∧ ∃ v, pairAt D.W D.j = some v ∧ nextPair D = (v, { D with j := D.j + 1 })) := by
  cases hf : D.failed
  · cases hp : pairAt D.W D.j
    · exact Or.inr (Or.inl ⟨rfl, rfl, by simp [nextPair, failWith, hf, hp]⟩)
    · exact Or.inr (Or.inr ⟨rfl, _, rfl, by simp [nextPair, hf, hp]⟩)
  · exact Or.inl ⟨rfl, by simp [nextPair, hf]⟩

end Sys2Proof.Machine
end

