-- ==== Sys2Proof/Laws/PerInstr.lean ====
section
/-! SUPPORT. A family of statements made per instruction: the first byte of the request that carries it. -/

namespace Sys2Proof.Laws.LeadByte

-- One theorem at a time: elaborated all at once, this file's many small theorems wait on each
-- other in more threads than the memory limit has stacks for.
set_option Elab.async false

/-- The bytes of a request that carries an item of a format, its house code apart; nothing where it carries operands. -/
def requestBytes : Request → List Byte
  | .makeSymbol _ => []
  | .makeUnit _ => []
  | .makeFrame _ => []
  | .symbol w => w
  | .unit w => w
  | .frame w => w
  | .cmd _ _ command extension => [command, extension]
  | .hostop op args => BitVec.ofNat 8 op.toNat :: args

/-- What the opcode table gives as the first byte of a row: the pattern packed from bit 7, the command byte or the operation
code; for `UNIT` and `FRAME` the bytes a stream of symbols can start with (R93, R97). Nothing where an item is made from
operands or is broken. -/
def leadBytes : Instr → Option (List Byte)
  | .sym0 .encode => none
  | .sym0 .decode => some [0xC0]
  | .sym0 (.broken _) => none
  | .sym1 .encode => none
  | .sym1 .decode => some [0xE0]
  | .sym1 (.broken _) => none
  | .unit .encode _ _ => none
  | .unit .decode _ _ => some [0xCC, 0xCE, 0xE3]
  | .unit (.broken _) _ _ => none
  | .frame .encode _ _ => none
  | .frame .decode _ _ => some [0xCC]
  | .frame (.broken _) _ _ => none
  | .valveSet _ _ _ => some [0x26]
  | .syncStep _ _ _ => some [0x2C]
  | .syncFinal _ _ _ => some [0x20]
  | .reset => some [0x01]
  | .encode _ => some [0x02]
  | .decode _ => some [0x03]
  | .valveBuild => some [0x04]
  | .pollFirst => some [0x05]
  | .pollNext => some [0x06]
  | .extraTx => some [0x07]
  | .syncReset => some [0x08]
  | .localDisable => some [0x09]
  | .localEnable => some [0x0A]
  | .isOpen => some [0x0B]
  | .hubEnable _ => some [0x0C]
  | .hubDisable => some [0x0D]
  | .hubPoll => some [0x0E]
  | .latchGetClear => some [0x0F]
  | .aclAdd _ => some [0x10]
  | .aclRemove _ => some [0x11]
  | .aclQuery _ => some [0x12]
  | .aclCount => some [0x13]
  | .reserved _ => some [0x00, 0x14, 0x15, 0x16, 0x17, 0x18, 0x19, 0x1A, 0x1B, 0x1C, 0x1D, 0x1E, 0x1F]

/-- The request of a well-formed instruction starts with a byte its row allows. -/
def Statement (i : Instr) : Prop :=
  WellFormed i → ∀ l, leadBytes i = some l → ∃ b rest, requestBytes (encodeInstr i) = b :: rest ∧ b ∈ l

theorem sym0 (side : WireSide) : Statement (.sym0 side) := by
  cases side <;> rintro - l ⟨⟩
  exact ⟨_, _, rfl, by decide⟩
theorem sym1 (side : WireSide) : Statement (.sym1 side) := by
  cases side <;> rintro - l ⟨⟩
  exact ⟨_, _, rfl, by decide⟩
/-- Two or three symbols reach into the first byte of a unit. -/
theorem unit_first (b : Byte) (p : Bool) :
    (Machine.packBits (Machine.unitBits b p)).head? ∈ [some 0xCC, some 0xCE, some (0xE3 : Byte)] := by
  revert b p; decide +kernel

theorem unit (side : WireSide) (b : Byte) (p : Bool) : Statement (.unit side b p) := by
  cases side <;> rintro - l ⟨⟩
  next =>
    have h := unit_first b p
    cases hp : Machine.packBits (Machine.unitBits b p) with
    | nil => rw [hp] at h; simp at h
    | cons x xs =>
      rw [hp] at h
      exact ⟨x, xs, hp, by simpa using h⟩
theorem frame (side : WireSide) (c : Command) (chk : Byte) : Statement (.frame side c chk) := by
  cases side <;> rintro - l ⟨⟩
  next =>
    have h : ∃ rest, Machine.frameBits c chk = true :: true :: false :: false :: true :: true :: false :: false :: rest :=
      ⟨_, rfl⟩
    obtain ⟨rest, h⟩ := h
    refine ⟨0xCC, Machine.packBits rest ++ [Config.terminator], ?_, by simp⟩
    show Machine.packBits (Machine.frameBits c chk) ++ [Config.terminator] = _
    rw [h, Machine.packBits]
    rfl
theorem valveSet (side : Side) (src : HouseCode) (ext : Byte) : Statement (.valveSet side src ext) := by
  rintro - l ⟨⟩; exact ⟨_, _, rfl, by simp [Config.cmdValveSet]⟩
theorem syncStep (side : Side) (src : HouseCode) (ext : Byte) : Statement (.syncStep side src ext) := by
  rintro - l ⟨⟩; exact ⟨_, _, rfl, by simp [Config.cmdSyncStep]⟩
theorem syncFinal (side : Side) (src : HouseCode) (ext : Byte) : Statement (.syncFinal side src ext) := by
  rintro - l ⟨⟩; exact ⟨_, _, rfl, by simp [Config.cmdSyncFinal]⟩
theorem reset : Statement .reset := by
  rintro - l ⟨⟩; exact ⟨_, _, rfl, by simp⟩
theorem encode (c : Command) : Statement (.encode c) := by
  rintro - l ⟨⟩; exact ⟨_, _, rfl, by simp⟩
theorem decode (w : List Byte) : Statement (.decode w) := by
  rintro - l ⟨⟩; exact ⟨_, _, rfl, by simp⟩
theorem valveBuild : Statement .valveBuild := by
  rintro - l ⟨⟩; exact ⟨_, _, rfl, by simp⟩
theorem pollFirst : Statement .pollFirst := by
  rintro - l ⟨⟩; exact ⟨_, _, rfl, by simp⟩
theorem pollNext : Statement .pollNext := by
  rintro - l ⟨⟩; exact ⟨_, _, rfl, by simp⟩
theorem extraTx : Statement .extraTx := by
  rintro - l ⟨⟩; exact ⟨_, _, rfl, by simp⟩
theorem syncReset : Statement .syncReset := by
  rintro - l ⟨⟩; exact ⟨_, _, rfl, by simp⟩
theorem localDisable : Statement .localDisable := by
  rintro - l ⟨⟩; exact ⟨_, _, rfl, by simp⟩
theorem localEnable : Statement .localEnable := by
  rintro - l ⟨⟩; exact ⟨_, _, rfl, by simp⟩
theorem isOpen : Statement .isOpen := by
  rintro - l ⟨⟩; exact ⟨_, _, rfl, by simp⟩
theorem hubEnable (force : Bool) : Statement (.hubEnable force) := by
  rintro - l ⟨⟩; exact ⟨_, _, rfl, by simp⟩
theorem hubDisable : Statement .hubDisable := by
  rintro - l ⟨⟩; exact ⟨_, _, rfl, by simp⟩
theorem hubPoll : Statement .hubPoll := by
  rintro - l ⟨⟩; exact ⟨_, _, rfl, by simp⟩
theorem latchGetClear : Statement .latchGetClear := by
  rintro - l ⟨⟩; exact ⟨_, _, rfl, by simp⟩
theorem aclAdd (hc : HouseCode) : Statement (.aclAdd hc) := by
  rintro - l ⟨⟩; exact ⟨_, _, rfl, by simp⟩
theorem aclRemove (hc : HouseCode) : Statement (.aclRemove hc) := by
  rintro - l ⟨⟩; exact ⟨_, _, rfl, by simp⟩
theorem aclQuery (hc : HouseCode) : Statement (.aclQuery hc) := by
  rintro - l ⟨⟩; exact ⟨_, _, rfl, by simp⟩
theorem aclCount : Statement .aclCount := by
  rintro - l ⟨⟩; exact ⟨_, _, rfl, by simp⟩
theorem reserved (code : BitVec 5) : Statement (.reserved code) := by
  rintro h l ⟨⟩
  refine ⟨BitVec.ofNat 8 code.toNat, [], rfl, ?_⟩
  revert h; revert code; decide

end Sys2Proof.Laws.LeadByte
end

