-- ==== Sys2Proof/Laws/Polls.lean ====
section
/-! SUPPORT. The operations in the terms of Safety.lean: what a poll runs, what a transmission hands over, what a wire item
reads, and frames as bytes. -/

namespace Sys2Proof.Machine

-- One theorem at a time: elaborated all at once, this file's many small theorems wait on each
-- other in more threads than the memory limit has stacks for.
set_option Elab.async false

open Sys2Proof.Safety

/-! ## Transmission -/

/-- The bytes before the first terminator. -/
theorem bytes_takeWhile {m : Memory} {n : Nat} {pl : List Byte} (hl : pl.length < n)
    (h0 : Memory.read m pl.length = Config.terminator)
    (h : ∀ a, a < pl.length → Memory.read m a = pl.getD a 0x00 ∧ pl.getD a 0x00 ≠ Config.terminator) :
    (Memory.bytes m 0 n).takeWhile (fun b => b != Config.terminator) = pl := by
  have hsplit : Memory.bytes m 0 n
      = pl ++ Config.terminator :: (Memory.bytes m (pl.length + 1) (n - pl.length - 1)) := by
    apply List.ext_getElem
    · simp only [Memory.length_bytes, List.length_append, List.length_cons]; omega
    · intro i h1 h2
      rw [Memory.getElem_bytes]
      by_cases hi : i < pl.length
      · rw [List.getElem_append_left hi, Nat.zero_add, (h i hi).1]; simp [hi]
      · rw [List.getElem_append_right (by omega)]
        by_cases he : i = pl.length
        · subst he; simp [h0]
        · rw [List.getElem_cons, dif_neg (by omega), Memory.getElem_bytes]; congr 1; omega
  rw [hsplit, List.takeWhile_append_of_pos]
  · simp
  · intro x hx
    obtain ⟨i, hi, rfl⟩ := List.getElem_of_mem hx
    have := (h i hi).2
    simpa [hi] using this

/-- `TX` of a buffer that holds the payload `pl` (R206, R85). -/
theorem tx_of_payload {s : State} {pl : List Byte} (h : holdsPayload s.params s.txbuf pl) :
    tx s = { s with
      radioMode := modeAfterSend s.hubEnabled pl s.radioMode
      trace := s.trace ++ sendEvents s.hubEnabled pl } := by
  obtain ⟨h1, h2, h3⟩ := h
  rw [tx_eq]
  by_cases he : pl = []
  · subst he
    have h4 : Memory.read s.txbuf 0 = Config.terminator := h2
    simp [h4, modeAfterSend, sendEvents]
  · have hpos : 0 < pl.length := List.length_pos_iff.2 he
    have h4 : Memory.read s.txbuf 0 ≠ Config.terminator := by rw [(h3 0 hpos).1]; exact (h3 0 hpos).2
    have hp : txPayload s.params s.txbuf = pl := bytes_takeWhile h1 h2 h3
    simp only [if_neg h4, txEvents, hp, modeAfterSend, sendEvents, if_neg he, resumeEvent, Config.rxMaxFrameLen,
      Config.rxLeadingFilter]

/-! ## Polls -/

/-- A poll that is neither a no-op nor an overrun does one slot's work (R192, R193). -/
theorem exec_of_pollStart {i : Instr} {s s0 : State} (h : pollStart i s = some s0) :
    exec i s = .next (pollAnswer (slotStep (decide (i = .pollFirst)) s0)) := by
  unfold pollStart at h
  split at h
  · next hi => subst hi; injection h with h; subst h; rfl
  · split at h
    · next hi =>
      obtain ⟨rfl, hm, hs⟩ := hi
      injection h with h; subst h
      simp [exec, execPollNext, pollNext, hm, hs]
    · cases h

/-- Only the slot counter differs where the slot's work starts. -/
theorem pollStart_frame {i : Instr} {s s0 : State} (h : pollStart i s = some s0) : s0 = { s with slot := s0.slot } := by
  unfold pollStart at h
  split at h
  · injection h with h; subst h; rfl
  · split at h
    · injection h with h; subst h; rfl
    · cases h

/-- Every poll: one slot's work, a no-op or an overrun (R193). -/
theorem pollNext_cases (s : State) :
    (s.more = false ∧ pollNext s = respond s (.flag false))
    ∨ (s.more = true ∧ s.slot = s.params.maxSlot.val ∧ pollNext s = respond (violation s) (.flag false))
    ∨ (s.more = true ∧ s.slot ≠ s.params.maxSlot.val
        ∧ pollNext s = pollAnswer (slotStep false { s with slot := s.slot + 1 })) := by
  cases hm : s.more
  · exact Or.inl ⟨rfl, by simp [pollNext, hm]⟩
  · by_cases hs : s.slot = s.params.maxSlot.val
    · exact Or.inr (Or.inl ⟨rfl, hs, by simp [pollNext, hm, hs]⟩)
    · exact Or.inr (Or.inr ⟨rfl, hs, by simp [pollNext, hm, hs]⟩)

/-! ## Frames and wire items -/

theorem frameOf_eq (c : Command) : frameOf c = framePacked c := rfl

/-- What a build leaves in its buffer (R67). -/
theorem encodeInto_builds (c : Command) (B : Memory) : buildsFrame B (encodeInto c B).1 c :=
  fun a => encodeInto_read c B a

theorem buildsFrame.holds {m m' : Memory} {c : Command} (h : buildsFrame m m' c) : holdsFrame m' c :=
  ⟨fun a ha => by rw [h a, if_pos ha], by rw [h, if_neg (Nat.lt_irrefl _), if_pos rfl]⟩

/-- A packed symbol, as what a new session has to read. -/
theorem newSession_symbol (v : Bool) :
    ∃ k, pairsLeft (newSession (packBits (symbolBits v))) = symbolPairs v ++ List.replicate k 0 := by
  obtain ⟨k, hk⟩ := windowPairs_packBits (symbolBits v) (length_symbolBits_even v)
  exact ⟨k, by rw [pairsLeft, newSession, List.drop_zero, hk, pairsOf_symbolBits]⟩

/-- A packed unit, as what a new session has to read. -/
theorem newSession_unit (b : Byte) (p : Bool) :
    ∃ k, pairsLeft (newSession (packBits (unitBits b p))) = unitPairs b p ++ List.replicate k 0 := by
  obtain ⟨k, hk⟩ := windowPairs_packBits (unitBits b p)
    (by rw [unitBits_eq_flatMap]; exact length_flatMap_symbolBits_even _)
  exact ⟨k, by
    rw [pairsLeft, newSession, List.drop_zero, hk, unitBits_eq_flatMap, pairsOf_flatMap_symbolBits,
      unitPairs_eq_flatMap]⟩

/-- The length of a unit in pairs (R96). -/
theorem length_unitPairs (b : Byte) (p : Bool) : (unitPairs b p).length = 18 + popcount b + p.toNat := by
  revert b p; decide +kernel

/-! ## Windows -/

theorem pairOf_extract (b : Byte) :
    bytePairs b = [pairOf (b.getLsbD 7) (b.getLsbD 6), pairOf (b.getLsbD 5) (b.getLsbD 4),
      pairOf (b.getLsbD 3) (b.getLsbD 2), pairOf (b.getLsbD 1) (b.getLsbD 0)] := by
  revert b; decide +kernel

/-- The pairs of a window are its raw bits two at a time (R63). -/
theorem windowPairs_eq (W : List Byte) : windowPairs W = pairsOf (windowBits W) := by
  induction W with
  | nil => rfl
  | cons b W ih =>
    rw [windowPairs, List.flatMap_cons, ← windowPairs, ih, pairOf_extract]
    rfl

end Sys2Proof.Machine
end

