-- ==== Sys2Proof/Tests/Slice0.lean ====
section
/-! SUPPORT. Tests: well-formedness, decoding of written-out words, single steps with results from the spec's vectors, and
for each statement with hypotheses a witness that meets them. -/

namespace Sys2Proof.Tests

-- One theorem at a time: elaborated all at once, this file's many small theorems wait on each
-- other in more threads than the memory limit has stacks for.
set_option Elab.async false

open Sys2Proof.Machine Sys2Proof.Safety

/-! ## WellFormed: each check refuses an ill-formed term -/

theorem test_wf_unit : wellFormed (.unit .encode 0x12 false) = true ∧ wellFormed (.unit .encode 0x12 true) = false := by
  decide
theorem test_wf_frame : wellFormed (.frame .encode ⟨0x12, 0x34, 0x00, 0x26, 0x80⟩ 0xF8) = true
    ∧ wellFormed (.frame .encode ⟨0x12, 0x34, 0x00, 0x26, 0x80⟩ 0xCE) = false := by decide
/-- The empty window is a broken `SYM0`; `'11' '10'` at the end of a window would be a broken `SYM1` (R92). -/
theorem test_wf_broken_symbol : wellFormed (.sym0 (.broken [])) = true ∧ wellFormed (.sym0 (.broken [0xC0])) = false
    ∧ wellFormed (.sym1 (.broken [0xE4])) = true ∧ wellFormed (.sym0 (.broken [0xE4])) = false
    ∧ wellFormed (.sym1 (.broken [0xE0])) = false ∧ wellFormed (.sym1 (.broken [0xFF])) = false := by decide
theorem test_wf_broken_unit : wellFormed (.unit (.broken [0xCC]) 0 false) = true
    ∧ wellFormed (.unit (.broken [0xCC]) 1 false) = false
    ∧ wellFormed (.unit (.broken [0xCC, 0xCC, 0xCC, 0xCC, 0xC0]) 0 false) = false := by decide +kernel
theorem test_wf_broken_frame : wellFormed (.frame (.broken [0xCC]) .zero 0) = true
    ∧ wellFormed (.frame (.broken [0xCC]) .zero 1) = false := by decide +kernel
theorem test_wf_reserved : wellFormed (.reserved 0x00) = true ∧ wellFormed (.reserved 0x14) = true
    ∧ wellFormed (.reserved 0x05) = false ∧ wellFormed (.reserved 0x13) = false := by decide

/-! ## Decoding of words written out from the spec's encodings -/

/-- R91: `1100` and `111000` from bit 7, and windows that start with neither (R141). -/
theorem test_decode_sym0 : decodeRequest (.symbol [0b11000000]) = .ok (.sym0 .decode)
    ∧ decodeRequest (.symbol [0b01000000]) = .ok (.sym0 (.broken [0x40])) := by decide
theorem test_decode_sym1 : decodeRequest (.symbol [0b11100000]) = .ok (.sym1 .decode)
    ∧ decodeRequest (.symbol [0b11100100]) = .ok (.sym1 (.broken [0xE4])) := by decide
/-- R142, its example: `0 0 0 1 0 0 1 0 0` is `0x12`, `0 0 0 1 0 0 1 0 1` a unit with a wrong parity bit. -/
theorem test_decode_unit : decodeRequest (.unit
    [0b11001100, 0b11001110, 0b00110011, 0b00111000, 0b11001100]) = .ok (.unit .decode 0x12 false) := by decide +kernel
theorem test_decode_unit_odd : decodeRequest (.unit
      [0b11001100, 0b11001110, 0b00110011, 0b00111000, 0b11001110, 0b00000000]) = .ok (.unit .decode 0x12 true)
    ∧ decodeRequest (.unit [0b11001100, 0xFF]) = .ok (.unit (.broken [0xCC, 0xFF]) 0 false) := by decide +kernel
/-- The frame of R136's example. -/
def frame136 : List Byte :=
  [0xCC, 0xCC, 0xCC, 0xCC, 0xCC, 0xCC, 0xE3, 0x33, 0x38, 0xCC, 0xE3, 0x33, 0x33, 0x8E, 0x33, 0x8C, 0xCE, 0x33, 0x33,
    0x33, 0x33, 0x33, 0x33, 0x8C, 0xCE, 0x38, 0xCE, 0x38, 0xCC, 0xCC, 0xCC, 0xCE, 0x38, 0xE3, 0x8E, 0x38, 0xCC, 0xCE,
    0x33, 0x00]
theorem test_decode_frame : decodeRequest (.frame (frame136 ++ [0xFF]))
    = .ok (.frame .decode ⟨0x12, 0x34, 0x00, 0x26, 0x80⟩ 0xF8) := by decide +kernel
/-- R101 to R103. -/
theorem test_decode_valveSet : decodeRequest (.cmd .encode ⟨1, 2⟩ 0x26 0x80) = .ok (.valveSet .encode ⟨1, 2⟩ 0x80) := by
  decide
theorem test_decode_syncStep : decodeRequest (.cmd .encode ⟨1, 2⟩ 0x2C 0xF1) = .ok (.syncStep .encode ⟨1, 2⟩ 0xF1) := by
  decide
theorem test_decode_syncFinal : decodeRequest (.cmd .decode ⟨1, 2⟩ 0x20 0) = .ok (.syncFinal .decode ⟨1, 2⟩ 0) := by
  decide
/-- R106: any other command byte is codable; `0x0C + 1 + 2 + 0x7F = 0x8E`. -/
theorem test_decode_otherCommand : decodeRequest (.cmd .encode ⟨1, 2⟩ 0x7F 0)
    = .ok (.frame .encode ⟨1, 2, 0, 0x7F, 0⟩ 0x8E) := by decide
/-- R109, in the table's order. -/
theorem test_decode_reset : decodeRequest (.hostop 0x01 []) = .ok .reset := by decide
theorem test_decode_encode : decodeRequest (.hostop 0x02 [0x12, 0x34, 0x00, 0x26, 0x80])
    = .ok (.encode ⟨0x12, 0x34, 0x00, 0x26, 0x80⟩) := by decide
theorem test_decode_decode : decodeRequest (.hostop 0x03 [0xCC, 0xE3]) = .ok (.decode [0xCC, 0xE3]) := by decide
theorem test_decode_valveBuild : decodeRequest (.hostop 0x04 []) = .ok .valveBuild := by decide
theorem test_decode_pollFirst : decodeRequest (.hostop 0x05 []) = .ok .pollFirst := by decide
theorem test_decode_pollNext : decodeRequest (.hostop 0x06 []) = .ok .pollNext := by decide
theorem test_decode_extraTx : decodeRequest (.hostop 0x07 []) = .ok .extraTx := by decide
theorem test_decode_syncReset : decodeRequest (.hostop 0x08 []) = .ok .syncReset := by decide
theorem test_decode_localDisable : decodeRequest (.hostop 0x09 []) = .ok .localDisable := by decide
theorem test_decode_localEnable : decodeRequest (.hostop 0x0A []) = .ok .localEnable := by decide
theorem test_decode_isOpen : decodeRequest (.hostop 0x0B []) = .ok .isOpen := by decide
theorem test_decode_hubEnable : decodeRequest (.hostop 0x0C [0x01]) = .ok (.hubEnable true)
    ∧ decodeRequest (.hostop 0x0C [0x02]) = .reject .argumentRange := by decide
theorem test_decode_hubDisable : decodeRequest (.hostop 0x0D []) = .ok .hubDisable := by decide
theorem test_decode_hubPoll : decodeRequest (.hostop 0x0E []) = .ok .hubPoll := by decide
theorem test_decode_latchGetClear : decodeRequest (.hostop 0x0F []) = .ok .latchGetClear := by decide
theorem test_decode_aclAdd : decodeRequest (.hostop 0x10 [0x0D, 0x49]) = .ok (.aclAdd ⟨0x0D, 0x49⟩) := by decide
theorem test_decode_aclRemove : decodeRequest (.hostop 0x11 [0x0D, 0x49]) = .ok (.aclRemove ⟨0x0D, 0x49⟩) := by decide
theorem test_decode_aclQuery : decodeRequest (.hostop 0x12 [0x0D, 0x49]) = .ok (.aclQuery ⟨0x0D, 0x49⟩) := by decide
theorem test_decode_aclCount : decodeRequest (.hostop 0x13 []) = .ok .aclCount
    ∧ decodeRequest (.hostop 0x13 [0x00]) = .reject .argumentCount := by decide
theorem test_decode_reserved : decodeRequest (.hostop 0x00 []) = .ok (.reserved 0x00)
    ∧ decodeRequest (.hostop 0x14 []) = .ok (.reserved 0x14) ∧ decodeRequest (.hostop 0x1F []) = .ok (.reserved 0x1F) := by decide

/-! ## Single steps -/

/-- One field, or a tuple of fields, of the next state. -/
def after {α : Type} (i : Instr) (s : State) (f : State → α) : Option α :=
  match exec i s with
  | .next t => some (f t)
  | .fault _ => none
  | .refused _ => none

/-- After `RESET`, with the collaborators of the spec's programs: house code `0x0D, 0x49`, demand 50. -/
def base : State :=
  { State.reset with env := ⟨[0x0D, 0x0D, 0x0D], [0x49, 0x49, 0x49, 0x49], [50, 50], [], [], 0⟩ }

/-- The 39 bytes of `VALVE_FRAME(50)` (P1, end state). -/
def valveFrame50 : List Byte :=
  [0xCC, 0xCC, 0xCC, 0xCC, 0xCC, 0xCC, 0xE3, 0x33, 0x33, 0x8E, 0x33, 0x8E, 0x33, 0x8C, 0xCE, 0x33, 0x38, 0xE3,
    0x33, 0x33, 0x33, 0x33, 0x33, 0x38, 0xCC, 0xE3, 0x8C, 0xE3, 0x8C, 0xCC, 0xCC, 0xCC, 0xE3, 0x33, 0x33,
    0x8C, 0xCC, 0xE3, 0x30]

/-- A buffer that holds them; the terminator is what an unlisted byte reads as. -/
def frameCells : Memory := (List.range 39).zip valveFrame50

/-- Synced, with `VALVE_FRAME(50)` in `TXBUF`. -/
def synced (gap : Byte) : State :=
  { base with sync := .synced, gap := gap, txbuf := frameCells }

/-- Enabled, with one frame waiting, padded with zeros. -/
def hearing (fr : List Byte) (h : (fr ++ List.replicate (46 - fr.length) 0).length = 46) : State :=
  { State.reset with
    hubEnabled := true, radioMode := .receive
    env := { Env.free with
      status := [⟨true, false⟩], frames := [⟨fr ++ List.replicate (46 - fr.length) 0, h⟩] } }

/-- Frame C of P3: house code `0x0D, 0x49`, valve-set, extension `0x26`. -/
def frameC : List Byte :=
  [0xCC, 0xCC, 0xCC, 0xCC, 0xCC, 0xCC, 0xE3, 0x33, 0x33, 0x8E, 0x33, 0x8E, 0x33, 0x8C, 0xCE, 0x33, 0x38, 0xE3, 0x33,
    0x33, 0x33, 0x33, 0x33, 0x38, 0xCC, 0xE3, 0x8C, 0xE3, 0x33, 0x8C, 0xCE, 0x38, 0xCE, 0x38, 0xCE, 0x33, 0x8E, 0x38,
    0xCE, 0x33, 0x00]
/-- Frame B of P3: extension `0x25`, one below the threshold. -/
def frameB : List Byte :=
  [0xCC, 0xCC, 0xCC, 0xCC, 0xCC, 0xCC, 0xE3, 0x33, 0x33, 0x8E, 0x33, 0x8E, 0x33, 0x8C, 0xCE, 0x33, 0x38, 0xE3, 0x33,
    0x33, 0x33, 0x33, 0x33, 0x38, 0xCC, 0xE3, 0x8C, 0xE3, 0x33, 0x8C, 0xCE, 0x33, 0x8E, 0x38, 0xCE, 0x33, 0x8E, 0x33,
    0x8E, 0x33, 0x00]

/-- R132: `ENC_BIT` writes `1100` or `111000` from bit 7; the rest of the byte is 0 and the terminator follows (R135). -/
theorem test_sym0_encode : after (.sym0 .encode) base (fun t => (t.answer, Memory.bytes t.callerBuf 0 2))
    = some (.length 1, [0xC0, 0xFF]) := by decide +kernel
theorem test_sym1_encode : after (.sym1 .encode) base (fun t => (t.answer, Memory.bytes t.callerBuf 0 2))
    = some (.length 1, [0xE0, 0xFF]) := by decide +kernel
theorem test_sym0_decode : after (.sym0 .decode) base (fun t => t.answer) = some (.bit true false)
    ∧ after (.sym0 (.broken [0x40])) base (fun t => t.answer) = some (.bit false false) := by decide +kernel
theorem test_sym1_decode : after (.sym1 .decode) base (fun t => t.answer) = some (.bit true true)
    ∧ after (.sym1 (.broken [0xE4])) base (fun t => t.answer) = some (.bit false false) := by decide +kernel
/-- R133: `0x12` is 40 raw bits. -/
theorem test_unit_encode : after (.unit .encode 0x12 false) base (fun t => (t.answer, Memory.bytes t.callerBuf 0 6))
    = some (.length 5, [0xCC, 0xCE, 0x33, 0x38, 0xCC, 0xFF]) := by decide +kernel
/-- R142: a wrong parity bit fails, and no later read is the worse for it (R40). -/
theorem test_unit_decode : after (.unit .decode 0x12 true) base (fun t => (t.answer, after (.sym1 .decode) t (fun u => u.answer)))
    = some (.byte false 0, some (.bit true true)) := by decide +kernel
/-- R107: the address is `0x00` on the wire when `ADR_USED` is false; the checksum operand is not used. -/
theorem test_frame_encode : after (.frame .encode ⟨0x12, 0x34, 0x55, 0x26, 0x80⟩ 0x4D) base
    (fun t => Memory.bytes t.callerBuf 0 41) = some (frame136 ++ [0xFF]) := by decide +kernel
theorem test_frame_decode : after (.frame .decode ⟨0x12, 0x34, 0x00, 0x26, 0x80⟩ 0xF8) base (fun t => t.answer)
    = some (.decoded true ⟨0x12, 0x34, 0x00, 0x26, 0x80⟩) := by decide +kernel
/-- R136's example. -/
theorem test_encode : after (.encode ⟨0x12, 0x34, 0x00, 0x26, 0x80⟩) base
    (fun t => (t.answer, Memory.bytes t.callerBuf 0 41)) = some (.length 40, frame136 ++ [0xFF]) := by decide +kernel
/-- R107: without an address in the Command type the address unit is `0x00`. -/
theorem test_encode_address : after (.encode ⟨0x12, 0x34, 0x55, 0x26, 0x80⟩) base (fun t => Memory.bytes t.callerBuf 0 41)
    = some (frame136 ++ [0xFF]) := by decide +kernel
theorem test_decode_ok : after (.decode frame136) base (fun t => t.answer)
    = some (.decoded true ⟨0x12, 0x34, 0x00, 0x26, 0x80⟩) := by decide +kernel
/-- R140: an empty window fails. -/
theorem test_decode_empty : after (.decode []) base (fun t => (match t.answer with | .decoded ok _ => some ok | _ => none,
    t.failedDecodes)) = some (some false, 1) := by decide +kernel
/-- R176's example: extension `0x80`. -/
theorem test_valveBuild : after .valveBuild base
    (fun t => (t.trace, decide (Memory.bytes t.txbuf 0 40 = frameBytes ⟨0x0D, 0x49, 0x00, 0x26, 0x80⟩ 0x08)))
    = some ([.getRequestedOpenPercent, .getHouseCode1, .getHouseCode2], true) := by decide +kernel
/-- P1, poll 0: a 42-byte frame, `SYNC_BURST(239)`. -/
theorem test_pollFirst : after .pollFirst base (fun t => ((newTransmits base t).map (·.length), t.answer, t.slot))
    = some ([42], .flag true, 0) := by decide +kernel
/-- R200's example: gap 230 becomes 226, answer false. -/
theorem test_pollFirst_synced : after .pollFirst (synced 230) (fun t => (t.gap, t.answer, t.trace))
    = some (226, .flag false, []) := by decide +kernel
/-- R201's example: transmission in slot 1 with `hc2 & 7 = 1` gives gap 230; the demand 50 is above 15. -/
theorem test_pollNext : after .pollNext { synced 1 with more := true }
    (fun t => (t.gap, t.slot, t.openBelief, (newTransmits base t).map (·.length))) = some (230, 1, true, [39]) := by
  decide +kernel
/-- R193: a call beyond the last slot is a violation. -/
theorem test_pollNext_overrun : after .pollNext { base with more := true, slot := 3, sync := .finalWait 4 }
    (fun t => (t.sync, t.logPPV, t.answer, t.trace)) = some (.unsynced, true, .flag false, []) := by decide +kernel
/-- R204's example, and its bounds. -/
theorem test_extraTx : after .extraTx (synced 100) (fun t => (t.answer, t.openBelief, t.gap, (newTransmits base t).length))
    = some (.flag true, true, 100, 1) := by decide +kernel
theorem test_extraTx_bounds : after .extraTx (synced 20) (fun t => t.answer) = some (.flag false)
    ∧ after .extraTx (synced 210) (fun t => t.answer) = some (.flag false)
    ∧ after .extraTx (synced 21) (fun t => t.answer) = some (.flag true)
    ∧ after .extraTx (synced 209) (fun t => t.answer) = some (.flag true) := by decide +kernel
theorem test_syncReset : after .syncReset { synced 100 with slot := 2 } (fun t => (t.sync, t.gap, t.slot))
    = some (.unsynced, 0, 2) := by decide +kernel
theorem test_localDisable : after .localDisable (synced 100) (fun t => (t.sync, t.localEnabled)) = some (.unsynced, false) := by
  decide +kernel
theorem test_localEnable : after .localEnable { base with localEnabled := false } (fun t => t.localEnabled) = some true := by
  decide +kernel
theorem test_isOpen : after .isOpen { synced 9 with openBelief := true } (fun t => t.answer) = some (.flag true)
    ∧ after .isOpen { base with openBelief := true } (fun t => t.answer) = some (.flag false) := by decide +kernel
/-- Section 5.3 of the vectors. -/
theorem test_hubEnable : after (.hubEnable false) base (fun t => (t.hubEnabled, t.trace))
    = some (true, [.setStandby, .setReceive 46 true]) := by decide +kernel
theorem test_hubDisable : after .hubDisable { base with hubEnabled := true } (fun t => (t.hubEnabled, t.trace))
    = some (false, [.setStandby]) := by decide +kernel
/-- P3, frame C: accepted, and the receiver disables itself. -/
theorem test_hubPoll : after .hubPoll (hearing frameC (by decide)) (fun t => (t.answer, t.latch, t.hubEnabled, t.radioMode))
    = some (.activity true, some ⟨0x0D, 0x49⟩, false, .standby) := by decide +kernel
/-- P3, frame B: one below the threshold. -/
theorem test_hubPoll_below : after .hubPoll (hearing frameB (by decide)) (fun t => (t.answer, t.latch, t.hubEnabled))
    = some (.activity true, none, true) := by decide +kernel
theorem test_latchGetClear : after .latchGetClear { base with latch := some ⟨0xFF, 0xFF⟩ } (fun t => (t.answer, t.latch))
    = some (.latch (some ⟨0xFF, 0xFF⟩), none) := by decide +kernel
theorem test_aclAdd : after (.aclAdd ⟨0x0D, 0x49⟩) base (fun t => (t.answer, t.acl)) = some (.flag true, [⟨0x0D, 0x49⟩])
    ∧ after (.aclAdd ⟨1, 2⟩) { base with acl := [⟨0x0D, 0x49⟩, ⟨0x12, 0x34⟩] } (fun t => t.answer) = some (.flag false) := by
  decide +kernel
theorem test_aclRemove : after (.aclRemove ⟨0x0D, 0x49⟩) { base with acl := [⟨0x0D, 0x49⟩, ⟨0x12, 0x34⟩] } (fun t => t.acl)
    = some [⟨0x12, 0x34⟩] := by decide +kernel
theorem test_aclQuery : after (.aclQuery ⟨0x12, 0x34⟩) base (fun t => t.answer) = some (.flag true)
    ∧ after (.aclQuery ⟨0x12, 0x34⟩) { base with acl := [⟨0x0D, 0x49⟩] } (fun t => t.answer) = some (.flag false) := by
  decide +kernel
theorem test_aclCount : after .aclCount { base with acl := [⟨0x0D, 0x49⟩] } (fun t => t.answer) = some (.count 1) := by
  decide +kernel
/-- R101, R102: read by `DECODE`; the hub receiver's state is `HUB_POLL`'s alone to change (R271). -/
theorem test_valveSet : after (.valveSet .decode ⟨0x0D, 0x49⟩ 0x26) { base with hubEnabled := true }
    (fun t => (t.latch, t.answer)) = some (none, .decoded true ⟨0x0D, 0x49, 0x00, 0x26, 0x26⟩) := by decide +kernel
theorem test_syncStep : after (.syncStep .decode ⟨0x0D, 0x49⟩ 0xF1) base (fun t => t.answer)
    = some (.decoded true ⟨0x0D, 0x49, 0x00, 0x2C, 0xF1⟩) := by decide +kernel
/-- R173's example: `LEN = 38`. -/
theorem test_syncFinal : after (.syncFinal .encode ⟨0x0D, 0x49⟩ 0x00) base (fun t => t.answer) = some (.length 38) := by
  decide +kernel
theorem test_reset : after .reset { synced 100 with logPPV := true } (fun t => (t.sync, t.logPPV, t.txbuf, t.localEnabled))
    = some (.unsynced, false, [], true) := by decide +kernel

/-! ## Witnesses: states and operands that meet the hypotheses of each statement, clause by clause -/

theorem witness_DecodeEncodeRoundTrip : WellFormed (.unit .encode 0x12 false) ∧ WellFormed (.unit .decode 0x12 true)
    ∧ WellFormed (.sym1 (.broken [0xE4])) ∧ WellFormed (.frame (.broken []) .zero 0) ∧ WellFormed (.reserved 0x1F) := by
  decide +kernel
theorem witness_WordRunsAsRequest : decodeTableWord 8 0x05 = some .pollFirst ∧ decodeTableWord 6 0x38 = some (.sym1 .decode) := by
  decide +kernel
theorem witness_StepRunsDecodedRequest :
    (∃ (s : State) (r : Request) (rest : List Request) (i : Instr), s.inbox = r :: rest ∧ decodeRequest r = .ok i)
    ∧ (∃ (s : State) (r : Request) (rest : List Request) (e : Reject), s.inbox = r :: rest ∧ decodeRequest r = .reject e)
    ∧ ∃ s : State, s.inbox = [] :=
  ⟨⟨{ base with inbox := [.hostop 0x05 []] }, _, _, .pollFirst, rfl, by decide⟩,
    ⟨{ base with inbox := [.hostop 0x0C [0x02]] }, _, _, .argumentRange, rfl, by decide⟩, ⟨base, rfl⟩⟩
theorem witness_SymbolCodePrefixFree :
    [false].flatMap symbolBits <+: [false, true].flatMap symbolBits ∧ [true].flatMap symbolBits <+: [true].flatMap symbolBits := by
  decide
theorem witness_SymbolStreamBytes : 8 * (0 + 1) ≤ ([false, false].flatMap symbolBits).length := by decide
theorem witness_EncodeProperties : ∃ s' t' : State, s'.params.adrUsed = base.params.adrUsed
    ∧ exec (.encode ⟨0xFF, 0xFF, 0x00, 0xF7, 0xFE⟩) s' = .next t' := ⟨synced 5, _, rfl, rfl⟩
theorem witness_EncodeThenDecode : (encodeInto ⟨0x12, 0x34, 0x00, 0x26, 0x80⟩ []).2 ≤ 40
    ∧ (encodeInto ⟨0xFF, 0xFF, 0xFF, 0xFF, 0xF7⟩ []).2 ≤ 47 := by decide +kernel
theorem witness_DecodeReadsCarriedFrames :
    carries frame136 ⟨0x12, 0x34, 0x00, 0x26, 0x80⟩ ∧ ∀ c, ¬ carries [] c := by
  refine ⟨⟨12, (windowBits frame136).drop 310, by decide +kernel⟩, ?_⟩
  rintro c ⟨n, rest, h⟩
  have h1 := congrArg List.length h
  simp only [windowBits, List.flatMap_nil, List.length_nil, List.length_append, readLogical, List.flatMap_append,
    List.flatMap_cons, symbolBits, List.length_cons] at h1
  omega
theorem witness_StickyDecodeFailure : (newSession [0xCC]).failed = false ∧ (failWith (newSession []) .exhausted).failed = true := by
  decide
/-- A pair sequence for each row of `DEC_BIT`, one of them at the end of its window. -/
theorem witness_DecBitByPairs :
    pairAt [] 0 = none ∧ pairAt [0x40] 0 = some 0b01
    ∧ (pairAt [0x03] 3 = some 0b11 ∧ pairAt [0x03] 4 = none)
    ∧ (pairAt [0xC0] 0 = some 0b11 ∧ pairAt [0xC0] 1 = some 0b00)
    ∧ (pairAt [0xFF] 0 = some 0b11 ∧ pairAt [0xFF] 1 = some 0b11)
    ∧ (pairAt [0x0E] 2 = some 0b11 ∧ pairAt [0x0E] 3 = some 0b10 ∧ pairAt [0x0E] 4 = none)
    ∧ (pairAt [0xE4] 0 = some 0b11 ∧ pairAt [0xE4] 1 = some 0b10 ∧ pairAt [0xE4] 2 = some 0b01)
    ∧ (pairAt [0xE0] 0 = some 0b11 ∧ pairAt [0xE0] 1 = some 0b10 ∧ pairAt [0xE0] 2 = some 0b00)
    ∧ (⟨[0x03], 3, false, .none⟩ : DecSession).failed = false := by decide
/-- The empty window, and one whose first pair is `'01'`. -/
theorem witness_ReadSymbolResult : (∀ v, ¬ startsWithSymbol [] v) ∧ ∀ v, ¬ startsWithSymbol [0x40] v := by
  constructor <;> rintro (_ | _) ⟨rest, h⟩ <;> simp [windowBits, byteBits, symbolBits] at h
theorem witness_ReadUnitResult : false = parity8 0x12 ∧ true ≠ parity8 0x12 ∧ ∀ b p, ¬ startsWithUnit [0xCC] b p := by
  refine ⟨by decide, by decide, ?_⟩
  rintro b p ⟨rest, h⟩
  have h1 := congrArg List.length h
  have h2 : ∀ l : List Bool, 4 * l.length ≤ (l.flatMap symbolBits).length := by
    intro l
    induction l with
    | nil => simp
    | cons v l ih => cases v <;> simp [symbolBits] at ih ⊢ <;> omega
  have h3 := h2 (byteBits b ++ [p])
  rw [List.length_append] at h1
  simp only [List.length_append, byteBits, List.length_cons, List.length_nil] at h1 h3
  simp [windowBits, byteBits] at h1
  simp at h3
  omega
/-- The item forms of the two statements on wire items, and the rows of the statement on frames: an address that is dropped
(`base`) and one that is kept. -/
theorem witness_item_forms :
    (∃ b p, Instr.unit .encode 0x12 false = .unit .encode b p)
    ∧ (∃ c0 chk, Instr.frame .encode ⟨1, 2, 3, 4, 5⟩ 0x1B = .frame .encode c0 chk
      ∧ (⟨1, 2, 0, 4, 5⟩ : Command) = if base.params.adrUsed then c0 else { c0 with address := 0x00 })
    ∧ (∃ src ext, Instr.valveSet .encode ⟨1, 2⟩ 5 = .valveSet .encode src ext)
    ∧ (∃ src ext, Instr.syncStep .encode ⟨1, 2⟩ 5 = .syncStep .encode src ext)
    ∧ ∃ src ext, Instr.syncFinal .encode ⟨1, 2⟩ 0 = .syncFinal .encode src ext :=
  ⟨⟨_, _, rfl⟩, ⟨_, _, rfl, rfl⟩, ⟨_, _, rfl⟩, ⟨_, _, rfl⟩, ⟨_, _, rfl⟩⟩
/-- One symbol round trip, run. -/
theorem witness_WireRowsRoundTrip : after (.sym1 .encode) base (fun t => decodeRequest (.symbol (Memory.bytes t.callerBuf 0 1)))
    = some (.ok (.sym1 .decode)) := by decide +kernel
theorem witness_FrameRowDecodes : (0xF8 : Byte) = checksum ⟨0x12, 0x34, 0x00, 0x26, 0x80⟩
    ∧ (0xCE : Byte) ≠ checksum ⟨0x12, 0x34, 0x00, 0x26, 0x80⟩ ∧ ∀ c, ¬ carries [] c :=
  ⟨by decide, by decide, witness_DecodeReadsCarriedFrames.2⟩
/-- Threshold 15: extension `0x26` is heard, `0x25` is not; nor is a house code outside a non-empty list, nor `SYNC_STEP`. -/
theorem witness_ReceivedCommands :
    let s := hearing frameC (by decide)
    s.hubEnabled = true ∧ statusAnswer s.env = ⟨true, false⟩
    ∧ (frameAnswer (afterStatus s.env)).val = frameOf ⟨0x0D, 0x49, 0x00, 0x26, 0x26⟩ ++ List.replicate 5 0
    ∧ isCallForHeat base.params [] ⟨0x0D, 0x49, 0x00, 0x26, 0x26⟩
    ∧ ¬ isCallForHeat base.params [] ⟨0x0D, 0x49, 0x00, 0x26, 0x25⟩
    ∧ ¬ isCallForHeat base.params [⟨1, 2⟩] ⟨0x0D, 0x49, 0x00, 0x26, 0xFF⟩
    ∧ ¬ isCallForHeat base.params [] ⟨0x0D, 0x49, 0x00, 0x2C, 0xF1⟩ := by
  refine ⟨rfl, rfl, by decide +kernel, ?_⟩
  simp only [isCallForHeat]; decide

theorem witness_BurstPoll :
    (∃ s0, pollStart .pollFirst base = some s0 ∧ base.localEnabled = true ∧ base.sync = .unsynced ∧ burstStart.val = 241)
    ∧ (∃ s s0, ∃ c : Countdown, pollStart .pollNext s = some s0 ∧ s.localEnabled = true ∧ s.sync = .burst c ∧ c.val = 3)
    ∧ ∃ s s0, ∃ c : Countdown, pollStart .pollNext s = some s0 ∧ s.localEnabled = true ∧ s.sync = .burst c ∧ c.val = 5 :=
  ⟨⟨_, rfl, rfl, rfl, rfl⟩,
    ⟨{ base with more := true, slot := 2, sync := .burst ⟨3, by decide⟩ }, _, ⟨3, by decide⟩, rfl, rfl, rfl, rfl⟩,
    ⟨{ base with more := true, slot := 2, sync := .burst ⟨5, by decide⟩ }, _, ⟨5, by decide⟩, rfl, rfl, rfl, rfl⟩⟩
theorem witness_FinalWaitPoll : ∃ s s0, pollStart .pollNext s = some s0 ∧ s.localEnabled = true ∧ s.sync = .finalWait 2
    ∧ 2 ≤ (2 : Byte).toNat :=
  ⟨{ base with more := true, slot := 0, sync := .finalWait 2 }, _, rfl, rfl, rfl, by decide⟩
theorem witness_SyncFinalPoll : ∃ s s0, pollStart .pollFirst s = some s0 ∧ s.localEnabled = true ∧ s.sync = .finalWait 1 :=
  ⟨{ base with sync := .finalWait 1 }, _, rfl, rfl, rfl⟩
theorem witness_SyncedCyclePoll : (synced 5).localEnabled = true ∧ (synced 5).sync = .synced
    ∧ (synced 5).params.maxSlot.val + 1 < (synced 5).gap.toNat := by decide
theorem witness_SyncedSlotPoll :
    (∃ s0, pollStart .pollFirst (synced 4) = some s0 ∧ (synced 4).gap.toNat ≤ (synced 4).params.maxSlot.val + 1)
    ∧ (∃ s0, pollStart .pollFirst (synced 2) = some s0 ∧ 2 ≤ (synced 2).gap.toNat)
    ∧ ∃ s0, pollStart .pollNext { synced 237 with more := true } = some s0 :=
  ⟨⟨_, rfl, by decide⟩, ⟨_, rfl, by decide⟩, ⟨_, rfl⟩⟩

theorem holds_valveFrame50 (gap : Byte) : holdsPayload (synced gap).params (synced gap).txbuf valveFrame50 := by
  have h : ∀ a : Fin 39, Memory.read frameCells a.val = valveFrame50.getD a.val 0x00
      ∧ valveFrame50.getD a.val 0x00 ≠ Config.terminator := by decide +kernel
  have hl : valveFrame50.length = 39 := by decide
  have ht : Memory.read frameCells valveFrame50.length = Config.terminator := by decide +kernel
  exact ⟨(by decide : valveFrame50.length < 46), ht, fun a ha => h ⟨a, by rwa [hl] at ha⟩⟩

theorem witness_SyncedTransmitPoll :
    (∃ s0, pollStart .pollFirst (synced 1) = some s0 ∧ (synced 1).sync = .synced ∧ (synced 1).gap = 1
      ∧ holdsPayload (synced 1).params (synced 1).txbuf valveFrame50)
    ∧ holdsPayload base.params base.txbuf [] :=
  ⟨⟨_, rfl, rfl, rfl, holds_valveFrame50 1⟩, by decide, by decide, by simp⟩
theorem witness_DisabledPoll :
    (∃ s s0, pollStart .pollFirst s = some s0 ∧ s.localEnabled = false)
    ∧ ∃ s s0, pollStart .pollNext s = some s0 ∧ s.localEnabled = false :=
  ⟨⟨{ base with localEnabled := false }, _, rfl, rfl⟩, ⟨{ base with localEnabled := false, more := true }, _, rfl, rfl⟩⟩
theorem witness_PollViolations :
    (∃ s0, pollStart .pollFirst (synced 0) = some s0 ∧ (synced 0).sync = .synced ∧ (synced 0).gap = 0)
    ∧ (∃ s s0, pollStart .pollNext s = some s0 ∧ s.localEnabled = true ∧ s.sync = .finalWait 0)
    ∧ ∃ s : State, s.more = true ∧ s.slot = s.params.maxSlot.val :=
  ⟨⟨_, rfl, rfl, rfl⟩, ⟨{ base with more := true, sync := .finalWait 0 }, _, rfl, rfl, rfl⟩,
    ⟨{ base with more := true, slot := 3 }, rfl, rfl⟩⟩
theorem witness_PollNextIdle : base.more = false := by decide
/-- Both ends of the extra-transmission window, with a demand at the threshold. -/
theorem witness_ExtraTxSends :
    let s : State := { synced 21 with env := { base.env with demand := [15] } }
    s.localEnabled = true ∧ s.sync = .synced ∧ 20 < s.gap.toNat ∧ (209 : Byte).toNat < 210
    ∧ s.params.minReallyOpenPc.val ≤ (demandAnswer s.env).val ∧ holdsPayload s.params s.txbuf valveFrame50 :=
  ⟨rfl, rfl, by decide, by decide, by decide, holds_valveFrame50 21⟩
theorem witness_ExtraTxRefuses :
    { base with localEnabled := false }.localEnabled = false ∧ base.sync ≠ .synced ∧ (synced 20).gap.toNat ≤ 20
    ∧ 210 ≤ (synced 210).gap.toNat
    ∧ (synced 100).localEnabled = true ∧ (synced 100).sync = .synced
    ∧ (demandAnswer { base.env with demand := [14] }).val < base.params.minReallyOpenPc.val := by decide
theorem witness_IsOpenAnswer : ((synced 9).sync = .synced ∧ { synced 9 with openBelief := true }.openBelief = true)
    ∧ ¬ (base.sync = .synced ∧ base.openBelief = true) := by decide
theorem witness_SyncHandshakeRun : ∃ (s : State) (hc1 hc2 : Byte) (r1 r2 : List Byte), s.localEnabled = true ∧ s.sync = .unsynced
    ∧ s.env.houseCode1 = List.replicate 122 hc1 ++ r1 ∧ s.env.houseCode2 = List.replicate 124 hc2 ++ r2 :=
  ⟨{ base with env := { Env.free with houseCode1 := List.replicate 122 0x0D ++ [], houseCode2 := List.replicate 124 0x49 ++ [] } },
    0x0D, 0x49, [], [], rfl, rfl, rfl, rfl⟩
/-- Slot 0 with `g = 0`, and the last slot with `g = 7`. -/
theorem witness_TransmissionSpacing :
    ((synced 230).localEnabled = true ∧ (synced 230).sync = .synced ∧ (synced 230).more = false
      ∧ (synced 230).slot ≤ (synced 230).params.maxSlot.val ∧ (synced 230).gap.toNat + (synced 230).slot = 230 + 0
      ∧ holdsPayload (synced 230).params (synced 230).txbuf valveFrame50 ∧ valveFrame50 ≠ [])
    ∧ (3 ≤ { synced 234 with slot := 3 }.params.maxSlot.val ∧ { synced 234 with slot := 3 }.gap.toNat + 3 = 230 + 7) :=
  ⟨⟨rfl, rfl, rfl, by decide, by decide, holds_valveFrame50 230, by decide +kernel⟩, by decide, by decide⟩
theorem witness_HubSwitches : base.hubEnabled = false ∧ { base with hubEnabled := true }.hubEnabled = true := by decide
theorem witness_HubPollWithoutFrame :
    statusAnswer { base.env with status := [⟨false, false⟩] } = ⟨false, false⟩
    ∧ statusAnswer { base.env with status := [⟨false, true⟩] } = ⟨false, true⟩
    ∧ { base with hubEnabled := true }.hubEnabled = true ∧ base.hubEnabled = false := by decide

/-- What `readFrame` answers in a state made by `hearing`. -/
def heardFrame (fr : List Byte) : List Byte := fr ++ List.replicate (46 - fr.length) 0

theorem witness_HubPollAccepts :
    let s := hearing frameC (by decide)
    s.hubEnabled = true ∧ statusAnswer s.env = ⟨true, false⟩ ∧ (frameAnswer (afterStatus s.env)).val = heardFrame frameC
    ∧ received (heardFrame frameC) ⟨0x0D, 0x49, 0x00, 0x26, 0x26⟩
    ∧ isCallForHeat s.params s.acl ⟨0x0D, 0x49, 0x00, 0x26, 0x26⟩ :=
  ⟨rfl, rfl, rfl, ⟨6, by decide +kernel, 0, (windowBits ((heardFrame frameC).drop 6)).drop 270, by decide +kernel⟩, rfl, by decide,
    Or.inl rfl⟩
theorem witness_HubPollRearms :
    let s := hearing frameB (by decide)
    s.hubEnabled = true ∧ statusAnswer s.env = ⟨true, false⟩ ∧ (frameAnswer (afterStatus s.env)).val = heardFrame frameB
    ∧ received (heardFrame frameB) ⟨0x0D, 0x49, 0x00, 0x26, 0x25⟩
    ∧ ¬ isCallForHeat s.params s.acl ⟨0x0D, 0x49, 0x00, 0x26, 0x25⟩ :=
  ⟨rfl, rfl, rfl, ⟨6, by decide +kernel, 0, (windowBits ((heardFrame frameB).drop 6)).drop 270, by decide +kernel⟩,
    by simp only [isCallForHeat]; decide⟩
theorem witness_HubPollDiscards :
    let s := hearing [0x5A, 0x5A] (by decide)
    s.hubEnabled = true ∧ statusAnswer s.env = ⟨true, false⟩ ∧ (frameAnswer (afterStatus s.env)).val = heardFrame [0x5A, 0x5A]
    ∧ ∀ c, ¬ received (heardFrame [0x5A, 0x5A]) c := by
  refine ⟨rfl, rfl, rfl, ?_⟩
  rintro c ⟨pos, h, _⟩
  have h1 : windowStart (heardFrame [0x5A, 0x5A]) = none := by decide
  rw [h1] at h; cases h
theorem witness_PreambleCheckPosition : preambleCheck [(0, 0xCC), (1, 0x5A)] = some 1
    ∧ preambleCheck (Memory.writeBytes [] 0 frameC) = some 6 := by decide +kernel
/-- Both readings of R269: a whole frame, and the 41-byte frame with `K = 11` behind six more preamble bytes. -/
theorem witness_HubLatchOnce :
    let c : Command := ⟨0x0D, 0x49, 0x00, 0x26, 0x26⟩
    let sent := Memory.bytes (encodeInto c []).1 0 (encodeInto c []).2
    (encodeInto c []).2 ≤ 46 ∧ (frameAnswer (afterStatus (hearing frameC (by decide)).env)).val = sent ++ List.replicate 5 0
    ∧ frameOnesHalf c (checksum c) ≤ 11
    ∧ (List.replicate 6 (0xCC : Byte) ++ (sent ++ []).take 40).length = 46
    ∧ statusAnswer (hearing frameC (by decide)).env = ⟨true, false⟩ ∧ (hearing frameC (by decide)).hubEnabled = true
    ∧ isCallForHeat (hearing frameC (by decide)).params [] c := by
  refine ⟨by decide +kernel, by decide +kernel, by decide +kernel, by decide +kernel, by decide +kernel, rfl, rfl, by decide,
    Or.inl rfl⟩
theorem witness_AcceptListOperations :
    (⟨1, 2⟩ : HouseCode) ∈ { base with acl := [⟨1, 2⟩] }.acl ∧ (⟨3, 4⟩ : HouseCode) ∉ { base with acl := [⟨1, 2⟩] }.acl
    ∧ [(⟨1, 2⟩ : HouseCode), ⟨5, 6⟩].length = base.params.aclCap ∧ base.acl.length ≠ base.params.aclCap ∧ base.acl = []
    ∧ ¬ ({ base with acl := [⟨1, 2⟩] }.acl = [] ∨ (⟨3, 4⟩ : HouseCode) ∈ { base with acl := [⟨1, 2⟩] }.acl) := by decide
theorem witness_ThresholdOnExtensionScale : (99 : Nat) < 100 ∧ 100 ≤ 100 := by decide
theorem witness_SlotFormulaBounds : (0 : Nat) ≤ base.params.maxSlot.val ∧ 3 ≤ base.params.maxSlot.val := by decide
theorem witness_ReservedRefused : (0x00 : BitVec 5) = 0x00 ∧ 0x14 ≤ (0x14 : BitVec 5).toNat
    ∧ 0x14 ≤ (0x1F : BitVec 5).toNat := by decide

theorem witness_RadioFollowsHub : ∃ t, RadioInv State.reset
    ∧ step (issueRequest State.reset (.hostop 0x0C [0x00])) = .next t ∧ RadioInv (issueRequest State.reset (.hostop 0x0C [0x00])) :=
  ⟨_, by simp [RadioInv, State.reset], rfl, by simp [RadioInv, State.reset, issueRequest]⟩
/-- A state that meets the scheduler's invariant, with a poll as its next request. -/
theorem witness_StepKeepsSchedulerInv : ∃ t, SchedulerInv (issueRequest (synced 237) (.hostop 0x05 []))
    ∧ step (issueRequest (synced 237) (.hostop 0x05 [])) = .next t :=
  ⟨_, ⟨by decide, (by intro h hh; cases hh), by decide, by decide, by decide, by decide, by decide⟩, rfl⟩
theorem witness_StepKeepsBufferInv : ∃ t, BufferInv (issueRequest base (.hostop 0x04 []))
    ∧ step (issueRequest base (.hostop 0x04 [])) = .next t :=
  ⟨_, ⟨by decide, by decide, by decide, fun _ _ => rfl, fun _ _ => rfl, fun _ _ => rfl, fun h => (by cases h),
    fun h => (by rcases h with ⟨_, h⟩ | ⟨_, h⟩ <;> cases h)⟩, rfl⟩
theorem witness_StepKeepsAclInv : ∃ t u, AclInv (issueRequest base (.hostop 0x10 [0x0D, 0x49]))
    ∧ step (issueRequest base (.hostop 0x10 [0x0D, 0x49])) = .next t
    ∧ exec .latchGetClear { base with latch := some ⟨1, 2⟩ } = .next u ∧ u.latch ≠ some ⟨1, 2⟩ :=
  ⟨_, _, ⟨by decide, by decide⟩, rfl, rfl, by decide⟩
/-- Two states that share parameters and count, one with an older frame in its buffer. -/
theorem witness_CodecSessionsTransient : CodecOp (.sym0 .encode) ∧ (synced 5).params = base.params
    ∧ (synced 5).failedDecodes = base.failedDecodes
    ∧ after (.sym0 .encode) base (fun t => decide (Memory.read t.callerBuf 0 ≠ Memory.read base.callerBuf 0)) = some true := by
  refine ⟨Or.inl ⟨_, rfl⟩, rfl, rfl, by decide +kernel⟩
theorem witness_ViolationsOnlyByOverrun :
    (∃ t, SchedulerInv base ∧ NoViolation base ∧ exec .pollFirst base = .next t)
    ∧ ∃ s t, SchedulerInv s ∧ NoViolation s ∧ exec .pollNext s = .next t ∧ Overrun .pollNext s :=
  ⟨⟨_, ⟨by decide, (by intro h hh; cases hh), by decide, by decide, by decide, by decide, by decide⟩, rfl, rfl⟩,
    ⟨{ synced 100 with more := true, slot := 3 }, _,
      ⟨by decide, (by intro h hh; cases hh), by decide, by decide, by decide, by decide, by decide⟩, rfl, rfl, rfl, rfl, rfl⟩⟩
theorem witness_BeliefWriters : ∃ t, exec .extraTx (synced 100) = .next t ∧ t.openBelief = true ∧ (synced 100).openBelief = false :=
  ⟨extraTx (synced 100), rfl, by decide +kernel, rfl⟩
theorem witness_TransmissionsBracketed : ∃ t, exec .extraTx (synced 100) = .next t ∧ Instr.extraTx ≠ .reset
    ∧ newTransmits (synced 100) t ≠ [] :=
  ⟨extraTx (synced 100), rfl, by decide, by decide +kernel⟩
theorem witness_StateOwners : ∃ t u v w, exec .valveBuild base = .next t ∧ t.txbuf ≠ base.txbuf
    ∧ exec .hubPoll (hearing frameC (by decide)) = .next u ∧ u.rxbuf ≠ (hearing frameC (by decide)).rxbuf
    ∧ exec .localDisable base = .next v ∧ v.localEnabled ≠ base.localEnabled
    ∧ exec .reset { base with logPPV := true, logRadioFault := true } = .next w ∧ w.logPPV = false ∧ w.logRadioFault = false :=
  ⟨respond (buildValveSet base) .none, hubPoll (hearing frameC (by decide)), _, _, rfl, by decide +kernel, rfl, by decide +kernel, rfl,
    by decide, rfl, rfl, rfl⟩

end Sys2Proof.Tests
end

section
/-! One step of the machine, said once: what it does with the next request, and how an invariant of `exec` becomes one of
`step` (R15, R70, R305). -/

namespace Sys2Proof.Machine

/-- Without a request nothing happens (R19, R190). -/
theorem step_of_inbox_nil {s : State} (h : s.inbox = []) : step s = .next s := by
  simp [step, fetchRequest, h]

/-- A request that decodes runs in the state in which it has been taken (R70). -/
theorem step_of_decode_ok {s : State} {r : Request} {rest : List Request} {i : Instr} (h : s.inbox = r :: rest)
    (hr : decodeRequest r = .ok i) : step s = exec i { s with inbox := rest } := by
  simp [step, fetchRequest, h, hr]

/-- A request that the decoder rejects is refused with that rejection (R305). -/
theorem step_of_decode_reject {s : State} {r : Request} {rest : List Request} {e : Reject} (h : s.inbox = r :: rest)
    (hr : decodeRequest r = .reject e) : step s = .refused (.outOfRange e) := by
  simp [step, fetchRequest, h, hr]

/-- Wire items, to be made or to be read, always decode: only a host request is rejected (R15, R112). -/
theorem hostop_of_decode_reject {r : Request} {e : Reject} (h : decodeRequest r = .reject e) :
    ∃ op args, r = .hostop op args := by
  cases r with
  | hostop op args => exact ⟨op, args, rfl⟩
  | makeSymbol | makeUnit | makeFrame | symbol | unit | frame | cmd => cases h

/-- Settles O4: one case per head of the inbox. -/
theorem stepRunsDecodedRequest : Obligations.StepRunsDecodedRequest := fun _ =>
  ⟨fun _ _ _ => step_of_decode_ok, fun _ _ _ => step_of_decode_reject, fun _ _ => hostop_of_decode_reject,
    step_of_inbox_nil⟩

/-- What a step that answers a next state has done: nothing, or the instruction its request decodes to. -/
theorem step_next_cases {s t : State} (h : step s = .next t) :
    (s.inbox = [] ∧ t = s)
    ∨ ∃ r rest i, s.inbox = r :: rest ∧ decodeRequest r = .ok i ∧ exec i { s with inbox := rest } = .next t := by
  cases hin : s.inbox with
  | nil =>
    rw [step_of_inbox_nil hin] at h
    exact .inl ⟨rfl, (Host.Outcome.next.inj h).symm⟩
  | cons r rest =>
    cases hr : decodeRequest r with
    | ok i => exact .inr ⟨r, rest, i, rfl, hr, by rwa [step_of_decode_ok hin hr] at h⟩
    | reject e => rw [step_of_decode_reject hin hr] at h; cases h

/-- A predicate that every instruction keeps, and that does not look at the inbox, is kept by every step. -/
theorem step_preserves {P : State → Prop} (hinbox : ∀ s rest, P s → P { s with inbox := rest })
    (hexec : ∀ i s t, P s → exec i s = .next t → P t) {s t : State} (hs : P s) (h : step s = .next t) : P t := by
  obtain ⟨_, rfl⟩ | ⟨_, rest, i, _, _, hi⟩ := step_next_cases h
  · exact hs
  · exact hexec i _ t (hinbox s rest hs) hi

end Sys2Proof.Machine
end

section
/-! How long units and frames are in raw bits and in bytes (R96 to R98, R100). -/

namespace Sys2Proof.Machine

/-- A symbol of a 0 has four raw bits, one of a 1 has six (R91). -/
theorem length_flatMap_symbolBits (l : List Bool) :
    (l.flatMap symbolBits).length = 4 * l.length + 2 * l.countP id := by
  induction l with
  | nil => rfl
  | cons v l ih =>
    cases v <;> simp [symbolBits, ih] <;> omega

/-- The XOR of a list of bits is the parity of its ones (R14). -/
theorem toNat_foldl_xor (l : List Bool) (p : Bool) : (l.foldl xor p).toNat = (p.toNat + l.countP id) % 2 := by
  induction l generalizing p with
  | nil => cases p <;> rfl
  | cons v l ih =>
    rw [List.foldl_cons, ih]
    cases v <;> cases p <;> simp <;> omega

/-- A unit with its parity bit holds an even number of ones, `2 k` of them (R96). -/
theorem popcount_add_parity8 (b : Byte) : popcount b + (parity8 b).toNat = 2 * unitOnesHalf b := by
  have hpar : (parity8 b).toNat = (false.toNat + popcount b) % 2 := toNat_foldl_xor (byteBits b) false
  rw [Bool.toNat_false, Nat.zero_add] at hpar
  rw [unitOnesHalf]
  omega

theorem unitOnesHalf_le (b : Byte) : unitOnesHalf b ≤ 4 := by
  have hcount : popcount b ≤ 8 := List.countP_le_length
  have hpar := Bool.toNat_le (parity8 b)
  rw [unitOnesHalf]
  omega

theorem unitOnesHalf_zero : unitOnesHalf 0 = 0 := by decide

/-- The raw bits of a good unit: 36, and 4 for each of its `k` (R96). -/
theorem length_unitBits (b : Byte) : (unitBits b (parity8 b)).length = 36 + 4 * unitOnesHalf b := by
  have hcount : (byteBits b).countP id = popcount b := rfl
  have hpar : [parity8 b].countP id = (parity8 b).toNat := by cases parity8 b <;> rfl
  have hlen : (byteBits b).length = 8 := rfl
  have heven := popcount_add_parity8 b
  rw [unitBits_eq_flatMap, length_flatMap_symbolBits, List.length_append, List.countP_append, hcount, hpar, hlen,
    List.length_singleton]
  omega

/-- The raw bits of a frame (R97, R98). -/
theorem length_frameBits (c : Command) :
    (frameBits c (checksum c)).length = 278 + 4 * frameOnesHalf c (checksum c) := by
  have hpre : preambleBits.length = 48 := by decide
  have hone : (symbolBits true).length = 6 := rfl
  have hzero : (symbolBits false).length = 4 := rfl
  simp only [frameBits, List.length_append, length_unitBits, hpre, hone, hzero, frameOnesHalf]
  omega

/-- A frame is as long as the length formula says (R98). -/
theorem length_framePacked (c : Command) : (framePacked c).length = frameLength c := by
  rw [framePacked, length_packBits, length_frameBits, frameLength]
  omega

/-- A unit's `k` is at most 4, and the address unit's counts for itself (R98). -/
theorem frameOnesHalf_le (c : Command) (chk : Byte) : frameOnesHalf c chk ≤ 20 + unitOnesHalf c.address := by
  have h1 := unitOnesHalf_le c.hc1
  have h2 := unitOnesHalf_le c.hc2
  have h3 := unitOnesHalf_le c.command
  have h4 := unitOnesHalf_le c.extension
  have h5 := unitOnesHalf_le chk
  rw [frameOnesHalf]
  omega

/-- Every frame fits 47 bytes (R100). -/
theorem frameLength_le (c : Command) : frameLength c ≤ 47 := by
  have hk := frameOnesHalf_le c (checksum c)
  have hadr := unitOnesHalf_le c.address
  rw [frameLength]
  omega

/-- A frame without address fits 45 bytes (R100, R107). -/
theorem frameLength_le_of_address_zero {c : Command} (h : c.address = 0x00) : frameLength c ≤ 45 := by
  have hk := frameOnesHalf_le c (checksum c)
  have hadr : unitOnesHalf c.address = 0 := by rw [h]; exact unitOnesHalf_zero
  rw [frameLength]
  omega

end Sys2Proof.Machine
end

section
/-! What a transmission and a build do to `TXBUF` and to the fields its invariant reads. -/

namespace Sys2Proof.Machine

@[simp] theorem tx_params (s : State) : (tx s).params = s.params := by rw [tx_eq]; split <;> rfl
@[simp] theorem tx_sync (s : State) : (tx s).sync = s.sync := by rw [tx_eq]; split <;> rfl
@[simp] theorem tx_txbuf (s : State) : (tx s).txbuf = s.txbuf := by rw [tx_eq]; split <;> rfl
@[simp] theorem tx_rxbuf (s : State) : (tx s).rxbuf = s.rxbuf := by rw [tx_eq]; split <;> rfl
@[simp] theorem tx_callerBuf (s : State) : (tx s).callerBuf = s.callerBuf := by rw [tx_eq]; split <;> rfl

@[simp] theorem build_params (cmd ext : Byte) (s : State) : (build cmd ext s).params = s.params := by rw [build_eq]
@[simp] theorem build_txbuf (cmd ext : Byte) (s : State) :
    (build cmd ext s).txbuf = (encodeInto (builtCommand s.env cmd ext) s.txbuf).1 := by rw [build_eq]

@[simp] theorem buildValveSet_params (s : State) : (buildValveSet s).params = s.params := by rw [buildValveSet_eq]
@[simp] theorem buildValveSet_rxbuf (s : State) : (buildValveSet s).rxbuf = s.rxbuf := by rw [buildValveSet_eq]
@[simp] theorem buildValveSet_callerBuf (s : State) : (buildValveSet s).callerBuf = s.callerBuf := by
  rw [buildValveSet_eq]
@[simp] theorem buildValveSet_txbuf (s : State) :
    (buildValveSet s).txbuf = (encodeInto
      (builtCommand (envAfterDemand s.env) Config.cmdValveSet (extOf (demandAnswer s.env).val)) s.txbuf).1 := by
  rw [buildValveSet_eq]

end Sys2Proof.Machine
end

section
/-! The buffer invariant in two parts: what holds of one buffer alone (R9, R60, R137), and what `TXBUF` holds in each sync
state (R177, R212). -/

namespace Sys2Proof.Safety

open Sys2Proof.Machine

/-- A buffer of `cap` bytes: canonical, and nothing written from byte `cap` on. -/
def BoundedBy (cap : Nat) (m : Memory) : Prop :=
  Memory.wf m = true ∧ ∀ a, cap ≤ a → Memory.read m a = Memory.blank

/-- What `TXBUF` holds in a sync state: a valve-set frame while synced (R212), a sync-step or valve-set frame during the
handshake (R177). -/
def TxHolds (m : Memory) : Sync → Prop
  | .unsynced => True
  | .burst _ | .finalWait _ => ∃ hc1 hc2 cmd ext, holdsFrame m ⟨hc1, hc2, 0x00, cmd, ext⟩ ∧ (cmd = 0x2C ∨ cmd = 0x26)
  | .synced => ∃ hc1 hc2 ext, holdsFrame m ⟨hc1, hc2, 0x00, 0x26, ext⟩

/-- The clauses of `BufferInv` on `TXBUF`. -/
structure TxInv (s : State) : Prop where
  bounded : BoundedBy (bufCap s.params) s.txbuf
  holds : TxHolds s.txbuf s.sync

theorem bufferInv_iff (s : State) :
    BufferInv s ↔ TxInv s ∧ BoundedBy Config.rxBufCap s.rxbuf ∧ BoundedBy Config.callerCap s.callerBuf := by
  constructor
  · intro h
    refine ⟨⟨⟨h.tx_wf, h.tx_cap⟩, ?_⟩, ⟨h.rx_wf, h.rx_cap⟩, ⟨h.caller_wf, h.caller_cap⟩⟩
    cases hs : s.sync with
    | unsynced => trivial
    | burst c => exact h.handshake (.inl ⟨c, hs⟩)
    | finalWait w => exact h.handshake (.inr ⟨w, hs⟩)
    | synced => exact h.synced hs
  · rintro ⟨⟨⟨htwf, htcap⟩, hold⟩, ⟨hrwf, hrcap⟩, ⟨hcwf, hccap⟩⟩
    refine ⟨htwf, hrwf, hcwf, htcap, hrcap, hccap, fun hs => by rwa [hs] at hold, ?_⟩
    rintro (⟨c, hs⟩ | ⟨w, hs⟩) <;> rwa [hs] at hold

/-! ## One buffer -/

theorem boundedBy_nil (cap : Nat) : BoundedBy cap [] := ⟨Memory.wf_empty, fun _ _ => rfl⟩

/-- A finished session stays in its buffer when its packed bits do: the terminator reads as an unwritten byte does, so it
may even stand one byte beyond (R135). -/
theorem BoundedBy.finishFrame {cap : Nat} {m : Memory} (h : BoundedBy cap m) {bits : List Bool}
    (hlen : (bits.length + 7) / 8 ≤ cap) : BoundedBy cap (finishFrame (appendRaw ⟨m, 0⟩ bits)).1 := by
  refine ⟨finishFrame_wf m bits h.1, fun a ha => ?_⟩
  rw [finishFrame_read, if_neg (by rw [length_packBits]; omega)]
  split
  · rfl
  · exact h.2 a ha

theorem BoundedBy.encodeInto {cap : Nat} {m : Memory} (h : BoundedBy cap m) {c : Command} (hlen : frameLength c ≤ cap) :
    BoundedBy cap (encodeInto c m).1 := by
  rw [encodeInto_eq]
  exact h.finishFrame (by rwa [← length_packBits, ← framePacked, length_framePacked])

theorem BoundedBy.writeBytes {cap : Nat} {m : Memory} (h : BoundedBy cap m) {bs : List Byte} (hlen : bs.length ≤ cap) :
    BoundedBy cap (Memory.writeBytes m 0 bs) := by
  refine ⟨Memory.wf_writeBytes bs m 0 h.1, fun a ha => ?_⟩
  rw [Memory.read_writeBytes, if_neg (by omega), h.2 a ha]

/-- `TXBUF` has room for every frame without address (R9, R100). -/
theorem BoundedBy.built {P : Config.Params} {m : Memory} (h : BoundedBy (bufCap P) m) (e : Env) (cmd ext : Byte) :
    BoundedBy (bufCap P) (Machine.encodeInto (builtCommand e cmd ext) m).1 := by
  have hlen : frameLength (builtCommand e cmd ext) ≤ 45 := frameLength_le_of_address_zero rfl
  refine h.encodeInto (hlen.trans ?_)
  rw [bufCap]
  split <;> decide

/-! ## `TXBUF` in each sync state -/

theorem encodeInto_holdsFrame (c : Command) (m : Memory) : holdsFrame (encodeInto c m).1 c :=
  buildsFrame.holds (encodeInto_builds c m)

/-- A valve-set frame is right in every sync state (R177, R212). -/
theorem txHolds_valveSet (e : Env) (ext : Byte) (m : Memory) (y : Sync) :
    TxHolds (encodeInto (builtCommand e Config.cmdValveSet ext) m).1 y := by
  have hold := encodeInto_holdsFrame (builtCommand e Config.cmdValveSet ext) m
  cases y with
  | unsynced => trivial
  | burst c => exact ⟨_, _, _, _, hold, .inr rfl⟩
  | finalWait w => exact ⟨_, _, _, _, hold, .inr rfl⟩
  | synced => exact ⟨_, _, _, hold⟩

/-- A sync-step frame is right in every state but `SYNCED` (R177). -/
theorem txHolds_syncStep (e : Env) (ext : Byte) (m : Memory) {y : Sync} (hy : y ≠ .synced) :
    TxHolds (encodeInto (builtCommand e Config.cmdSyncStep ext) m).1 y := by
  have hold := encodeInto_holdsFrame (builtCommand e Config.cmdSyncStep ext) m
  cases y with
  | unsynced => trivial
  | burst c => exact ⟨_, _, _, _, hold, .inl rfl⟩
  | finalWait w => exact ⟨_, _, _, _, hold, .inl rfl⟩
  | synced => exact absurd rfl hy

theorem TxInv.of_same {s t : State} (h : TxInv s) (hp : t.params = s.params) (hm : t.txbuf = s.txbuf)
    (hy : t.sync = s.sync) : TxInv t :=
  ⟨by rw [hp, hm]; exact h.bounded, by rw [hm, hy]; exact h.holds⟩

/-- A return to `UNSYNCED` asks nothing of the frame in `TXBUF`. -/
theorem TxInv.of_unsynced {s t : State} (h : TxInv s) (hp : t.params = s.params) (hm : t.txbuf = s.txbuf)
    (hy : t.sync = .unsynced) : TxInv t :=
  ⟨by rw [hp, hm]; exact h.bounded, by rw [hy]; trivial⟩

end Sys2Proof.Safety
end

section
/-! One slot's work keeps the clauses on `TXBUF` (R194 to R201). -/

namespace Sys2Proof.Safety

open Sys2Proof.Machine

/-- Behind a sync-step frame in `TXBUF` any state but `SYNCED` may follow (R177). -/
theorem TxInv.of_syncStep {s t : State} (h : TxInv s) (e : Env) (ext : Byte) (hp : t.params = s.params)
    (hm : t.txbuf = (encodeInto (builtCommand e Config.cmdSyncStep ext) s.txbuf).1) (hy : t.sync ≠ .synced) : TxInv t :=
  ⟨by rw [hp, hm]; exact h.bounded.built e _ ext, by rw [hm]; exact txHolds_syncStep e ext s.txbuf hy⟩

/-- A burst poll leaves a sync-step frame, and the handshake goes on (R197). -/
theorem TxInv.burstStep {s : State} (h : TxInv s) (c : Countdown) : TxInv (burstStep c s).2 := by
  rw [burstStep_eq]
  by_cases hc : c.val = 3
  · rw [dif_pos hc]
    exact h.of_syncStep s.env c.val (by simp [buildSyncStep]) (by simp [buildSyncStep]) nofun
  · rw [dif_neg hc]
    exact h.of_syncStep s.env c.val (by simp [buildSyncStep]) (by simp [buildSyncStep]) nofun

/-- The end of the handshake builds the final frame, and over it the valve-set frame that `SYNCED` asks for (R199). -/
theorem TxInv.syncFinalActions {s : State} (h : TxInv s) : TxInv (syncFinalActions s) := by
  have hb := h.bounded.built s.env Config.cmdSyncFinal 0x00
  constructor
  · simpa [Machine.syncFinalActions, buildSyncFinal] using hb.built _ Config.cmdValveSet _
  · simpa [Machine.syncFinalActions, buildSyncFinal] using txHolds_valveSet _ _ _ _

theorem TxInv.violation {s : State} (h : TxInv s) : TxInv (violation s) := h.of_unsynced rfl rfl rfl

/-- A wait that goes on waits on the same frame (R198). -/
theorem TxInv.finalStep {s : State} (h : TxInv s) {w : Byte} (hs : s.sync = .finalWait w) : TxInv (finalStep w s).2 := by
  unfold Machine.finalStep
  split
  · exact h.violation
  · split
    · have hold := h.holds
      rw [hs] at hold
      exact ⟨h.bounded, hold⟩
    · exact h.syncFinalActions

/-- A synced poll rebuilds nothing: the frame it sends stays in `TXBUF` (R201, R212). -/
theorem TxInv.syncedStep {s : State} (h : TxInv s) (first : Bool) : TxInv (syncedStep first s).2 := by
  unfold Machine.syncedStep
  split
  · exact h.violation
  · split
    · exact h.of_same rfl rfl rfl
    · dsimp only
      split
      · exact h.of_same rfl rfl rfl
      · exact h.of_same (by simp [valveTxActions]) (by simp [valveTxActions]) (by simp [valveTxActions])

theorem TxInv.slotStep {s : State} (h : TxInv s) (first : Bool) : TxInv (slotStep first s).2 := by
  unfold Machine.slotStep
  split
  · exact h.of_unsynced rfl rfl rfl
  · cases hs : s.sync with
    | unsynced => exact h.burstStep burstStart
    | burst c => exact h.burstStep c
    | finalWait w => exact h.finalStep hs
    | synced => exact h.syncedStep first

end Sys2Proof.Safety
end

section
/-! Every instruction keeps the buffer invariant, family by family. -/

namespace Sys2Proof.Safety

open Sys2Proof.Machine

/-- Everything the buffer invariant reads is as before. -/
def SameBuffers (s t : State) : Prop :=
  t.params = s.params ∧ t.sync = s.sync ∧ t.txbuf = s.txbuf ∧ t.rxbuf = s.rxbuf ∧ t.callerBuf = s.callerBuf

theorem BufferInv.of_same {s t : State} (h : BufferInv s) (hst : SameBuffers s t) : BufferInv t := by
  obtain ⟨hp, hy, htx, hrx, hcb⟩ := hst
  rw [bufferInv_iff] at h ⊢
  obtain ⟨ht, hr, hc⟩ := h
  exact ⟨ht.of_same hp htx hy, by rwa [hrx], by rwa [hcb]⟩

theorem BufferInv.respond {s : State} (h : BufferInv s) (a : Answer) : BufferInv (respond s a) :=
  h.of_same ⟨rfl, rfl, rfl, rfl, rfl⟩

/-- What the scheduler does reaches `TXBUF` alone. -/
theorem BufferInv.of_txInv {s t : State} (h : BufferInv s) (ht : TxInv s → TxInv t) (hrx : t.rxbuf = s.rxbuf)
    (hcb : t.callerBuf = s.callerBuf) : BufferInv t := by
  rw [bufferInv_iff] at h ⊢
  obtain ⟨htx, hr, hc⟩ := h
  exact ⟨ht htx, by rwa [hrx], by rwa [hcb]⟩

/-! ## The codec -/

/-- A session over the caller's buffer, ended by `FINISH`, that has room there (R60, R135). -/
theorem BufferInv.storeBuilt {s : State} (h : BufferInv s) {bits : List Bool}
    (hlen : (bits.length + 7) / 8 ≤ Config.callerCap) :
    BufferInv (storeBuilt (finishFrame (appendRaw ⟨s.callerBuf, 0⟩ bits)) s) := by
  rw [bufferInv_iff] at h ⊢
  obtain ⟨htx, hrx, hcb⟩ := h
  exact ⟨htx.of_same rfl rfl rfl, hrx, hcb.finishFrame hlen⟩

theorem BufferInv.runSymbol {s : State} (h : BufferInv s) (v : Bool) (side : WireSide) :
    BufferInv (runSymbol v side s) := by
  cases side with
  | encode => exact h.storeBuilt (by cases v <;> decide)
  | decode => exact h.respond _
  | broken w => exact h.respond _

theorem BufferInv.makeUnit {s : State} (h : BufferInv s) (b : Byte) : BufferInv (makeUnit b s) := by
  have hk := unitOnesHalf_le b
  rw [Machine.makeUnit, encUnit_eq]
  exact h.storeBuilt (by rw [length_unitBits, Config.callerCap]; omega)

theorem BufferInv.encodeToCaller {s : State} (h : BufferInv s) (c : Command) : BufferInv (encodeToCaller c s) := by
  have hlen := frameLength_le c
  rw [Machine.encodeToCaller, encodeInto_eq]
  exact h.storeBuilt (by rw [← length_packBits, ← framePacked, length_framePacked, Config.callerCap]; omega)

theorem BufferInv.decodeToAnswer {s : State} (h : BufferInv s) (w : List Byte) : BufferInv (decodeToAnswer w s) := by
  rw [decodeToAnswer_eq]
  split <;> exact h.of_same ⟨rfl, rfl, rfl, rfl, rfl⟩

theorem BufferInv.runCommand {s : State} (h : BufferInv s) (cmd : Byte) (side : Side) (src : HouseCode) (ext : Byte) :
    BufferInv (runCommand cmd side src ext s) := by
  cases side with
  | encode => exact h.encodeToCaller _
  | decode => exact h.decodeToAnswer _

/-! ## The scheduler -/

theorem BufferInv.buildValveSet {s : State} (h : BufferInv s) : BufferInv (buildValveSet s) := by
  refine h.of_txInv (fun htx => ⟨?_, ?_⟩) (by simp) (by simp)
  · simpa using htx.bounded.built _ Config.cmdValveSet _
  · simpa using txHolds_valveSet _ _ _ _

theorem BufferInv.slotStep {s : State} (h : BufferInv s) (first : Bool) : BufferInv (slotStep first s).2 := by
  obtain ⟨_, _, _, _, hrx, _, _, _, hcb, _, _⟩ := slotStep_untouched first s
  exact h.of_txInv (fun htx => htx.slotStep first) hrx hcb

theorem BufferInv.pollAnswer {r : Bool × State} (h : BufferInv r.2) : BufferInv (pollAnswer r) :=
  h.of_same ⟨rfl, rfl, rfl, rfl, rfl⟩

/-- The slot's work of a poll, whatever its slot counter (R192, R193). -/
theorem BufferInv.pollSlot {s : State} (h : BufferInv s) (first : Bool) (slot : Nat) :
    BufferInv (Machine.pollAnswer (Machine.slotStep first { s with slot := slot })) := by
  have hslot : BufferInv { s with slot := slot } := h.of_same ⟨rfl, rfl, rfl, rfl, rfl⟩
  exact (hslot.slotStep first).pollAnswer

theorem BufferInv.pollNext {s : State} (h : BufferInv s) : BufferInv (pollNext s) := by
  obtain ⟨_, heq⟩ | ⟨_, _, heq⟩ | ⟨_, _, heq⟩ := pollNext_cases s <;> rw [heq]
  · exact h.respond _
  · exact (h.of_txInv TxInv.violation rfl rfl).respond _
  · exact h.pollSlot false _

/-- `SYNC_RESET`'s writes leave the buffers and ask nothing of them (R207). -/
theorem BufferInv.clearSync {s : State} (h : BufferInv s) : BufferInv (clearSync s) :=
  h.of_txInv (fun htx => htx.of_unsynced rfl rfl rfl) rfl rfl

theorem extraTx_sameBuffers (s : State) : SameBuffers s (extraTx s) := by
  unfold extraTx
  split
  · simp [SameBuffers]
  · split
    · simp [SameBuffers]
    · split
      · simp [SameBuffers]
      · dsimp only
        split <;> simp [SameBuffers]

/-! ## The hub receiver -/

theorem receiveCommand_sameBuffers (c : Command) (s : State) : SameBuffers s (receiveCommand c s) := by
  unfold receiveCommand
  split <;> simp [SameBuffers]

theorem receiveFrame_sameBuffers (s : State) : SameBuffers s (receiveFrame s) := by
  unfold receiveFrame
  split
  · simp [SameBuffers]
  · dsimp only
    split
    · simp [SameBuffers]
    · exact receiveCommand_sameBuffers _ s

theorem logRadioFaultIf_sameBuffers (fault : Bool) (s : State) : SameBuffers s (logRadioFaultIf fault s) := by
  cases fault <;> simp [logRadioFaultIf, SameBuffers]

/-- A received frame has 46 bytes, as many as `RXBUF` (R9, R80). -/
theorem BufferInv.readFrame {s : State} (h : BufferInv s) : BufferInv (readFrame s) := by
  rw [bufferInv_iff] at h ⊢
  obtain ⟨htx, hrx, hcb⟩ := h
  exact ⟨htx.of_same rfl rfl rfl, hrx.writeBytes (le_of_eq (frameAnswer s.env).property), hcb⟩

theorem BufferInv.hubPoll {s : State} (h : BufferInv s) : BufferInv (hubPoll s) := by
  have hst : BufferInv (readStatus s).2 := h.of_same ⟨rfl, rfl, rfl, rfl, rfl⟩
  have hlog := hst.of_same (logRadioFaultIf_sameBuffers (readStatus s).1.fifoFault _)
  unfold Machine.hubPoll
  split
  · exact h.respond _
  · dsimp only
    split
    · exact hlog.readFrame.of_same (receiveFrame_sameBuffers _)
    · split
      · exact hlog.of_same (by simp [SameBuffers])
      · exact hlog.respond _

theorem execHubEnable_sameBuffers {force : Bool} {s t : State} (h : execHubEnable force s = .next t) :
    SameBuffers s t := by
  obtain rfl := Host.Outcome.next.inj h
  split <;> simp [SameBuffers]

theorem execHubDisable_sameBuffers {s t : State} (h : execHubDisable s = .next t) : SameBuffers s t := by
  obtain rfl := Host.Outcome.next.inj h
  split <;> simp [SameBuffers]

theorem execAclAdd_sameBuffers {hc : HouseCode} {s t : State} (h : execAclAdd hc s = .next t) : SameBuffers s t := by
  obtain rfl := Host.Outcome.next.inj h
  split
  · simp [SameBuffers]
  · split <;> simp [SameBuffers]

/-! ## Reset, and every instruction -/

/-- `RESET` empties `TXBUF` and leaves the other buffers (R340). -/
theorem BufferInv.resetBlock {s : State} (h : BufferInv s) : BufferInv (resetBlock s) :=
  h.of_txInv (fun _ => ⟨boundedBy_nil _, trivial⟩) rfl rfl

theorem BufferInv.exec {i : Instr} {s t : State} (h : BufferInv s) (ht : exec i s = .next t) : BufferInv t := by
  cases i with
  | sym0 side => obtain rfl := Host.Outcome.next.inj ht; exact h.runSymbol false side
  | sym1 side => obtain rfl := Host.Outcome.next.inj ht; exact h.runSymbol true side
  | unit side b p =>
    cases side with
    | encode => obtain rfl := Host.Outcome.next.inj ht; exact h.makeUnit b
    | decode => obtain rfl := Host.Outcome.next.inj ht; exact h.respond _
    | broken w => obtain rfl := Host.Outcome.next.inj ht; exact h.respond _
  | frame side c chk =>
    cases side with
    | encode => obtain rfl := Host.Outcome.next.inj ht; exact h.encodeToCaller _
    | decode => obtain rfl := Host.Outcome.next.inj ht; exact h.decodeToAnswer _
    | broken w => obtain rfl := Host.Outcome.next.inj ht; exact h.decodeToAnswer w
  | valveSet side src ext => obtain rfl := Host.Outcome.next.inj ht; exact h.runCommand _ side src ext
  | syncStep side src ext => obtain rfl := Host.Outcome.next.inj ht; exact h.runCommand _ side src ext
  | syncFinal side src ext => obtain rfl := Host.Outcome.next.inj ht; exact h.runCommand _ side src ext
  | encode c => obtain rfl := Host.Outcome.next.inj ht; exact h.encodeToCaller _
  | decode w => obtain rfl := Host.Outcome.next.inj ht; exact h.decodeToAnswer w
  | reset => obtain rfl := Host.Outcome.next.inj ht; exact h.resetBlock.respond _
  | valveBuild => obtain rfl := Host.Outcome.next.inj ht; exact h.buildValveSet.respond _
  | pollFirst => obtain rfl := Host.Outcome.next.inj ht; exact h.pollSlot true 0
  | pollNext => obtain rfl := Host.Outcome.next.inj ht; exact h.pollNext
  | extraTx => obtain rfl := Host.Outcome.next.inj ht; exact h.of_same (extraTx_sameBuffers s)
  | syncReset => obtain rfl := Host.Outcome.next.inj ht; exact h.clearSync.respond _
  | localDisable =>
    obtain rfl := Host.Outcome.next.inj ht
    have hdis : BufferInv { s with localEnabled := false } := h.of_same ⟨rfl, rfl, rfl, rfl, rfl⟩
    exact hdis.clearSync.respond _
  | hubEnable force => exact h.of_same (execHubEnable_sameBuffers ht)
  | hubDisable => exact h.of_same (execHubDisable_sameBuffers ht)
  | hubPoll => obtain rfl := Host.Outcome.next.inj ht; exact h.hubPoll
  | aclAdd hc => exact h.of_same (execAclAdd_sameBuffers ht)
  | localEnable | isOpen | latchGetClear | aclRemove | aclQuery | aclCount =>
    obtain rfl := Host.Outcome.next.inj ht
    exact h.of_same ⟨rfl, rfl, rfl, rfl, rfl⟩
  | reserved code => cases ht

/-- Settles O53: every instruction keeps the invariant, and taking a request touches no buffer. -/
theorem stepKeepsBufferInv : Obligations.StepKeepsBufferInv := fun _ _ hs h =>
  step_preserves (fun _ _ hb => hb.of_same ⟨rfl, rfl, rfl, rfl, rfl⟩) (fun _ _ _ hb ht => hb.exec ht) hs h

end Sys2Proof.Safety
end

section
/-! What every instruction can do, said once: each family's outcomes, with the guards an invariant turns on, and the
inversion of `exec` into the families. The proofs about invariants and owners start here and unfold no instruction. -/

namespace Sys2Proof.Machine

open Sys2Proof.Safety

/-! ## More fields that the parts of a slot's work leave alone (R171, R206) -/

@[simp] theorem tx_slot (s : State) : (tx s).slot = s.slot := by rw [tx_eq]; split <;> rfl
@[simp] theorem tx_gap (s : State) : (tx s).gap = s.gap := by rw [tx_eq]; split <;> rfl
@[simp] theorem tx_localEnabled (s : State) : (tx s).localEnabled = s.localEnabled := by rw [tx_eq]; split <;> rfl
@[simp] theorem tx_openBelief (s : State) : (tx s).openBelief = s.openBelief := by rw [tx_eq]; split <;> rfl
@[simp] theorem tx_logPPV (s : State) : (tx s).logPPV = s.logPPV := by rw [tx_eq]; split <;> rfl

@[simp] theorem build_slot (cmd ext : Byte) (s : State) : (build cmd ext s).slot = s.slot := by rw [build_eq]
@[simp] theorem build_gap (cmd ext : Byte) (s : State) : (build cmd ext s).gap = s.gap := by rw [build_eq]
@[simp] theorem build_localEnabled (cmd ext : Byte) (s : State) : (build cmd ext s).localEnabled = s.localEnabled := by
  rw [build_eq]
@[simp] theorem build_openBelief (cmd ext : Byte) (s : State) : (build cmd ext s).openBelief = s.openBelief := by
  rw [build_eq]
@[simp] theorem build_logPPV (cmd ext : Byte) (s : State) : (build cmd ext s).logPPV = s.logPPV := by rw [build_eq]

@[simp] theorem buildValveSet_sync (s : State) : (buildValveSet s).sync = s.sync := by rw [buildValveSet_eq]
@[simp] theorem buildValveSet_slot (s : State) : (buildValveSet s).slot = s.slot := by rw [buildValveSet_eq]
@[simp] theorem buildValveSet_gap (s : State) : (buildValveSet s).gap = s.gap := by rw [buildValveSet_eq]
@[simp] theorem buildValveSet_more (s : State) : (buildValveSet s).more = s.more := by rw [buildValveSet_eq]
@[simp] theorem buildValveSet_localEnabled (s : State) : (buildValveSet s).localEnabled = s.localEnabled := by
  rw [buildValveSet_eq]
@[simp] theorem buildValveSet_openBelief (s : State) : (buildValveSet s).openBelief = s.openBelief := by
  rw [buildValveSet_eq]
@[simp] theorem buildValveSet_logPPV (s : State) : (buildValveSet s).logPPV = s.logPPV := by rw [buildValveSet_eq]

/-! ## What a family leaves alone -/

/-- The parameters and the scheduler's registers are as before (R20, R75). -/
structure SchedulerKept (s t : State) : Prop where
  params : t.params = s.params
  sync : t.sync = s.sync
  slot : t.slot = s.slot
  gap : t.gap = s.gap
  more : t.more = s.more
  localEnabled : t.localEnabled = s.localEnabled
  openBelief : t.openBelief = s.openBelief
  logPPV : t.logPPV = s.logPPV

/-- What no instruction of the hub receiver changes: the scheduler's registers, `TXBUF` and the caller's buffer. -/
structure HubFrame (s t : State) : Prop extends SchedulerKept s t where
  txbuf : t.txbuf = s.txbuf
  callerBuf : t.callerBuf = s.callerBuf

/-- What no instruction of the scheduler or the frame builder changes: the hub receiver's registers, `RXBUF` and the
caller's buffer. -/
structure SchedulerFrame (s t : State) : Prop where
  params : t.params = s.params
  hubEnabled : t.hubEnabled = s.hubEnabled
  rxbuf : t.rxbuf = s.rxbuf
  latch : t.latch = s.latch
  acl : t.acl = s.acl
  logRadioFault : t.logRadioFault = s.logRadioFault
  callerBuf : t.callerBuf = s.callerBuf

/-! ## One slot's work -/

/-- The burst poll with countdown `c` is due: at the entry of the handshake or in its burst (R194, R196). -/
def BurstDue (s : State) (c : Countdown) : Prop := (s.sync = .unsynced ∧ c = burstStart) ∨ s.sync = .burst c

theorem BurstDue.not_synced {s : State} {c : Countdown} (h : BurstDue s c) : s.sync ≠ .synced := by
  rintro hs
  rcases h with ⟨hu, _⟩ | hb
  · rw [hs] at hu; cases hu
  · rw [hs] at hb; cases hb

/-- The outcomes of one slot's work: what it answers and where it ends (R194 to R201, R304). -/
inductive SlotWork (first : Bool) (s : State) : Bool × State → Prop where
  | disabled (hen : s.localEnabled = false) : SlotWork first s (false, { s with sync := .unsynced })
  | burstLast (c : Countdown) (hen : s.localEnabled = true) (hdue : BurstDue s c) (hc : c.val = 3) :
      SlotWork first s (true, { (getHouseCode2 (tx (buildSyncStep c.val s))).2 with
        sync := .finalWait (finalWaitOf (getHouseCode2 (tx (buildSyncStep c.val s))).1 s.slot) })
  | burstNext (c : Countdown) (hen : s.localEnabled = true) (hdue : BurstDue s c) (hc : c.val ≠ 3) :
      SlotWork first s (true, { tx (buildSyncStep c.val s) with sync := .burst (burstNext c hc) })
  | waitZero (hen : s.localEnabled = true) (hs : s.sync = .finalWait 0) : SlotWork first s (false, violation s)
  | waitNext (w : Byte) (hen : s.localEnabled = true) (hs : s.sync = .finalWait w) (hw : 1 < w.toNat) :
      SlotWork first s (true, { s with sync := .finalWait (w - 1) })
  | waitLast (hen : s.localEnabled = true) (hs : s.sync = .finalWait 1) : SlotWork first s (false, syncFinalActions s)
  | gapZero (hen : s.localEnabled = true) (hs : s.sync = .synced) (hg : s.gap = 0) :
      SlotWork first s (false, violation s)
  | gapCycle (hen : s.localEnabled = true) (hs : s.sync = .synced) (hfirst : first = true)
      (hg : nSlots s.params < s.gap.toNat) :
      SlotWork first s (false, { s with gap := s.gap - BitVec.ofNat 8 (nSlots s.params) })
  | gapNext (hen : s.localEnabled = true) (hs : s.sync = .synced)
      (hfirst : first = true → s.gap.toNat ≤ nSlots s.params) (hg : 1 < s.gap.toNat) :
      SlotWork first s (true, { s with gap := s.gap - 1 })
  | gapLast (hen : s.localEnabled = true) (hs : s.sync = .synced) (hg : s.gap = 1) :
      SlotWork first s (false, valveTxActions { s with gap := 0 })

theorem burstStep_work {first : Bool} {s : State} {c : Countdown} (hen : s.localEnabled = true) (hdue : BurstDue s c) :
    SlotWork first s (burstStep c s) := by
  have hslot : (tx (buildSyncStep c.val s)).slot = s.slot := by simp [buildSyncStep]
  rw [burstStep_eq]
  dsimp only
  by_cases hc : c.val = 3
  · rw [dif_pos hc, hslot]
    exact .burstLast c hen hdue hc
  · rw [dif_neg hc]
    exact .burstNext c hen hdue hc

theorem byte_eq_zero_or_one_or_lt (b : Byte) : b = 0 ∨ b = 1 ∨ 1 < b.toNat ∧ (b - 1).toNat = b.toNat - 1 := by
  by_cases h0 : b = 0
  · exact .inl h0
  · by_cases h1 : b = 1
    · exact .inr (.inl h1)
    · exact .inr (.inr (by bv_omega))

theorem finalStep_work {first : Bool} {s : State} {w : Byte} (hen : s.localEnabled = true)
    (hs : s.sync = .finalWait w) : SlotWork first s (finalStep w s) := by
  obtain rfl | rfl | ⟨hw, hsub⟩ := byte_eq_zero_or_one_or_lt w
  · exact .waitZero hen hs
  · exact .waitLast hen hs
  · have h0 : w ≠ 0 := by rintro rfl; simp at hw
    rw [finalStep, if_neg h0, if_pos (by omega)]
    exact .waitNext w hen hs hw

theorem syncedStep_work {first : Bool} {s : State} (hen : s.localEnabled = true) (hs : s.sync = .synced) :
    SlotWork first s (syncedStep first s) := by
  unfold syncedStep
  by_cases h0 : s.gap = 0
  · rw [if_pos h0]
    exact .gapZero hen hs h0
  rw [if_neg h0]
  by_cases hcycle : first = true ∧ nSlots s.params < s.gap.toNat
  · obtain ⟨hfirst, hg⟩ := hcycle
    rw [if_pos ⟨hfirst, hg⟩]
    exact .gapCycle hen hs hfirst hg
  rw [if_neg hcycle]
  have hfirst : first = true → s.gap.toNat ≤ nSlots s.params := fun hf => not_lt.1 fun hg => hcycle ⟨hf, hg⟩
  obtain hg | hg | ⟨hg, hsub⟩ := byte_eq_zero_or_one_or_lt s.gap
  · exact absurd hg h0
  · simpa [hg] using SlotWork.gapLast (first := first) hen hs hg
  · have hpos : 0 < (s.gap - 1).toNat := by omega
    simpa only [if_pos hpos] using SlotWork.gapNext (first := first) hen hs hfirst hg

/-- Every slot's work is one of these (R194). -/
theorem slotStep_work (first : Bool) (s : State) : SlotWork first s (slotStep first s) := by
  unfold slotStep
  split
  · next hoff => exact .disabled (by simpa using hoff)
  · next hon =>
    have hen : s.localEnabled = true := by simpa using hon
    cases hs : s.sync with
    | unsynced => exact burstStep_work hen (.inl ⟨hs, rfl⟩)
    | burst c => exact burstStep_work hen (.inr hs)
    | finalWait w => exact finalStep_work hen hs
    | synced => exact syncedStep_work hen hs

/-! ## The scheduler and the frame builder -/

/-- The outcomes of an instruction of the scheduler or the frame builder (R176, R192 to R209, R240). -/
inductive SchedulerWork (s : State) : Instr → State → Prop where
  | valveBuilt : SchedulerWork s .valveBuild (respond (buildValveSet s) .none)
  | firstSlot : SchedulerWork s .pollFirst (pollAnswer (slotStep true { s with slot := 0 }))
  | notDue (hmore : s.more = false) : SchedulerWork s .pollNext (respond s (.flag false))
  | overrun (hmore : s.more = true) (hslot : s.slot = s.params.maxSlot.val) :
      SchedulerWork s .pollNext (respond (violation s) (.flag false))
  | nextSlot (hmore : s.more = true) (hslot : s.slot ≠ s.params.maxSlot.val) :
      SchedulerWork s .pollNext (pollAnswer (slotStep false { s with slot := s.slot + 1 }))
  | extraRefused : SchedulerWork s .extraTx (respond s (.flag false))
  | extraClosed (hen : s.localEnabled = true) (hs : s.sync = .synced) :
      SchedulerWork s .extraTx (respond (getDemand s).2 (.flag false))
  | extraSent (hen : s.localEnabled = true) (hs : s.sync = .synced) :
      SchedulerWork s .extraTx (respond { tx (getDemand s).2 with openBelief := true } (.flag true))
  | syncCleared : SchedulerWork s .syncReset (respond (clearSync s) .none)
  | localOff : SchedulerWork s .localDisable (respond (clearSync { s with localEnabled := false }) .none)
  | localOn : SchedulerWork s .localEnable (respond { s with localEnabled := true } .none)
  | openAsked : SchedulerWork s .isOpen (respond s (.flag (isOpen s)))

theorem pollNext_work (s : State) : SchedulerWork s .pollNext (pollNext s) := by
  obtain ⟨hmore, heq⟩ | ⟨hmore, hslot, heq⟩ | ⟨hmore, hslot, heq⟩ := pollNext_cases s <;> rw [heq]
  · exact .notDue hmore
  · exact .overrun hmore hslot
  · exact .nextSlot hmore hslot

theorem extraTx_work (s : State) : SchedulerWork s .extraTx (extraTx s) := by
  unfold extraTx
  cases hen : s.localEnabled with
  | false => exact .extraRefused
  | true =>
    by_cases hs : s.sync = .synced
    · rw [if_neg (by simp), if_neg (by simp [hs])]
      split
      · exact .extraRefused
      · dsimp only
        split
        · exact .extraClosed hen hs
        · exact .extraSent hen hs
    · rw [if_neg (by simp), if_pos hs]
      exact .extraRefused

/-- A poll's slot work, whatever its slot counter, stays within the scheduler (R194, R75). -/
theorem pollSlot_frame (first : Bool) (s : State) (slot : Nat) :
    SchedulerFrame s (pollAnswer (slotStep first { s with slot := slot })) := by
  obtain ⟨hp, _, _, hhub, hrx, hlatch, hacl, hlog, hcb, _, _⟩ := slotStep_untouched first { s with slot := slot }
  exact ⟨hp, hhub, hrx, hlatch, hacl, hlog, hcb⟩

theorem SchedulerWork.frame {s t : State} {i : Instr} (w : SchedulerWork s i t) : SchedulerFrame s t := by
  cases w with
  | valveBuilt => rw [buildValveSet_eq]; constructor <;> rfl
  | firstSlot => exact pollSlot_frame true s 0
  | nextSlot => exact pollSlot_frame false s (s.slot + 1)
  | extraSent =>
    obtain ⟨hp, _, _, hhub, hrx, hlatch, hacl, hlog, hcb, _, _⟩ := tx_untouched (getDemand s).2
    exact ⟨hp, hhub, hrx, hlatch, hacl, hlog, hcb⟩
  | notDue | overrun | extraRefused | extraClosed | syncCleared | localOff | localOn | openAsked => constructor <;> rfl

/-! ## The hub receiver -/

/-- After `HUB_POLL` has read the status: the call is traced and a FIFO fault logged (R254, R303). -/
def statusRead (s : State) : State :=
  { s with
    trace := s.trace ++ [.readStatus]
    env := { s.env with status := s.env.status.tail, calls := s.env.calls + 1 }
    logRadioFault := s.logRadioFault || (statusAnswer s.env).fifoFault }

theorem logRadioFaultIf_readStatus (s : State) :
    logRadioFaultIf (readStatus s).1.fifoFault (readStatus s).2 = statusRead s := by
  rw [readStatus_value, logRadioFaultIf, statusRead]
  cases (statusAnswer s.env).fifoFault <;> simp [readStatus, emitEvent]

/-- The outcomes of an instruction of the hub receiver (R252 to R268). -/
inductive HubWork (s : State) : Instr → State → Prop where
  | stillArmed (force : Bool) (hen : s.hubEnabled = true) : HubWork s (.hubEnable force) (respond s .none)
  | armed (force : Bool) : HubWork s (.hubEnable force) (respond (rxReset { s with hubEnabled := true }) .none)
  | stillOff (hen : s.hubEnabled = false) : HubWork s .hubDisable (respond s .none)
  | switchedOff (hen : s.hubEnabled = true) :
      HubWork s .hubDisable (respond (setStandby { s with hubEnabled := false }) .none)
  | pollOff (hen : s.hubEnabled = false) : HubWork s .hubPoll (respond s (.activity false))
  | pollQuiet (hen : s.hubEnabled = true) : HubWork s .hubPoll (respond (statusRead s) (.activity false))
  | pollFault (hen : s.hubEnabled = true) : HubWork s .hubPoll (respond (rxReset (statusRead s)) (.activity false))
  | pollRearmed (activity : Bool) (hen : s.hubEnabled = true) :
      HubWork s .hubPoll (respond (rxReset (readFrame (statusRead s))) (.activity activity))
  | pollAccepted (c : Command) (hen : s.hubEnabled = true) (hacc : accepts s c = true) :
      HubWork s .hubPoll (respond (setStandby { readFrame (statusRead s) with
        latch := some ⟨c.hc1, c.hc2⟩, hubEnabled := false }) (.activity true))
  | latchTaken : HubWork s .latchGetClear (respond { s with latch := none } (.latch s.latch))
  | aclHeld (hc : HouseCode) (known : Bool) : HubWork s (.aclAdd hc) (respond s (.flag known))
  | aclAdded (hc : HouseCode) (hnew : hc ∉ s.acl) (hroom : s.acl.length ≠ s.params.aclCap) :
      HubWork s (.aclAdd hc) (respond { s with acl := s.acl ++ [hc] } (.flag true))
  | aclRemoved (hc : HouseCode) :
      HubWork s (.aclRemove hc) (respond { s with acl := s.acl.filter (fun x => x != hc) } .none)
  | aclAsked (hc : HouseCode) : HubWork s (.aclQuery hc) (respond s (.flag (aclAccepts s.acl hc)))
  | aclCounted : HubWork s .aclCount (respond s (.count s.acl.length))

/-- A received frame re-arms the receiver, or is accepted and ends reception (R258 to R261). -/
theorem receiveFrame_cases (s : State) :
    (∃ activity, receiveFrame s = respond (rxReset s) (.activity activity))
    ∨ ∃ c, accepts s c = true ∧ receiveFrame s =
        respond (setStandby { s with latch := some ⟨c.hc1, c.hc2⟩, hubEnabled := false }) (.activity true) := by
  unfold receiveFrame
  split
  · exact .inl ⟨false, rfl⟩
  · dsimp only
    split
    · exact .inl ⟨false, rfl⟩
    · unfold receiveCommand
      split
      · next hacc => exact .inr ⟨_, hacc, rfl⟩
      · exact .inl ⟨true, rfl⟩

theorem hubPoll_work (s : State) : HubWork s .hubPoll (hubPoll s) := by
  unfold hubPoll
  cases hen : s.hubEnabled with
  | false => exact .pollOff hen
  | true =>
    dsimp only
    rw [if_neg (by simp), logRadioFaultIf_readStatus]
    split
    · obtain ⟨activity, heq⟩ | ⟨c, hacc, heq⟩ := receiveFrame_cases (readFrame (statusRead s)) <;> rw [heq]
      · exact .pollRearmed activity hen
      · exact .pollAccepted c hen hacc
    · split
      · exact .pollFault hen
      · exact .pollQuiet hen

theorem execHubEnable_work {force : Bool} {s t : State} (h : execHubEnable force s = .next t) :
    HubWork s (.hubEnable force) t := by
  obtain rfl := Host.Outcome.next.inj h
  split
  · next hkeep =>
    rw [Bool.and_eq_true] at hkeep
    exact .stillArmed force hkeep.1
  · exact .armed force

theorem execHubDisable_work {s t : State} (h : execHubDisable s = .next t) : HubWork s .hubDisable t := by
  obtain rfl := Host.Outcome.next.inj h
  split
  · next hen => exact .switchedOff hen
  · next hen => exact .stillOff (by simpa using hen)

theorem execAclAdd_work {hc : HouseCode} {s t : State} (h : execAclAdd hc s = .next t) : HubWork s (.aclAdd hc) t := by
  obtain rfl := Host.Outcome.next.inj h
  split
  · exact .aclHeld hc true
  · next hnew =>
    split
    · exact .aclHeld hc false
    · next hroom => exact .aclAdded hc (by simpa using hnew) hroom

theorem HubWork.frame {s t : State} {i : Instr} (w : HubWork s i t) : HubFrame s t := by
  refine ⟨⟨?_, ?_, ?_, ?_, ?_, ?_, ?_, ?_⟩, ?_, ?_⟩ <;> cases w <;> simp [statusRead]

/-! ## The codec -/

/-- What an operation of the codec can change: the caller's buffer, the answer and the count of failed answers (R130). -/
def CodecFrame (s t : State) : Prop :=
  ∃ buf a n, t = { s with callerBuf := buf, answer := a, failedDecodes := n }

theorem CodecFrame.schedulerKept {s t : State} (h : CodecFrame s t) : SchedulerKept s t := by
  obtain ⟨_, _, _, rfl⟩ := h
  constructor <;> rfl

theorem runSymbol_frame (v : Bool) (side : WireSide) (s : State) : CodecFrame s (runSymbol v side s) := by
  cases side <;> exact ⟨_, _, _, rfl⟩

theorem encodeToCaller_frame (c : Command) (s : State) : CodecFrame s (encodeToCaller c s) := ⟨_, _, _, rfl⟩

theorem decodeToAnswer_frame (w : List Byte) (s : State) : CodecFrame s (decodeToAnswer w s) := by
  rw [decodeToAnswer_eq]
  split <;> exact ⟨_, _, _, rfl⟩

theorem runCommand_frame (cmd : Byte) (side : Side) (src : HouseCode) (ext : Byte) (s : State) :
    CodecFrame s (runCommand cmd side src ext s) := by
  cases side with
  | encode => exact encodeToCaller_frame _ s
  | decode => exact decodeToAnswer_frame _ s

/-! ## Every instruction -/

/-- What an instruction that answers a next state has done, family by family. -/
theorem exec_next_cases {i : Instr} {s t : State} (h : exec i s = .next t) :
    (CodecOp i ∧ CodecFrame s t) ∨ SchedulerWork s i t ∨ HubWork s i t
      ∨ (i = .reset ∧ t = respond (resetBlock s) .none) := by
  cases i with
  | sym0 side => obtain rfl := Host.Outcome.next.inj h; exact .inl ⟨by simp [CodecOp], runSymbol_frame false side s⟩
  | sym1 side => obtain rfl := Host.Outcome.next.inj h; exact .inl ⟨by simp [CodecOp], runSymbol_frame true side s⟩
  | unit side b p =>
    refine .inl ⟨by simp [CodecOp], ?_⟩
    cases side <;> obtain rfl := Host.Outcome.next.inj h <;> exact ⟨_, _, _, rfl⟩
  | frame side c chk =>
    refine .inl ⟨by simp [CodecOp], ?_⟩
    cases side with
    | encode => obtain rfl := Host.Outcome.next.inj h; exact encodeToCaller_frame _ s
    | decode => obtain rfl := Host.Outcome.next.inj h; exact decodeToAnswer_frame _ s
    | broken w => obtain rfl := Host.Outcome.next.inj h; exact decodeToAnswer_frame w s
  | valveSet side src ext | syncStep side src ext | syncFinal side src ext =>
    obtain rfl := Host.Outcome.next.inj h
    exact .inl ⟨by simp [CodecOp], runCommand_frame _ side src ext s⟩
  | encode c => obtain rfl := Host.Outcome.next.inj h; exact .inl ⟨by simp [CodecOp], encodeToCaller_frame _ s⟩
  | decode w => obtain rfl := Host.Outcome.next.inj h; exact .inl ⟨by simp [CodecOp], decodeToAnswer_frame w s⟩
  | reset => exact .inr (.inr (.inr ⟨rfl, (Host.Outcome.next.inj h).symm⟩))
  | valveBuild => obtain rfl := Host.Outcome.next.inj h; exact .inr (.inl .valveBuilt)
  | pollFirst => obtain rfl := Host.Outcome.next.inj h; exact .inr (.inl .firstSlot)
  | pollNext => obtain rfl := Host.Outcome.next.inj h; exact .inr (.inl (pollNext_work s))
  | extraTx => obtain rfl := Host.Outcome.next.inj h; exact .inr (.inl (extraTx_work s))
  | syncReset => obtain rfl := Host.Outcome.next.inj h; exact .inr (.inl .syncCleared)
  | localDisable => obtain rfl := Host.Outcome.next.inj h; exact .inr (.inl .localOff)
  | localEnable => obtain rfl := Host.Outcome.next.inj h; exact .inr (.inl .localOn)
  | isOpen => obtain rfl := Host.Outcome.next.inj h; exact .inr (.inl .openAsked)
  | hubEnable force => exact .inr (.inr (.inl (execHubEnable_work h)))
  | hubDisable => exact .inr (.inr (.inl (execHubDisable_work h)))
  | hubPoll => obtain rfl := Host.Outcome.next.inj h; exact .inr (.inr (.inl (hubPoll_work s)))
  | latchGetClear => obtain rfl := Host.Outcome.next.inj h; exact .inr (.inr (.inl .latchTaken))
  | aclAdd hc => exact .inr (.inr (.inl (execAclAdd_work h)))
  | aclRemove hc => obtain rfl := Host.Outcome.next.inj h; exact .inr (.inr (.inl (.aclRemoved hc)))
  | aclQuery hc => obtain rfl := Host.Outcome.next.inj h; exact .inr (.inr (.inl (.aclAsked hc)))
  | aclCount => obtain rfl := Host.Outcome.next.inj h; exact .inr (.inr (.inl .aclCounted))
  | reserved code => cases h

end Sys2Proof.Machine
end

section
/-! Every step keeps the scheduler's counters and flags in range (R23, R25, R26, R193, R212). -/

namespace Sys2Proof.Machine

/-! ## The two timing formulas (R205) -/

theorem lowBits_le (hc2 : Byte) : lowBits hc2 ≤ 7 := by
  rw [lowBits, BitVec.toNat_and]
  exact Nat.and_le_right

theorem toNat_finalWaitOf (hc2 : Byte) {slot : Nat} (h : slot ≤ 7) :
    (finalWaitOf hc2 slot).toNat + slot = lowBits hc2 + 8 := by
  have hlow := lowBits_le hc2
  rw [finalWaitOf, Config.finalWaitBase, BitVec.toNat_ofNat]
  omega

theorem toNat_gapOf (hc2 : Byte) {slot : Nat} (h : slot ≤ 7) : (gapOf hc2 slot).toNat + slot = lowBits hc2 + 230 := by
  have hlow := lowBits_le hc2
  rw [gapOf, Config.gapBase, BitVec.toNat_ofNat]
  omega

end Sys2Proof.Machine

namespace Sys2Proof.Safety

open Sys2Proof.Machine

theorem slot_le_seven {s : State} (h : s.slot ≤ s.params.maxSlot.val) : s.slot ≤ 7 := by
  have hmax := s.params.maxSlot.isLt
  omega

/-- A fresh gap is positive and within its bound for every slot (R26, R205). -/
theorem gapOf_range (hc2 : Byte) {s : State} (h : s.slot ≤ s.params.maxSlot.val) :
    1 ≤ (gapOf hc2 s.slot).toNat ∧ (gapOf hc2 s.slot).toNat ≤ 237 := by
  have hslot := slot_le_seven h
  have hgap := toNat_gapOf hc2 hslot
  have hlow := lowBits_le hc2
  omega

/-- The final wait is positive and within its bound for every slot (R23, R205). -/
theorem finalWaitOf_range (hc2 : Byte) {s : State} (h : s.slot ≤ s.params.maxSlot.val) :
    1 ≤ (finalWaitOf hc2 s.slot).toNat ∧ (finalWaitOf hc2 s.slot).toNat ≤ 15 := by
  have hslot := slot_le_seven h
  have hwait := toNat_finalWaitOf hc2 hslot
  have hlow := lowBits_le hc2
  omega

/-! ## What the invariant reads -/

theorem SchedulerInv.of_kept {s t : State} (h : SchedulerInv s) (k : SchedulerKept s t) : SchedulerInv t where
  slot_le := by rw [k.slot, k.params]; exact h.slot_le
  wait_range := by rw [k.sync]; exact h.wait_range
  gap_le := by rw [k.gap]; exact h.gap_le
  gap_pos := by rw [k.sync, k.gap]; exact h.gap_pos
  disabled := by rw [k.localEnabled, k.sync]; exact h.disabled
  belief := by rw [k.openBelief, k.sync]; exact h.belief
  more := by rw [k.more, k.localEnabled, k.sync]; exact h.more

theorem SchedulerInv.respond {s : State} (h : SchedulerInv s) (a : Answer) : SchedulerInv (respond s a) :=
  h.of_kept ⟨rfl, rfl, rfl, rfl, rfl, rfl, rfl, rfl⟩

/-- A return to `UNSYNCED` that clears the belief and the pending slot asks only for the slot's and the gap's bounds. -/
theorem SchedulerInv.of_cleared {t : State} (hslot : t.slot ≤ t.params.maxSlot.val) (hgap : t.gap.toNat ≤ 237)
    (hy : t.sync = .unsynced) (hb : t.openBelief = false) (hmore : t.more = false) : SchedulerInv t where
  slot_le := hslot
  wait_range := by simp [hy]
  gap_le := hgap
  gap_pos := by simp [hy]
  disabled _ := hy
  belief := by simp [hb]
  more := by simp [hmore]

/-- Synced and enabled, with a gap in its range: the belief and the pending slot are free. -/
theorem SchedulerInv.of_synced {t : State} (hslot : t.slot ≤ t.params.maxSlot.val) (hen : t.localEnabled = true)
    (hy : t.sync = .synced) (hgap : 1 ≤ t.gap.toNat ∧ t.gap.toNat ≤ 237) : SchedulerInv t where
  slot_le := hslot
  wait_range := by simp [hy]
  gap_le := hgap.2
  gap_pos _ := hgap.1
  disabled := by simp [hen]
  belief _ := hy
  more _ := ⟨hen, by simp [hy]⟩

/-- Under way in the handshake: no belief, and a wait in its range; the pending slot is free. -/
theorem SchedulerInv.of_handshake {t : State} (hslot : t.slot ≤ t.params.maxSlot.val) (hen : t.localEnabled = true)
    (hgap : t.gap.toNat ≤ 237) (hb : t.openBelief = false) (hunsynced : t.sync ≠ .unsynced) (hsynced : t.sync ≠ .synced)
    (hwait : ∀ w, t.sync = .finalWait w → 1 ≤ w.toNat ∧ w.toNat ≤ 15) : SchedulerInv t where
  slot_le := hslot
  wait_range := hwait
  gap_le := hgap
  gap_pos hs := absurd hs hsynced
  disabled := by simp [hen]
  belief := by simp [hb]
  more _ := ⟨hen, hunsynced⟩

theorem SchedulerInv.not_belief {s : State} (h : SchedulerInv s) (hs : s.sync ≠ .synced) : s.openBelief = false :=
  Bool.eq_false_iff.2 fun hb => hs (h.belief hb)

/-! ## A poll -/

/-- The slot's work of a poll, with its answer kept as the pending slot. -/
theorem SchedulerInv.slotWork {first : Bool} {s : State} {r : Bool × State} (h : SchedulerInv s)
    (w : SlotWork first s r) : SchedulerInv (pollAnswer r) := by
  have hslot := h.slot_le
  have hgap := h.gap_le
  cases w with
  | disabled hen =>
    have hb := h.not_belief (by simp [h.disabled hen])
    exact .of_cleared hslot hgap rfl hb rfl
  | burstLast c hen hdue hc =>
    have hb := h.not_belief hdue.not_synced
    have hwait (hc2 w : Byte) (hw : Sync.finalWait (finalWaitOf hc2 s.slot) = .finalWait w) :
        1 ≤ w.toNat ∧ w.toNat ≤ 15 := Sync.finalWait.inj hw ▸ finalWaitOf_range hc2 hslot
    refine .of_handshake ?_ ?_ ?_ ?_ nofun nofun (hwait _) <;> simpa [pollAnswer, buildSyncStep]
  | burstNext c hen hdue hc =>
    have hb := h.not_belief hdue.not_synced
    refine .of_handshake ?_ ?_ ?_ ?_ nofun nofun nofun <;> simpa [pollAnswer, buildSyncStep]
  | waitZero | gapZero => exact .of_cleared hslot (by simp [pollAnswer]) rfl rfl rfl
  | waitNext w hen hs hw =>
    have hb := h.not_belief (by simp [hs])
    obtain ⟨_, hle⟩ := h.wait_range w hs
    refine .of_handshake hslot hen hgap hb nofun nofun fun w' hw' => ?_
    obtain rfl := Sync.finalWait.inj hw'
    bv_omega
  | waitLast hen hs =>
    refine .of_synced ?_ ?_ ?_ ?_
    · simpa [pollAnswer, syncFinalActions, buildSyncFinal]
    · simpa [pollAnswer, syncFinalActions, buildSyncFinal]
    · simp [pollAnswer, syncFinalActions]
    · simpa [pollAnswer, syncFinalActions, buildSyncFinal] using gapOf_range _ hslot
  | gapCycle hen hs hfirst hg =>
    have hn : nSlots s.params < 256 := by omega
    refine .of_synced hslot hen hs ?_
    show 1 ≤ (s.gap - BitVec.ofNat 8 (nSlots s.params)).toNat ∧ (s.gap - BitVec.ofNat 8 (nSlots s.params)).toNat ≤ 237
    rw [BitVec.toNat_sub, BitVec.toNat_ofNat]
    omega
  | gapNext hen hs hfirst hg =>
    refine .of_synced hslot hen hs ?_
    show 1 ≤ (s.gap - 1).toNat ∧ (s.gap - 1).toNat ≤ 237
    bv_omega
  | gapLast hen hs hg =>
    refine .of_synced ?_ ?_ ?_ ?_
    · simpa [pollAnswer, valveTxActions]
    · simpa [pollAnswer, valveTxActions]
    · simpa [pollAnswer, valveTxActions]
    · simpa [pollAnswer, valveTxActions] using gapOf_range _ hslot

/-! ## Every instruction -/

theorem SchedulerInv.atSlot {s : State} (h : SchedulerInv s) {slot : Nat} (hslot : slot ≤ s.params.maxSlot.val) :
    SchedulerInv { s with slot := slot } :=
  ⟨hslot, h.wait_range, h.gap_le, h.gap_pos, h.disabled, h.belief, h.more⟩

theorem SchedulerInv.clearSync {s : State} (h : SchedulerInv s) : SchedulerInv (clearSync s) :=
  .of_cleared h.slot_le (by simp) rfl rfl rfl

theorem SchedulerInv.schedulerWork {s t : State} {i : Instr} (h : SchedulerInv s) (w : SchedulerWork s i t) :
    SchedulerInv t := by
  cases w with
  | valveBuilt => exact h.of_kept (by constructor <;> simp)
  | firstSlot => exact (h.atSlot (Nat.zero_le _)).slotWork (slotStep_work true _)
  | nextSlot _ hslot =>
    have hle := h.slot_le
    exact (h.atSlot (slot := s.slot + 1) (by omega)).slotWork (slotStep_work false _)
  | notDue | extraRefused | openAsked => exact h.respond _
  | overrun => exact .of_cleared h.slot_le (by simp) rfl rfl rfl
  | extraClosed => exact h.of_kept ⟨rfl, rfl, rfl, rfl, rfl, rfl, rfl, rfl⟩
  | extraSent hen hs =>
    refine .of_synced ?_ ?_ ?_ ?_
    · simpa using h.slot_le
    · simpa
    · simpa
    · simpa using And.intro (h.gap_pos hs) h.gap_le
  | syncCleared => exact h.clearSync.respond _
  | localOff => exact .of_cleared h.slot_le (by simp) rfl rfl rfl
  | localOn =>
    exact ⟨h.slot_le, h.wait_range, h.gap_le, h.gap_pos, nofun, h.belief, fun hm => ⟨rfl, (h.more hm).2⟩⟩

theorem SchedulerInv.exec {i : Instr} {s t : State} (h : SchedulerInv s) (ht : exec i s = .next t) :
    SchedulerInv t := by
  obtain ⟨_, hcodec⟩ | w | w | ⟨_, rfl⟩ := exec_next_cases ht
  · exact h.of_kept hcodec.schedulerKept
  · exact h.schedulerWork w
  · exact h.of_kept w.frame.toSchedulerKept
  · exact .of_cleared (Nat.zero_le _) (by simp [resetBlock]) rfl rfl rfl

/-- Settles O52: every instruction keeps the invariant, and taking a request touches no counter. -/
theorem stepKeepsSchedulerInv : Obligations.StepKeepsSchedulerInv := fun _ _ hs h =>
  step_preserves (fun _ _ hi => hi.of_kept ⟨rfl, rfl, rfl, rfl, rfl, rfl, rfl, rfl⟩) (fun _ _ _ hi ht => hi.exec ht)
    hs h

end Sys2Proof.Safety
end

section
/-! The radio: its mode follows the hub receiver (R39), and every transmission is bracketed (R71, R206). -/

namespace Sys2Proof.Safety

open Sys2Proof.Machine

/-! ## Transmissions in a trace -/

theorem transmits_append (ev ev' : List Event) : transmits (ev ++ ev') = transmits ev ++ transmits ev' :=
  List.filterMap_append

theorem mem_transmits {ev : List Event} {pl : List Byte} : pl ∈ transmits ev ↔ .transmit pl ∈ ev := by
  constructor
  · intro h
    obtain ⟨e, he, hpl⟩ := List.mem_filterMap.1 h
    cases e with
    | transmit pl' => cases hpl; exact he
    | setStandby | setReceive | readStatus | readFrame | getHouseCode1 | getHouseCode2 | getRequestedOpenPercent =>
      cases hpl
  · exact fun h => List.mem_filterMap.2 ⟨_, h, rfl⟩

theorem not_mem_of_transmits_nil {ev : List Event} (h : transmits ev = []) (pl : List Byte) : .transmit pl ∉ ev :=
  fun hmem => by simpa [h] using mem_transmits.2 hmem

theorem resumeEvent_ne_transmit (hub : Bool) (pl : List Byte) : resumeEvent hub ≠ .transmit pl := by
  cases hub <;> nofun

/-- The calls between two states, one transmission among them, with what precedes and follows it (R206). -/
def sentEvents (hub : Bool) (pre : List Event) (pl : List Byte) (post : List Event) : List Event :=
  pre ++ .setStandby :: .transmit pl :: resumeEvent hub :: post

theorem transmits_sentEvents (hub : Bool) {pre post : List Event} (pl : List Byte) (hpre : transmits pre = [])
    (hpost : transmits post = []) : transmits (sentEvents hub pre pl post) = [pl] := by
  have hmid : transmits (.setStandby :: .transmit pl :: resumeEvent hub :: post) = pl :: transmits post := by
    cases hub <;> rfl
  rw [sentEvents, transmits_append, hpre, hmid, hpost, List.nil_append]

/-- The one transmission stands where it was put (R71). -/
theorem sentEvents_split {hub : Bool} {pre post pre' post' : List Event} {pl pl' : List Byte}
    (hpre : transmits pre = []) (hpost : transmits post = [])
    (h : sentEvents hub pre pl post = pre' ++ [.transmit pl'] ++ post') :
    pre' = pre ++ [.setStandby] ∧ post' = resumeEvent hub :: post := by
  have hbefore : .transmit pl' ∉ pre ++ [.setStandby] := by simpa using not_mem_of_transmits_nil hpre pl'
  have hafter : .transmit pl' ∉ resumeEvent hub :: post := by
    simpa [(resumeEvent_ne_transmit hub pl').symm] using not_mem_of_transmits_nil hpost pl'
  have heq : (pre ++ [.setStandby]) ++ .transmit pl :: (resumeEvent hub :: post) = pre' ++ .transmit pl' :: post' := by
    simpa [sentEvents] using h
  obtain ⟨h1, _, h2⟩ := (List.append_cons_inj_of_notMem hbefore hafter).1 heq
  exact ⟨h1.symm, h2.symm⟩

/-! ## What an operation does to the radio -/

/-- Calls are traced, none of them a transmission. -/
def Silent (s t : State) : Prop := ∃ ev, t.trace = s.trace ++ ev ∧ transmits ev = []

theorem Silent.of_trace_eq {s t : State} (h : t.trace = s.trace) : Silent s t := ⟨[], by simp [h], rfl⟩

/-- The radio keeps its mode and transmits nothing, and the hub receiver its switch. -/
structure Quiet (s t : State) : Prop where
  hub : t.hubEnabled = s.hubEnabled
  mode : t.radioMode = s.radioMode
  silent : Silent s t

theorem Quiet.of_eq {s t : State} (hhub : t.hubEnabled = s.hubEnabled) (hmode : t.radioMode = s.radioMode)
    (htrace : t.trace = s.trace) : Quiet s t := ⟨hhub, hmode, .of_trace_eq htrace⟩

theorem Quiet.build (cmd ext : Byte) (s : State) : Quiet s (build cmd ext s) := by
  rw [build_eq]
  exact ⟨rfl, rfl, _, rfl, rfl⟩

theorem Quiet.buildValveSet (s : State) : Quiet s (buildValveSet s) := by
  rw [buildValveSet_eq]
  exact ⟨rfl, rfl, _, rfl, rfl⟩

theorem Quiet.getHouseCode2 (s : State) : Quiet s (getHouseCode2 s).2 := ⟨rfl, rfl, _, rfl, rfl⟩

theorem Quiet.getDemand (s : State) : Quiet s (getDemand s).2 := ⟨rfl, rfl, _, rfl, rfl⟩

theorem Silent.trans {s t u : State} (h : Silent s t) (h' : Silent t u) : Silent s u := by
  obtain ⟨ev, hev, hnil⟩ := h
  obtain ⟨ev', hev', hnil'⟩ := h'
  exact ⟨ev ++ ev', by rw [hev', hev, List.append_assoc], by rw [transmits_append, hnil, hnil']; rfl⟩

theorem Quiet.trans {s t u : State} (h : Quiet s t) (h' : Quiet t u) : Quiet s u :=
  ⟨h'.hub.trans h.hub, h'.mode.trans h.mode, h.silent.trans h'.silent⟩

/-- At most one transmission, bracketed, the radio left as the hub receiver needs it (R71, R206). -/
inductive RadioWork (s t : State) : Prop where
  | quiet (h : Quiet s t)
  | sent (pre : List Event) (pl : List Byte) (post : List Event) (hhub : t.hubEnabled = s.hubEnabled)
      (hmode : t.radioMode = if s.hubEnabled then .receive else .standby)
      (htrace : t.trace = s.trace ++ sentEvents s.hubEnabled pre pl post)
      (hpre : transmits pre = []) (hpost : transmits post = [])

theorem RadioWork.tx (s : State) : RadioWork s (tx s) := by
  rw [tx_eq]
  split
  · exact .quiet (.of_eq rfl rfl rfl)
  · exact .sent [] (txPayload s.params s.txbuf) [] rfl rfl rfl rfl rfl

theorem RadioWork.after_quiet {s t u : State} (h : Quiet s t) (w : RadioWork t u) : RadioWork s u := by
  cases w with
  | quiet h' => exact .quiet (h.trans h')
  | sent pre pl post hhub hmode htrace hpre hpost =>
    obtain ⟨hsame, _, ev, hev, hnil⟩ := h
    refine .sent (ev ++ pre) pl post (hhub.trans hsame) (by rw [hmode, hsame]) ?_ ?_ hpost
    · rw [htrace, hev, hsame]
      simp [sentEvents]
    · rw [transmits_append, hnil, hpre]
      rfl

theorem RadioWork.then_quiet {s t u : State} (w : RadioWork s t) (h : Quiet t u) : RadioWork s u := by
  cases w with
  | quiet h' => exact .quiet (h'.trans h)
  | sent pre pl post hhub hmode htrace hpre hpost =>
    obtain ⟨hsame, hmode', ev, hev, hnil⟩ := h
    refine .sent pre pl (post ++ ev) (hsame.trans hhub) (hmode'.trans hmode) ?_ hpre ?_
    · rw [hev, htrace]
      simp [sentEvents]
    · rw [transmits_append, hnil, hpost]
      rfl

/-! ## The scheduler -/

theorem RadioWork.burst (c : Countdown) (s : State) : RadioWork s (Machine.tx (buildSyncStep c.val s)) :=
  (RadioWork.tx _).after_quiet (.build _ _ s)

theorem RadioWork.syncFinalActions (s : State) : RadioWork s (syncFinalActions s) := by
  have hsend : RadioWork s (Machine.tx (buildSyncFinal s)) := (RadioWork.tx _).after_quiet (.build _ _ s)
  unfold Machine.syncFinalActions
  generalize Machine.tx (buildSyncFinal s) = u at hsend ⊢
  have hsync : Quiet u { u with sync := .synced, openBelief := false } := .of_eq rfl rfl rfl
  have hbuild := hsync.trans (.buildValveSet _)
  dsimp only
  generalize Machine.buildValveSet { u with sync := .synced, openBelief := false } = v at hbuild ⊢
  exact hsend.then_quiet (hbuild.trans ((Quiet.getHouseCode2 v).trans (.of_eq rfl rfl rfl)))

theorem RadioWork.valveTxActions (s : State) : RadioWork s (valveTxActions s) := by
  have hsend := RadioWork.tx s
  unfold Machine.valveTxActions
  generalize Machine.tx s = u at hsend ⊢
  have hbelief : Quiet u { (Machine.getDemand u).2 with openBelief := reallyOpen u.params (Machine.getDemand u).1 } :=
    (Quiet.getDemand u).trans (.of_eq rfl rfl rfl)
  exact hsend.then_quiet (hbelief.trans ((Quiet.getHouseCode2 _).trans (.of_eq rfl rfl rfl)))

/-- A slot's work transmits only in an enabled scheduler (R195, R208). -/
theorem radio_of_slotWork {first : Bool} {s : State} {r : Bool × State} (w : SlotWork first s r) :
    Quiet s r.2 ∨ s.localEnabled = true ∧ RadioWork s r.2 := by
  cases w with
  | disabled | waitZero | waitNext | gapZero | gapCycle | gapNext => exact .inl (.of_eq rfl rfl rfl)
  | burstLast c hen =>
    have hsend := RadioWork.burst c s
    generalize tx (buildSyncStep c.val s) = u at hsend ⊢
    exact .inr ⟨hen, hsend.then_quiet ((Quiet.getHouseCode2 u).trans (.of_eq rfl rfl rfl))⟩
  | burstNext c hen =>
    have hsend := RadioWork.burst c s
    generalize tx (buildSyncStep c.val s) = u at hsend ⊢
    exact .inr ⟨hen, hsend.then_quiet (.of_eq rfl rfl rfl)⟩
  | waitLast hen => exact .inr ⟨hen, .syncFinalActions s⟩
  | gapLast hen =>
    have hgap : Quiet s { s with gap := 0 } := .of_eq rfl rfl rfl
    have hsend := (RadioWork.valveTxActions { s with gap := 0 }).after_quiet hgap
    exact .inr ⟨hen, hsend⟩

theorem radio_of_pollSlot (first : Bool) (s : State) (slot : Nat) :
    Quiet s (pollAnswer (slotStep first { s with slot := slot }))
      ∨ s.localEnabled = true ∧ RadioWork s (pollAnswer (slotStep first { s with slot := slot })) := by
  have hbefore : Quiet s { s with slot := slot } := .of_eq rfl rfl rfl
  have hafter (r : Bool × State) : Quiet r.2 (pollAnswer r) := .of_eq rfl rfl rfl
  obtain hquiet | ⟨hen, hradio⟩ := radio_of_slotWork (slotStep_work first { s with slot := slot })
  · exact .inl ((hbefore.trans hquiet).trans (hafter _))
  · exact .inr ⟨hen, (hradio.after_quiet hbefore).then_quiet (hafter _)⟩

/-- Of the scheduler's instructions, only the polls and `EXTRA_TX` transmit, and only while enabled (R28, R195). -/
theorem radio_of_schedulerWork {s t : State} {i : Instr} (w : SchedulerWork s i t) :
    Quiet s t ∨ (s.localEnabled = true ∧ i ∈ [.pollFirst, .pollNext, .extraTx]) ∧ RadioWork s t := by
  cases w with
  | valveBuilt => exact .inl ((Quiet.buildValveSet s).trans (.of_eq rfl rfl rfl))
  | firstSlot => exact (radio_of_pollSlot true s 0).imp_right fun ⟨hen, hradio⟩ => ⟨⟨hen, by simp⟩, hradio⟩
  | nextSlot => exact (radio_of_pollSlot false s _).imp_right fun ⟨hen, hradio⟩ => ⟨⟨hen, by simp⟩, hradio⟩
  | extraClosed => exact .inl ((Quiet.getDemand s).trans (.of_eq rfl rfl rfl))
  | extraSent hen =>
    exact .inr ⟨⟨hen, by simp⟩, ((RadioWork.tx _).after_quiet (.getDemand s)).then_quiet (.of_eq rfl rfl rfl)⟩
  | notDue | overrun | extraRefused | syncCleared | localOff | localOn | openAsked => exact .inl (.of_eq rfl rfl rfl)

/-! ## The radio follows the hub receiver -/

theorem RadioInv.of_same {s t : State} (h : RadioInv s) (hhub : t.hubEnabled = s.hubEnabled)
    (hmode : t.radioMode = s.radioMode) : RadioInv t := by
  rw [RadioInv, hhub, hmode]
  exact h

theorem RadioInv.radioWork {s t : State} (h : RadioInv s) (w : RadioWork s t) : RadioInv t := by
  cases w with
  | quiet hq => exact h.of_same hq.hub hq.mode
  | sent pre pl post hhub hmode =>
    rw [RadioInv, hhub, hmode]
    cases s.hubEnabled <;> simp

/-- The hub receiver arms the radio when it is switched on or re-armed, and parks it when it goes off (R252 to R262). -/
theorem RadioInv.hubWork {s t : State} {i : Instr} (h : RadioInv s) (w : HubWork s i t) : RadioInv t := by
  cases w with
  | armed => simp [RadioInv]
  | switchedOff | pollAccepted => simp [RadioInv]
  | pollFault hen | pollRearmed _ hen => simp [RadioInv, statusRead, hen]
  | pollQuiet => exact h.of_same rfl rfl
  | stillArmed | stillOff | pollOff | latchTaken | aclHeld | aclAdded | aclRemoved | aclAsked | aclCounted =>
    exact h.of_same rfl rfl

theorem RadioInv.exec {i : Instr} {s t : State} (h : RadioInv s) (ht : exec i s = .next t) : RadioInv t := by
  obtain ⟨_, _, _, _, rfl⟩ | w | w | ⟨_, rfl⟩ := exec_next_cases ht
  · exact h.of_same rfl rfl
  · obtain hquiet | ⟨_, hradio⟩ := radio_of_schedulerWork w
    · exact h.of_same hquiet.hub hquiet.mode
    · exact h.radioWork hradio
  · exact h.hubWork w
  · simp [RadioInv, resetBlock]

theorem radioInv_reset : RadioInv State.reset := by simp [RadioInv, State.reset]

/-- Settles O51: it holds at reset, every instruction restores it, and taking a request leaves the radio alone. -/
theorem radioFollowsHub : Obligations.RadioFollowsHub :=
  ⟨radioInv_reset, fun _ _ hs h =>
    step_preserves (fun _ _ hr => hr.of_same rfl rfl) (fun _ _ _ hr ht => hr.exec ht) hs h⟩

/-! ## Transmissions are bracketed -/

/-- The calls of `RX_RESET` (R251). -/
def rearmed : List Event := [.setStandby, .setReceive Config.rxMaxFrameLen Config.rxLeadingFilter]

/-- The hub receiver never transmits (R254). -/
theorem silent_of_hubWork {s t : State} {i : Instr} (w : HubWork s i t) : Silent s t := by
  cases w with
  | armed => exact ⟨rearmed, List.append_assoc .., rfl⟩
  | switchedOff => exact ⟨[.setStandby], rfl, rfl⟩
  | pollQuiet => exact ⟨[.readStatus], rfl, rfl⟩
  | pollFault => exact ⟨.readStatus :: rearmed, by simp [statusRead, rearmed], rfl⟩
  | pollRearmed =>
    exact ⟨.readStatus :: .readFrame Config.rxMaxFrameLen :: rearmed, by simp [statusRead, rearmed], rfl⟩
  | pollAccepted =>
    exact ⟨[.readStatus, .readFrame Config.rxMaxFrameLen, .setStandby], by simp [statusRead], rfl⟩
  | stillArmed | stillOff | pollOff | latchTaken | aclHeld | aclAdded | aclRemoved | aclAsked | aclCounted =>
    exact .of_trace_eq rfl

/-- What any instruction but `RESET` adds to the trace (R28, R206). -/
theorem exec_radio {i : Instr} {s t : State} (h : exec i s = .next t) (hi : i ≠ .reset) :
    Silent s t ∨ (s.localEnabled = true ∧ i ∈ [.pollFirst, .pollNext, .extraTx]) ∧ RadioWork s t := by
  obtain ⟨_, _, _, _, rfl⟩ | w | w | ⟨hreset, _⟩ := exec_next_cases h
  · exact .inl (.of_trace_eq rfl)
  · exact (radio_of_schedulerWork w).imp_left Quiet.silent
  · exact .inl (silent_of_hubWork w)
  · exact absurd hreset hi

/-- Without a transmission there is nothing to bracket. -/
theorem bracketed_of_silent {s t : State} {sender : Prop} (h : Silent s t) :
    ∃ ev, t.trace = s.trace ++ ev ∧ (transmits ev).length ≤ 1 ∧ (transmits ev ≠ [] → sender)
      ∧ ∀ pre pl post, ev = pre ++ [.transmit pl] ++ post →
          ∃ pre' post', pre = pre' ++ [.setStandby] ∧ post = resumeEvent s.hubEnabled :: post' := by
  obtain ⟨ev, htrace, hnil⟩ := h
  refine ⟨ev, htrace, by simp [hnil], fun hne => absurd hnil hne, fun pre pl post heq => ?_⟩
  exact absurd (by simp [heq]) (not_mem_of_transmits_nil hnil pl)

/-- Settles O58: a silent operation adds no transmission, any other adds one between its brackets. -/
theorem transmissionsBracketed : Obligations.TransmissionsBracketed := by
  intro i s t h hi
  obtain hsilent | ⟨hsender, hradio⟩ := exec_radio h hi
  · exact bracketed_of_silent hsilent
  · cases hradio with
    | quiet hq => exact bracketed_of_silent hq.silent
    | sent pre pl post _ _ htrace hpre hpost =>
      have hone := transmits_sentEvents s.hubEnabled pl hpre hpost
      refine ⟨_, htrace, by simp [hone], fun _ => hsender, fun pre' pl' post' heq => ?_⟩
      obtain ⟨hpre', hpost'⟩ := sentEvents_split hpre hpost heq
      exact ⟨pre, post, hpre', hpost'⟩

end Sys2Proof.Safety
end

section
/-! The accept-list stays sound, and who writes what: the latch, the belief, the parameters, the buffers, the
administrative switch and the sticky flags (R28 to R36, R60, R83, R241, R271). -/

namespace Sys2Proof.Safety

open Sys2Proof.Machine

/-! ## The accept-list and the latch -/

theorem AclInv.of_same {s t : State} (h : AclInv s) (hp : t.params = s.params) (ha : t.acl = s.acl) : AclInv t := by
  rw [AclInv, hp, ha]
  exact h

theorem AclInv.hubWork {s t : State} {i : Instr} (h : AclInv s) (w : HubWork s i t) : AclInv t := by
  have hp := w.frame.params
  obtain ⟨hnodup, hcap⟩ := h
  cases w with
  | aclAdded hc hnew hroom =>
    refine ⟨?_, ?_⟩
    · simpa [List.nodup_append] using ⟨hnodup, fun x hx hxc => hnew (hxc ▸ hx)⟩
    · have hlt : s.acl.length < s.params.aclCap := lt_of_le_of_ne hcap hroom
      simpa using hlt
  | aclRemoved hc => exact ⟨hnodup.filter _, (List.length_filter_le _ _).trans hcap⟩
  | stillArmed | armed | stillOff | switchedOff | pollOff | pollQuiet | pollFault | pollRearmed | pollAccepted
    | latchTaken | aclHeld | aclAsked | aclCounted => exact AclInv.of_same ⟨hnodup, hcap⟩ hp (by simp [statusRead])

theorem AclInv.exec {i : Instr} {s t : State} (h : AclInv s) (ht : exec i s = .next t) : AclInv t := by
  obtain ⟨_, _, _, _, rfl⟩ | w | w | ⟨_, rfl⟩ := exec_next_cases ht
  · exact h.of_same rfl rfl
  · exact h.of_same w.frame.params w.frame.acl
  · exact h.hubWork w
  · exact ⟨List.nodup_nil, Nat.zero_le _⟩

theorem latch_of_hubWork {s t : State} {i : Instr} (w : HubWork s i t) (h : t.latch ≠ s.latch) :
    i = .hubPoll ∨ i = .latchGetClear := by
  cases w with
  | pollOff | pollQuiet | pollFault | pollRearmed | pollAccepted => exact .inl rfl
  | latchTaken => exact .inr rfl
  | stillArmed | armed | stillOff | switchedOff | aclHeld | aclAdded | aclRemoved | aclAsked | aclCounted =>
    exact absurd (by simp) h

theorem latch_writers {i : Instr} {s t : State} (ht : exec i s = .next t) (h : t.latch ≠ s.latch) :
    i = .hubPoll ∨ i = .latchGetClear ∨ i = .reset := by
  obtain ⟨_, _, _, _, rfl⟩ | w | w | ⟨hi, _⟩ := exec_next_cases ht
  · exact absurd rfl h
  · exact absurd w.frame.latch h
  · exact (latch_of_hubWork w h).imp_right .inl
  · exact .inr (.inr hi)

/-- Settles O54: every instruction keeps the accept-list sound, and only three write the latch. -/
theorem stepKeepsAclInv : Obligations.StepKeepsAclInv :=
  ⟨fun _ _ hs h => step_preserves (fun _ _ ha => ha.of_same rfl rfl) (fun _ _ _ ha ht => ha.exec ht) hs h,
    fun _ _ _ => latch_writers⟩

/-! ## The belief -/

/-- Only the synced slot's transmission in an enabled scheduler can set the belief (R29, R201). -/
theorem belief_of_slotWork {first : Bool} {s : State} {r : Bool × State} (w : SlotWork first s r)
    (h : r.2.openBelief = true) (hs : s.openBelief = false) : s.sync = .synced ∧ s.localEnabled = true := by
  cases w with
  | gapLast hen hsync => exact ⟨hsync, hen⟩
  | waitZero | gapZero => cases h
  | waitLast => simp [syncFinalActions] at h
  | burstLast | burstNext => simp [buildSyncStep, hs] at h
  | disabled | waitNext | gapCycle | gapNext => exact absurd (hs.symm.trans h) nofun

theorem belief_of_pollSlot {first : Bool} {s : State} {slot : Nat}
    (h : (pollAnswer (slotStep first { s with slot := slot })).openBelief = true) (hs : s.openBelief = false) :
    s.sync = .synced ∧ s.localEnabled = true := by
  have w := slotStep_work first { s with slot := slot }
  exact belief_of_slotWork (s := { s with slot := slot }) w h hs

theorem belief_set_of_schedulerWork {s t : State} {i : Instr} (w : SchedulerWork s i t) (h : t.openBelief = true)
    (hs : s.openBelief = false) :
    i ∈ [.pollFirst, .pollNext, .extraTx] ∧ s.sync = .synced ∧ s.localEnabled = true := by
  cases w with
  | firstSlot | nextSlot => exact ⟨by simp, belief_of_pollSlot h hs⟩
  | extraSent hen hsync => exact ⟨by simp, hsync, hen⟩
  | overrun | syncCleared | localOff => cases h
  | valveBuilt => simp [hs] at h
  | notDue | extraRefused | extraClosed | localOn | openAsked => exact absurd (hs.symm.trans h) nofun

theorem belief_writers_of_schedulerWork {s t : State} {i : Instr} (w : SchedulerWork s i t)
    (h : t.openBelief ≠ s.openBelief) :
    i ∈ [.reset, .syncReset, .localDisable, .pollFirst, .pollNext, .extraTx] := by
  cases w with
  | firstSlot | notDue | overrun | nextSlot | extraRefused | extraClosed | extraSent | syncCleared | localOff => simp
  | valveBuilt => exact absurd (by simp) h
  | localOn | openAsked => exact absurd rfl h

/-- Settles O57: the codec and the hub receiver leave the belief alone, `RESET` clears it, and of the scheduler's outcomes
only a synced transmission sets it. -/
theorem beliefWriters : Obligations.BeliefWriters := by
  intro i s t ht
  obtain ⟨_, _, _, _, rfl⟩ | w | w | ⟨rfl, rfl⟩ := exec_next_cases ht
  · exact ⟨fun h => absurd rfl h, fun h hs => absurd (hs.symm.trans h) nofun⟩
  · exact ⟨belief_writers_of_schedulerWork w, belief_set_of_schedulerWork w⟩
  · have hb := w.frame.openBelief
    exact ⟨fun h => absurd hb h, fun h hs => absurd (hs.symm.trans (hb.symm.trans h)) nofun⟩
  · exact ⟨fun _ => by simp, nofun⟩

/-! ## Parameters, buffers, switch and sticky flags -/

theorem params_kept {i : Instr} {s t : State} (ht : exec i s = .next t) : t.params = s.params := by
  obtain ⟨_, _, _, _, rfl⟩ | w | w | ⟨_, rfl⟩ := exec_next_cases ht
  · rfl
  · exact w.frame.params
  · exact w.frame.params
  · rfl

theorem txbuf_of_schedulerWork {s t : State} {i : Instr} (w : SchedulerWork s i t) (h : t.txbuf ≠ s.txbuf) :
    i ∈ [.reset, .valveBuild, .pollFirst, .pollNext] := by
  cases w with
  | valveBuilt | firstSlot | notDue | overrun | nextSlot => simp
  | extraSent => exact absurd (by simp) h
  | extraRefused | extraClosed | syncCleared | localOff | localOn | openAsked => exact absurd rfl h

theorem txbuf_writers {i : Instr} {s t : State} (ht : exec i s = .next t) (h : t.txbuf ≠ s.txbuf) :
    i ∈ [.reset, .valveBuild, .pollFirst, .pollNext] := by
  obtain ⟨_, _, _, _, rfl⟩ | w | w | ⟨rfl, _⟩ := exec_next_cases ht
  · exact absurd rfl h
  · exact txbuf_of_schedulerWork w h
  · exact absurd w.frame.txbuf h
  · simp

theorem rxbuf_of_hubWork {s t : State} {i : Instr} (w : HubWork s i t) (h : t.rxbuf ≠ s.rxbuf) : i = .hubPoll := by
  cases w with
  | pollOff | pollQuiet | pollFault | pollRearmed | pollAccepted => rfl
  | stillArmed | armed | stillOff | switchedOff | latchTaken | aclHeld | aclAdded | aclRemoved | aclAsked
    | aclCounted => exact absurd (by simp) h

theorem rxbuf_writers {i : Instr} {s t : State} (ht : exec i s = .next t) (h : t.rxbuf ≠ s.rxbuf) : i = .hubPoll := by
  obtain ⟨_, _, _, _, rfl⟩ | w | w | ⟨_, rfl⟩ := exec_next_cases ht
  · exact absurd rfl h
  · exact absurd w.frame.rxbuf h
  · exact rxbuf_of_hubWork w h
  · exact absurd rfl h

theorem callerBuf_writers {i : Instr} {s t : State} (ht : exec i s = .next t) (h : t.callerBuf ≠ s.callerBuf) :
    CodecOp i := by
  obtain ⟨hop, _⟩ | w | w | ⟨_, rfl⟩ := exec_next_cases ht
  · exact hop
  · exact absurd w.frame.callerBuf h
  · exact absurd w.frame.callerBuf h
  · exact absurd rfl h

theorem localEnabled_of_pollSlot (first : Bool) (s : State) (slot : Nat) :
    (pollAnswer (slotStep first { s with slot := slot })).localEnabled = s.localEnabled := by
  obtain ⟨_, _, hen, _⟩ := slotStep_untouched first { s with slot := slot }
  exact hen

theorem localEnabled_of_schedulerWork {s t : State} {i : Instr} (w : SchedulerWork s i t)
    (h : t.localEnabled ≠ s.localEnabled) : i ∈ [.reset, .localDisable, .localEnable] := by
  cases w with
  | localOff | localOn => simp
  | firstSlot | nextSlot => exact absurd (localEnabled_of_pollSlot _ s _) h
  | valveBuilt | extraSent => exact absurd (by simp) h
  | notDue | overrun | extraRefused | extraClosed | syncCleared | openAsked => exact absurd rfl h

theorem localEnabled_writers {i : Instr} {s t : State} (ht : exec i s = .next t)
    (h : t.localEnabled ≠ s.localEnabled) : i ∈ [.reset, .localDisable, .localEnable] := by
  obtain ⟨_, _, _, _, rfl⟩ | w | w | ⟨rfl, _⟩ := exec_next_cases ht
  · exact absurd rfl h
  · exact localEnabled_of_schedulerWork w h
  · exact absurd w.frame.localEnabled h
  · simp

theorem logPPV_of_slotWork {first : Bool} {s : State} {r : Bool × State} (w : SlotWork first s r)
    (h : s.logPPV = true) : r.2.logPPV = true := by
  cases w with
  | waitZero | gapZero => rfl
  | disabled | waitNext | gapCycle | gapNext => exact h
  | burstLast | burstNext => simpa [buildSyncStep] using h
  | waitLast => simpa [syncFinalActions, buildSyncFinal] using h
  | gapLast => simpa [valveTxActions] using h

theorem logPPV_of_schedulerWork {s t : State} {i : Instr} (w : SchedulerWork s i t) (h : s.logPPV = true) :
    t.logPPV = true := by
  cases w with
  | firstSlot => exact logPPV_of_slotWork (slotStep_work true { s with slot := 0 }) h
  | nextSlot => exact logPPV_of_slotWork (slotStep_work false { s with slot := s.slot + 1 }) h
  | overrun => rfl
  | valveBuilt | extraSent => simpa using h
  | notDue | extraRefused | extraClosed | syncCleared | localOff | localOn | openAsked => exact h

/-- Only `RESET` clears the record of a violation (R30). -/
theorem logPPV_sticky {i : Instr} {s t : State} (ht : exec i s = .next t) (hs : s.logPPV = true) :
    t.logPPV = true ∨ i = .reset := by
  obtain ⟨_, _, _, _, rfl⟩ | w | w | ⟨hi, _⟩ := exec_next_cases ht
  · exact .inl hs
  · exact .inl (logPPV_of_schedulerWork w hs)
  · exact .inl (w.frame.logPPV.trans hs)
  · exact .inr hi

theorem logRadioFault_of_hubWork {s t : State} {i : Instr} (w : HubWork s i t) (h : s.logRadioFault = true) :
    t.logRadioFault = true := by
  cases w with
  | pollQuiet | pollFault | pollRearmed | pollAccepted => simp [statusRead, h]
  | stillArmed | armed | stillOff | switchedOff | pollOff | latchTaken | aclHeld | aclAdded | aclRemoved | aclAsked
    | aclCounted => simpa using h

/-- Only `RESET` clears the record of a radio fault (R36). -/
theorem logRadioFault_sticky {i : Instr} {s t : State} (ht : exec i s = .next t) (hs : s.logRadioFault = true) :
    t.logRadioFault = true ∨ i = .reset := by
  obtain ⟨_, _, _, _, rfl⟩ | w | w | ⟨hi, _⟩ := exec_next_cases ht
  · exact .inl hs
  · exact .inl (w.frame.logRadioFault.trans hs)
  · exact .inl (logRadioFault_of_hubWork w hs)
  · exact .inr hi

/-- Settles O59: one lemma per owned field. -/
theorem stateOwners : Obligations.StateOwners := fun _ _ _ ht =>
  ⟨params_kept ht, txbuf_writers ht, rxbuf_writers ht, callerBuf_writers ht, localEnabled_writers ht,
    fun hs hcleared => (logPPV_sticky ht hs).resolve_left (by simp [hcleared]),
    fun hs hcleared => (logRadioFault_sticky ht hs).resolve_left (by simp [hcleared])⟩

end Sys2Proof.Safety
end

section
/-! No codec session outlives its operation: a codec operation's outcome is a function of its operands, the parameters and
the count of failed answers, and a session has a cause exactly when it has failed (R40, R41, R130, R138). -/

namespace Sys2Proof.Machine

open Sys2Proof.Safety

/-! ## What a codec operation leaves behind -/

/-- The operation `f` leaves nothing of a session behind: in any other state with the same parameters and count of failed
answers it answers the same and writes the same bytes. -/
def Transient (f : State → State) : Prop :=
  ∀ s s' : State, s'.params = s.params → s'.failedDecodes = s.failedDecodes →
    (f s').answer = (f s).answer
      ∧ ∀ a, Memory.read (f s).callerBuf a ≠ Memory.read s.callerBuf a →
          Memory.read (f s').callerBuf a = Memory.read (f s).callerBuf a

/-- A session ended by `FINISH` writes the same byte wherever it changes one (R61, R135). -/
theorem finishFrame_read_congr (B B' : Memory) (bits : List Bool) (a : Nat)
    (h : Memory.read (finishFrame (appendRaw ⟨B, 0⟩ bits)).1 a ≠ Memory.read B a) :
    Memory.read (finishFrame (appendRaw ⟨B', 0⟩ bits)).1 a = Memory.read (finishFrame (appendRaw ⟨B, 0⟩ bits)).1 a := by
  rw [finishFrame_read] at h
  rw [finishFrame_read, finishFrame_read]
  by_cases hbody : a < (packBits bits).length
  · simp only [if_pos hbody]
  · by_cases hend : a = (packBits bits).length
    · simp only [if_neg hbody, if_pos hend]
    · rw [if_neg hbody, if_neg hend] at h
      exact absurd rfl h

/-- A session over the caller's buffer whose raw bits and answer depend on the parameters at most. -/
theorem transient_of_finish {f : State → State} (bits : Config.Params → List Bool) (a : Config.Params → Answer)
    (hf : ∀ s, f s = { s with
      callerBuf := (finishFrame (appendRaw ⟨s.callerBuf, 0⟩ (bits s.params))).1
      answer := a s.params }) : Transient f := by
  intro s s' hp _
  have hbuf (u : State) : (f u).callerBuf = (finishFrame (appendRaw ⟨u.callerBuf, 0⟩ (bits u.params))).1 := by rw [hf]
  have ha (u : State) : (f u).answer = a u.params := by rw [hf]
  rw [hbuf, hbuf, ha, ha, hp]
  exact ⟨rfl, finishFrame_read_congr _ _ _⟩

theorem transient_makeSymbol (v : Bool) : Transient (makeSymbol v) :=
  transient_of_finish (fun _ => symbolBits v) (fun _ => .length (((symbolBits v).length + 7) / 8)) (makeSymbol_eq v)

theorem transient_makeUnit (b : Byte) : Transient (makeUnit b) :=
  transient_of_finish (fun _ => unitBits b (parity8 b)) (fun _ => .length (((unitBits b (parity8 b)).length + 7) / 8))
    (makeUnit_eq b)

/-- A build takes at most the parameters from the state: its Command may depend on them (R107). -/
theorem transient_encodeToCaller (c : Config.Params → Command) : Transient fun s => encodeToCaller (c s.params) s := by
  refine transient_of_finish (fun P => frameBits (c P) (checksum (c P)))
    (fun P => .length (framePacked (c P)).length) ?_
  intro s
  rw [encodeToCaller_eq, encodeInto_eq]

/-- A reading operation writes no byte, and answers from its window alone. -/
theorem transient_respond (a : Answer) : Transient fun s => respond s a := fun _ _ _ _ =>
  ⟨rfl, fun _ h => absurd rfl h⟩

theorem transient_decodeToAnswer (w : List Byte) : Transient (decodeToAnswer w) := fun s s' _ hn => by
  rw [decodeToAnswer_eq, decodeToAnswer_eq, hn]
  split <;> exact ⟨rfl, fun _ h => absurd rfl h⟩

theorem transient_runSymbol (v : Bool) (side : WireSide) : Transient (runSymbol v side) := by
  cases side with
  | encode => exact transient_makeSymbol v
  | decode => exact transient_respond _
  | broken w => exact transient_respond _

theorem transient_runCommand (cmd : Byte) (side : Side) (src : HouseCode) (ext : Byte) :
    Transient (runCommand cmd side src ext) := by
  cases side with
  | encode => exact transient_encodeToCaller fun _ => ⟨src.hc1, src.hc2, 0x00, cmd, ext⟩
  | decode => exact transient_decodeToAnswer _

/-- Every operation of the codec completes, and is transient. -/
theorem codecOp_transient {i : Instr} (h : CodecOp i) : ∃ f, Transient f ∧ ∀ s, exec i s = .next (f s) := by
  rcases h with ⟨side, rfl⟩ | ⟨side, rfl⟩ | ⟨side, b, p, rfl⟩ | ⟨side, c, chk, rfl⟩ | ⟨side, src, ext, rfl⟩ |
    ⟨side, src, ext, rfl⟩ | ⟨side, src, ext, rfl⟩ | ⟨c, rfl⟩ | ⟨w, rfl⟩
  · exact ⟨_, transient_runSymbol false side, fun _ => rfl⟩
  · exact ⟨_, transient_runSymbol true side, fun _ => rfl⟩
  · cases side with
    | encode => exact ⟨_, transient_makeUnit b, fun _ => rfl⟩
    | decode => exact ⟨_, transient_respond _, fun _ => rfl⟩
    | broken w => exact ⟨_, transient_respond _, fun _ => rfl⟩
  · cases side with
    | encode => exact ⟨_, transient_encodeToCaller fun P => wireCommand P c, fun _ => rfl⟩
    | decode => exact ⟨_, transient_decodeToAnswer _, fun _ => rfl⟩
    | broken w => exact ⟨_, transient_decodeToAnswer w, fun _ => rfl⟩
  · exact ⟨_, transient_runCommand _ side src ext, fun _ => rfl⟩
  · exact ⟨_, transient_runCommand _ side src ext, fun _ => rfl⟩
  · exact ⟨_, transient_runCommand _ side src ext, fun _ => rfl⟩
  · exact ⟨_, transient_encodeToCaller fun P => wireCommand P c, fun _ => rfl⟩
  · exact ⟨_, transient_decodeToAnswer w, fun _ => rfl⟩

theorem SchedulerWork.not_codecOp {s t : State} {i : Instr} (w : SchedulerWork s i t) : ¬ CodecOp i := by
  cases w <;> simp [CodecOp]

theorem HubWork.not_codecOp {s t : State} {i : Instr} (w : HubWork s i t) : ¬ CodecOp i := by
  cases w <;> simp [CodecOp]

theorem codecOp_frame {i : Instr} {s t : State} (hop : CodecOp i) (h : exec i s = .next t) : CodecFrame s t := by
  obtain ⟨_, hframe⟩ | w | w | ⟨rfl, _⟩ := exec_next_cases h
  · exact hframe
  · exact absurd hop w.not_codecOp
  · exact absurd hop w.not_codecOp
  · simp [CodecOp] at hop

/-! ## Failure and cause -/

/-- A session has a cause exactly when it has failed (R138, R139). -/
def CauseOfFailure (D : DecSession) : Prop := D.failed = true ↔ D.cause ≠ .none

theorem causeOfFailure_newSession (W : List Byte) : CauseOfFailure (newSession W) := by
  simp [CauseOfFailure, newSession]

theorem CauseOfFailure.failWith {D : DecSession} (h : CauseOfFailure D) {k : Cause} (hk : k ≠ .none) :
    CauseOfFailure (failWith D k) := by
  unfold Machine.failWith
  split
  · exact h
  · simpa [CauseOfFailure] using hk

theorem CauseOfFailure.nextPair {D : DecSession} (h : CauseOfFailure D) : CauseOfFailure (nextPair D).2 := by
  obtain ⟨_, heq⟩ | ⟨_, _, heq⟩ | ⟨_, _, _, heq⟩ := nextPair_cases D <;> rw [heq]
  · exact h
  · simp [CauseOfFailure]
  · exact h

theorem CauseOfFailure.decBit {D : DecSession} (h : CauseOfFailure D) : CauseOfFailure (decBit D).2 := by
  have h1 := h.nextPair
  have h2 := h1.nextPair
  have h3 := h2.nextPair
  have hbad (E : DecSession) (hE : CauseOfFailure E) : CauseOfFailure (Machine.failWith E .malformedPair) :=
    hE.failWith nofun
  unfold Machine.decBit
  dsimp only
  split
  · exact h
  split
  · exact h1
  split
  · exact hbad _ h1
  split
  · exact h2
  split
  · exact h2
  split
  · exact hbad _ h2
  split
  · exact h3
  split
  · exact hbad _ h3
  · exact h3

theorem CauseOfFailure.decBits (k : Nat) : ∀ (v : Byte) (x : Bool) {D : DecSession}, CauseOfFailure D →
    CauseOfFailure (decBits k v x D).2.2 := by
  induction k with
  | zero => exact fun _ _ _ h => h
  | succ k ih => exact fun _ _ _ h => ih _ _ h.decBit

theorem CauseOfFailure.decUnit {D : DecSession} (h : CauseOfFailure D) : CauseOfFailure (decUnit D).2 := by
  have hread := (CauseOfFailure.decBits 8 0 false h).decBit
  unfold Machine.decUnit
  dsimp only
  split
  · exact h
  split
  · exact hread
  split
  · exact hread.failWith nofun
  · exact hread

theorem CauseOfFailure.findStartLoop (fuel : Nat) : ∀ {D : DecSession}, CauseOfFailure D →
    CauseOfFailure (findStartLoop fuel D) := by
  induction fuel with
  | zero => exact fun h => h
  | succ fuel ih =>
    intro D h
    have hbit := h.decBit
    unfold Machine.findStartLoop
    dsimp only
    split
    · exact hbit
    split
    · exact hbit
    · exact ih hbit

theorem CauseOfFailure.decBody {D : DecSession} (h : CauseOfFailure D) : CauseOfFailure (decBody D).2.2 := by
  have hstart : CauseOfFailure (findStart D) := .findStartLoop _ h
  unfold Machine.decBody
  generalize findStart D = D0 at hstart ⊢
  exact hstart.decUnit.decUnit.decUnit.decUnit.decUnit.decUnit

theorem CauseOfFailure.checkChecksum {D : DecSession} (h : CauseOfFailure D) (c : Command) (chk : Byte) :
    CauseOfFailure (checkChecksum c chk D) := by
  unfold Machine.checkChecksum
  split
  · exact h.failWith nofun
  · exact h

theorem CauseOfFailure.checkTrailer {D : DecSession} (h : CauseOfFailure D) : CauseOfFailure (checkTrailer D) := by
  have hbit := h.decBit
  unfold Machine.checkTrailer
  dsimp only
  split
  · exact hbit.failWith nofun
  · exact hbit

theorem causeOfFailure_decodeWindow (W : List Byte) : CauseOfFailure (decodeWindow W).2 :=
  ((causeOfFailure_newSession W).decBody.checkChecksum _ _).checkTrailer

/-- Settles O55: each codec operation is transient and keeps to its frame, and the readers keep failure and cause in
step. -/
theorem codecSessionsTransient : Obligations.CodecSessionsTransient := by
  refine ⟨fun i s hop => ?_, causeOfFailure_decodeWindow⟩
  obtain ⟨f, htransient, hexec⟩ := codecOp_transient hop
  obtain ⟨buf, a, n, hframe⟩ := codecOp_frame hop (hexec s)
  refine ⟨f s, hexec s, by rw [hframe], fun s' hp hn => ?_⟩
  obtain ⟨hanswer, hbytes⟩ := htransient s s' hp hn
  exact ⟨f s', hexec s', hanswer, hbytes⟩

end Sys2Proof.Machine
end

section
/-! The state after reset meets every invariant (R20, R340). -/

namespace Sys2Proof.Safety

open Sys2Proof.Machine

theorem schedulerInv_reset : SchedulerInv State.reset :=
  .of_cleared (Nat.zero_le _) (Nat.zero_le _) rfl rfl rfl

theorem bufferInv_reset : BufferInv State.reset :=
  (bufferInv_iff _).2 ⟨⟨boundedBy_nil _, trivial⟩, boundedBy_nil _, boundedBy_nil _⟩

theorem aclInv_reset : AclInv State.reset := ⟨List.nodup_nil, Nat.zero_le _⟩

/-- Settles O49: the reset values are written out in `State.reset`; the invariants hold of them one by one. -/
theorem resetMeetsInvariants : Obligations.ResetMeetsInvariants :=
  ⟨rfl, rfl, rfl, rfl, rfl, rfl, rfl, fun _ => rfl, rfl, rfl, rfl, rfl, rfl, rfl,
    radioInv_reset, schedulerInv_reset, bufferInv_reset, aclInv_reset, rfl⟩

end Sys2Proof.Safety
end

section
/-! A byte of a symbol stream (R93): symbols begin at pair boundaries, so four pairs of the line code make each full
byte, and the line code fixes which pair may follow which. -/

namespace Sys2Proof.Machine

theorem length_pairsOf (bits : List Bool) : (pairsOf bits).length = bits.length / 2 := by
  induction bits using pairsOf.induct with
  | case1 a b rest ih => simp only [pairsOf, List.length_cons, ih]; omega
  | case2 bits h =>
    match bits, h with
    | [], _ => rfl
    | [_], _ => simp [pairsOf]
    | a :: b :: rest, h => exact (h a b rest rfl).elim

/-- Which pair may follow which in a stream of symbols: `'00'` ends a symbol and `'11'` begins one (R91, R92). -/
abbrev PairFollows (p q : Pair) : Prop :=
  (p = 0b11 ∧ (q = 0b00 ∨ q = 0b10)) ∨ (p = 0b10 ∧ q = 0b00) ∨ (p = 0b00 ∧ q = 0b11)

theorem isChain_symbolPairs (v : Bool) : (symbolPairs v).IsChain PairFollows := by cases v <;> decide

theorem getLast?_symbolPairs (v : Bool) : (symbolPairs v).getLast? = some 0b00 := by cases v <;> rfl

theorem head?_flatMap_symbolPairs {l : List Bool} {p : Pair} (h : p ∈ (l.flatMap symbolPairs).head?) : p = 0b11 := by
  cases l with
  | nil => cases h
  | cons v l => cases v <;> exact (Option.some.inj h).symm

/-- Every pair of a stream follows the one before it, inside a symbol and from one symbol to the next. -/
theorem isChain_flatMap_symbolPairs (l : List Bool) : (l.flatMap symbolPairs).IsChain PairFollows := by
  induction l with
  | nil => exact .nil
  | cons v l ih =>
    refine List.isChain_append.2 ⟨isChain_symbolPairs v, ih, fun p hp q hq => ?_⟩
    obtain rfl : 0b00 = p := by simpa [getLast?_symbolPairs] using hp
    exact .inr (.inr ⟨rfl, head?_flatMap_symbolPairs hq⟩)

/-- The pairs of a full byte stand in its stream, four in a row (R61, R63). -/
theorem bytePairs_getD_packBits_infix {bits : List Bool} (heven : bits.length % 2 = 0) {a : Nat}
    (h : 8 * (a + 1) ≤ bits.length) : bytePairs ((packBits bits).getD a 0) <:+: pairsOf bits := by
  obtain ⟨k, hk⟩ := windowPairs_packBits bits heven
  have ha : a < (packBits bits).length := by rw [length_packBits]; omega
  have hsplit : windowPairs ((packBits bits).take a) ++ bytePairs ((packBits bits).getD a 0) =
      windowPairs ((packBits bits).take (a + 1)) := by
    rw [List.take_succ_eq_append_getElem ha, windowPairs_append, List.getD_eq_getElem _ _ ha]
    simp [windowPairs]
  have hwindow : windowPairs ((packBits bits).take (a + 1)) <+: pairsOf bits ++ List.replicate k 0 := by
    rw [← hk]
    exact ⟨windowPairs ((packBits bits).drop (a + 1)), by rw [← windowPairs_append, List.take_append_drop]⟩
  have hlen : (windowPairs ((packBits bits).take (a + 1))).length ≤ (pairsOf bits).length := by
    rw [length_windowPairs, List.length_take, length_pairsOf]
    omega
  have hprefix := List.prefix_of_prefix_length_le hwindow (List.prefix_append _ _) hlen
  exact (List.suffix_append _ _).isInfix.trans (hsplit ▸ hprefix.isInfix)

/-- A byte is one of the seven values of R93 exactly when its four pairs may follow each other. -/
theorem isChain_bytePairs_iff (b : Byte) :
    (bytePairs b).IsChain PairFollows ↔ b ∈ ([0x33, 0x38, 0x8C, 0x8E, 0xCC, 0xCE, 0xE3] : List Byte) := by
  revert b; decide

/-- Settles O6: a full byte's pairs are four in a row of the stream, so they may follow each other. -/
theorem symbolStreamBytes : Obligations.SymbolStreamBytes := fun l _ hfull => by
  obtain ⟨before, after, hstream⟩ := bytePairs_getD_packBits_infix (length_flatMap_symbolBits_even l) hfull
  have hchain := isChain_flatMap_symbolPairs l
  rw [← pairsOf_flatMap_symbolBits, ← hstream] at hchain
  exact (isChain_bytePairs_iff _).1 hchain.left_of_append.right_of_append

end Sys2Proof.Machine
end

section
/-! `SYM0`, `SYM1` and `UNIT` on the encode side: a session of their own over the caller's buffer, ended by `FINISH`
(R131 to R135). -/

namespace Sys2Proof.Machine

open Sys2Proof.Safety

/-- Raw bits below the terminator: those of the session, and 0 behind them (R61, R135). -/
theorem bufferBit_finishFrame (B : Memory) (bits : List Bool) {k : Nat} (hk : k < 8 * ((bits.length + 7) / 8)) :
    bufferBit (finishFrame (appendRaw ⟨B, 0⟩ bits)).1 k = bits.getD k false := by
  rw [bufferBit, finishFrame_read, length_packBits, if_pos (by omega), getLsbD_packBits _ _ _ (by omega),
    Nat.div_add_mod]

/-- The instruction `i` makes the raw bits `bits` in a session of its own: their packed bytes in the caller's buffer,
and how many there are (R41, R135). -/
def MakesBits (i : Instr) (bits : List Bool) : Prop :=
  ∀ s, exec i s = .next { s with
    callerBuf := (finishFrame (appendRaw ⟨s.callerBuf, 0⟩ bits)).1
    answer := .length ((bits.length + 7) / 8) }

theorem makesBits_sym0 : MakesBits (.sym0 .encode) (symbolBits false) := fun s =>
  congrArg Host.Outcome.next (makeSymbol_eq false s)

theorem makesBits_sym1 : MakesBits (.sym1 .encode) (symbolBits true) := fun s =>
  congrArg Host.Outcome.next (makeSymbol_eq true s)

theorem makesBits_unit (b : Byte) (p : Bool) : MakesBits (.unit .encode b p) ((unitLogical b).flatMap symbolBits) := by
  intro s
  rw [unitLogical, ← unitBits_eq_flatMap]
  exact congrArg Host.Outcome.next (makeUnit_eq b s)

/-- Settles O15: each item makes its raw bits, and a finished session leaves them, the padding, the terminator and the
bytes behind it as R135 says. -/
theorem wireItemsEncode : Obligations.WireItemsEncode := by
  intro i bits s hitem LEN
  have hmakes : MakesBits i bits := by
    obtain ⟨rfl, rfl⟩ | ⟨rfl, rfl⟩ | ⟨b, p, rfl, rfl⟩ := hitem
    · exact makesBits_sym0
    · exact makesBits_sym1
    · exact makesBits_unit b p
  have hread := finishFrame_read s.callerBuf bits
  rw [length_packBits] at hread
  refine ⟨_, hmakes s, rfl, fun k hk => ?_, fun k hpad hk => ?_, ?_, fun a ha => ?_⟩
  · exact bufferBit_finishFrame _ bits (by omega)
  · rw [bufferBit_finishFrame _ bits hk, List.getD_eq_default _ _ hpad]
  · rw [hread, if_neg (Nat.lt_irrefl _), if_pos rfl]
    rfl
  · rw [hread, if_neg (by omega), if_neg (by omega)]

end Sys2Proof.Machine
end

section
/-! `HUB_POLL` commutes with any change of the scheduler's registers and `TXBUF` (R75, R254). -/

namespace Sys2Proof.Machine

/-- `s` with the scheduler's registers and `TXBUF` of `x` (R20). -/
def State.withSchedulerOf (s x : State) : State :=
  { s with
    sync := x.sync
    slot := x.slot
    gap := x.gap
    more := x.more
    localEnabled := x.localEnabled
    openBelief := x.openBelief
    logPPV := x.logPPV
    txbuf := x.txbuf }

/-- `f` neither reads nor writes the scheduler's registers and `TXBUF`. -/
def IgnoresScheduler (f : State → State) : Prop :=
  ∀ s x : State, f (s.withSchedulerOf x) = (f s).withSchedulerOf x

theorem ignoresScheduler_respond (a : Answer) : IgnoresScheduler fun s => respond s a := fun _ _ => rfl

theorem ignoresScheduler_respond_rxReset (a : Answer) : IgnoresScheduler fun s => respond (rxReset s) a :=
  fun _ _ => rfl

theorem ignoresScheduler_readFrame : IgnoresScheduler readFrame := fun _ _ => rfl

theorem ignoresScheduler_statusRead : IgnoresScheduler statusRead := fun _ _ => rfl

/-- A choice on a condition that does not look at the scheduler. -/
theorem IgnoresScheduler.ite {f g : State → State} (hf : IgnoresScheduler f) (hg : IgnoresScheduler g)
    {b : State → Bool} (hb : ∀ s x : State, b (s.withSchedulerOf x) = b s) :
    IgnoresScheduler fun s => if b s then f s else g s := by
  intro s x
  dsimp only
  rw [hb, apply_ite (State.withSchedulerOf · x), hf, hg]

theorem IgnoresScheduler.comp {f g : State → State} (hf : IgnoresScheduler f) (hg : IgnoresScheduler g) :
    IgnoresScheduler fun s => f (g s) := fun s x => by
  dsimp only
  rw [hg, hf]

/-- The filter reads the parameters and the accept-list, and an accepted command writes the latch and the switch
(R258). -/
theorem ignoresScheduler_receiveCommand (c : Command) : IgnoresScheduler (receiveCommand c) :=
  .comp (f := fun s => respond s (.activity true)) (ignoresScheduler_respond _)
    (.ite (fun _ _ => rfl) (fun _ _ => rfl) fun _ _ => rfl)

/-- What is read is in `RXBUF` (R254, R256, R257). -/
theorem ignoresScheduler_receiveFrame : IgnoresScheduler receiveFrame := by
  intro s x
  have hrx : (s.withSchedulerOf x).rxbuf = s.rxbuf := rfl
  unfold receiveFrame
  rw [hrx]
  split
  · exact ignoresScheduler_respond_rxReset _ s x
  · dsimp only
    split
    · exact ignoresScheduler_respond_rxReset _ s x
    · exact ignoresScheduler_receiveCommand _ s x

/-- `HUB_POLL` by its four branches (R254, R255, R262). -/
theorem hubPoll_eq (s : State) :
    hubPoll s =
      if !s.hubEnabled then respond s (.activity false)
      else if (statusAnswer s.env).frameReceived then receiveFrame (readFrame (statusRead s))
      else if (statusAnswer s.env).fifoFault then respond (rxReset (statusRead s)) (.activity false)
      else respond (statusRead s) (.activity false) := by
  rw [← logRadioFaultIf_readStatus]
  rfl

theorem ignoresScheduler_hubPoll : IgnoresScheduler hubPoll := by
  have hoff := ignoresScheduler_respond (.activity false)
  have hframe := ignoresScheduler_receiveFrame.comp (ignoresScheduler_readFrame.comp ignoresScheduler_statusRead)
  have hfault := (ignoresScheduler_respond_rxReset (.activity false)).comp ignoresScheduler_statusRead
  have hquiet := hoff.comp ignoresScheduler_statusRead
  rw [funext hubPoll_eq]
  exact hoff.ite (hframe.ite (hfault.ite hquiet fun _ _ => rfl) fun _ _ => rfl) fun _ _ => rfl

theorem acl_of_pollWork {s t : State} (w : HubWork s .hubPoll t) : t.acl = s.acl := by
  cases w with
  | pollOff | pollQuiet | pollFault | pollRearmed | pollAccepted => simp [statusRead]

/-- Settles O43: `HUB_POLL` commutes with the exchange, and its outcomes keep to the hub receiver's frame. -/
theorem hubPollIgnoresScheduler : Obligations.HubPollIgnoresScheduler := by
  intro s x swap
  obtain ⟨⟨_, hsync, hslot, hgap, hmore, hlocal, hbelief, hppv⟩, htx, _⟩ := (hubPoll_work s).frame
  exact ⟨hubPoll s, rfl, congrArg Host.Outcome.next (ignoresScheduler_hubPoll s x), hsync, hslot, hgap, hmore, hlocal,
    hbelief, hppv, htx, acl_of_pollWork (hubPoll_work s)⟩

end Sys2Proof.Machine
end

section
/-! A window's raw bits and its pairs agree on the symbols it starts with, and symbols are read in one way only (R61, R63,
R91, R92). -/

namespace Sys2Proof.Machine

open Sys2Proof.Safety

/-- The two raw bits of a pair (R11, R61). -/
def pairBits (p : Pair) : List Bool := [p.getLsbD 1, p.getLsbD 0]

theorem pairBits_symbolPairs (v : Bool) : (symbolPairs v).flatMap pairBits = symbolBits v := by cases v <;> decide

theorem pairBits_bytePairs (b : Byte) : (bytePairs b).flatMap pairBits = byteBits b := by
  simp [bytePairs, pairBits, byteBits]

/-- The raw bits of a window, pair by pair. -/
theorem windowBits_eq (W : List Byte) : windowBits W = (windowPairs W).flatMap pairBits := by
  rw [windowBits, windowPairs, List.flatMap_assoc, funext pairBits_bytePairs]

theorem symbolBits_eq_pairBits (l : List Bool) : l.flatMap symbolBits = (l.flatMap symbolPairs).flatMap pairBits := by
  rw [List.flatMap_assoc, funext pairBits_symbolPairs]

/-- A window starts with the raw bits of the logical bits `l` exactly when it starts with their pairs (R63). -/
theorem startsWithLogical_iff (W : List Byte) (l : List Bool) :
    (∃ rest, windowBits W = l.flatMap symbolBits ++ rest) ↔ ∃ r, windowPairs W = l.flatMap symbolPairs ++ r := by
  constructor
  · rintro ⟨rest, h⟩
    refine ⟨pairsOf rest, ?_⟩
    rw [windowPairs_eq, h, pairsOf_append _ _ (length_flatMap_symbolBits_even l), pairsOf_flatMap_symbolBits]
  · rintro ⟨r, h⟩
    refine ⟨r.flatMap pairBits, ?_⟩
    rw [windowBits_eq, h, List.flatMap_append, ← symbolBits_eq_pairBits]

theorem startsWithSymbol_iff (W : List Byte) (v : Bool) :
    startsWithSymbol W v ↔ ∃ r, windowPairs W = symbolPairs v ++ r := by
  simpa [startsWithSymbol] using startsWithLogical_iff W [v]

theorem startsWithUnit_iff (W : List Byte) (b : Byte) (p : Bool) :
    startsWithUnit W b p ↔ ∃ r, windowPairs W = unitPairs b p ++ r := by
  rw [unitPairs_eq_flatMap]
  exact startsWithLogical_iff W _

/-- What a decode of `c` reads, as pairs (R143, R145). -/
theorem symbolPairs_readLogical (n : Nat) (c : Command) :
    (readLogical n c).flatMap symbolPairs = bodyPairs n c (checksum c) ++ symbolPairs false := by
  simp only [readLogical, unitLogical, bodyPairs, unitPairs_eq_flatMap, List.flatMap_append, List.flatMap_singleton]

theorem carries_iff (W : List Byte) (c : Command) :
    carries W c ↔ ∃ n r, windowPairs W = bodyPairs n c (checksum c) ++ (symbolPairs false ++ r) := by
  refine exists_congr fun n => (startsWithLogical_iff W _).trans ?_
  rw [symbolPairs_readLogical]
  simp only [List.append_assoc]

/-- Packed symbols, as the pairs a window that begins with their bytes starts with (R61, R67). -/
theorem windowPairs_packed (l : List Bool) (tail : List Byte) :
    ∃ r, windowPairs (packBits (l.flatMap symbolBits) ++ tail) = l.flatMap symbolPairs ++ r := by
  obtain ⟨k, hk⟩ := windowPairs_packBits _ (length_flatMap_symbolBits_even l)
  exact ⟨List.replicate k 0 ++ windowPairs tail, by
    rw [windowPairs_append, hk, pairsOf_flatMap_symbolBits, List.append_assoc]⟩

/-- No symbol begins with the other one, so streams that begin alike begin with the same symbol (R92). -/
theorem symbolBits_append_prefix_iff (v v' : Bool) (r r' : List Bool) :
    symbolBits v ++ r <+: symbolBits v' ++ r' ↔ v = v' ∧ r <+: r' := by
  cases v <;> cases v' <;> simp [symbolBits]

/-- Settles O5, by induction on the shorter sequence: its first symbol fixes the first symbol of the other. -/
theorem symbolCodePrefixFree : Obligations.SymbolCodePrefixFree := by
  intro l
  induction l with
  | nil => exact fun _ _ => List.nil_prefix
  | cons v l ih =>
    intro l' h
    cases l' with
    | nil => cases v <;> simp [symbolBits] at h
    | cons v' l' =>
      obtain ⟨rfl, htail⟩ := (symbolBits_append_prefix_iff v v' _ _).1 h
      exact List.cons_prefix_cons.2 ⟨rfl, ih l' htail⟩

end Sys2Proof.Machine
end

section
/-! What a decode session has read when it has not failed: each reader leaves behind the pairs of the logical bits it
answers (R140 to R145). -/

namespace Sys2Proof.Machine

open Sys2Proof.Safety

/-- Between `D` and `D'` the session read the symbols of `l` and nothing else. -/
structure Reads (D : DecSession) (l : List Bool) (D' : DecSession) : Prop where
  ok : D.failed = false
  pairs : pairsLeft D = l.flatMap symbolPairs ++ pairsLeft D'

theorem Reads.trans {D E F : DecSession} {l l' : List Bool} (h : Reads D l E) (h' : Reads E l' F) :
    Reads D (l ++ l') F :=
  ⟨h.ok, by rw [h.pairs, h'.pairs, List.flatMap_append, List.append_assoc]⟩

/-- A session has failed once `fail` was called (R139). -/
theorem not_failed_failWith {D : DecSession} {k : Cause} : ¬ (failWith D k).failed = false := by
  cases h : D.failed <;> simp [failWith, h]

theorem nextPair_pairs {D : DecSession} (h : (nextPair D).2.failed = false) :
    D.failed = false ∧ pairsLeft D = (nextPair D).1 :: pairsLeft (nextPair D).2 := by
  obtain ⟨hf, heq⟩ | ⟨_, _, heq⟩ | ⟨hf, v, hv, heq⟩ := nextPair_cases D <;> rw [heq] at h ⊢
  · exact nomatch h.symm.trans hf
  · cases h
  · rw [pairAt_eq] at hv
    obtain ⟨hj, rfl⟩ := List.getElem?_eq_some_iff.1 hv
    exact ⟨hf, List.drop_eq_getElem_cons hj⟩

/-- `DEC_BIT` that has not failed has read the symbol of its answer (R141). -/
theorem decBit_reads {D : DecSession} (h : (decBit D).2.failed = false) : Reads D [(decBit D).1] (decBit D).2 := by
  revert h
  unfold decBit
  dsimp only
  split
  · next hf => exact fun h => nomatch h.symm.trans hf
  split
  · next hf => exact fun h => nomatch h.symm.trans hf
  next h1 =>
  obtain ⟨hok, hp1⟩ := nextPair_pairs (Bool.eq_false_of_not_eq_true h1)
  split
  · exact fun h => absurd h not_failed_failWith
  next e1 =>
  split
  · next hf => exact fun h => nomatch h.symm.trans hf
  next h2 =>
  obtain ⟨_, hp2⟩ := nextPair_pairs (Bool.eq_false_of_not_eq_true h2)
  split
  · next e2 =>
    intro _
    refine ⟨hok, ?_⟩
    rw [hp1, hp2, e2, not_not.1 e1]
    rfl
  split
  · exact fun h => absurd h not_failed_failWith
  next e2 =>
  split
  · next hf => exact fun h => nomatch h.symm.trans hf
  next h3 =>
  obtain ⟨_, hp3⟩ := nextPair_pairs (Bool.eq_false_of_not_eq_true h3)
  split
  · exact fun h => absurd h not_failed_failWith
  next e3 =>
  intro _
  refine ⟨hok, ?_⟩
  rw [hp1, hp2, hp3, not_not.1 e1, not_not.1 e2, not_not.1 e3]
  rfl

/-- `DEC_BIT` that has failed answers the default 0 (R139). -/
theorem decBit_default {D : DecSession} (h : (decBit D).2.failed = true) : (decBit D).1 = false := by
  revert h
  unfold decBit
  dsimp only
  iterate 6
    split
    · exact fun _ => rfl
  split
  · exact fun _ => rfl
  next hok =>
  split
  · exact fun _ => rfl
  · exact fun h => absurd h hok

/-- The loop of `DEC_UNIT` that has not failed has read as many symbols as it was to (R142). -/
theorem decBits_reads (k : Nat) : ∀ (v : Byte) (x : Bool) (D : DecSession), (decBits k v x D).2.2.failed = false →
    ∃ l, l.length = k ∧ Reads D l (decBits k v x D).2.2 := by
  induction k with
  | zero => exact fun _ _ _ h => ⟨[], rfl, h, rfl⟩
  | succ k ih =>
    intro v x D h
    obtain ⟨l, hlen, hl⟩ := ih _ _ _ h
    exact ⟨(decBit D).1 :: l, by rw [List.length_cons, hlen], (decBit_reads hl.ok).trans hl⟩

/-- Any eight bits are those of a byte (R95). -/
theorem exists_byteBits {l : List Bool} (h : l.length = 8) : ∃ b, byteBits b = l := by
  match l, h with
  | [a, b, c, d, e, f, g, i], _ =>
    exact ⟨byteOfBits [a, b, c, d, e, f, g, i], by revert a b c d e f g i; decide⟩

/-- `DEC_UNIT` that has not failed has read the good unit of its answer (R142). -/
theorem decUnit_reads {D : DecSession} (h : (decUnit D).2.failed = false) :
    Reads D (unitLogical (decUnit D).1) (decUnit D).2 := by
  have hbits : (decBit (decBits 8 0 false D).2.2).2.failed = false := by
    revert h
    unfold decUnit
    dsimp only
    split
    · next hf => exact fun h => nomatch h.symm.trans hf
    split
    · next hf => exact fun h => nomatch h.symm.trans hf
    · next hok => exact fun _ => Bool.eq_false_of_not_eq_true hok
  have hparity := decBit_reads hbits
  obtain ⟨l, hlen, hdata⟩ := decBits_reads 8 0 false D hparity.ok
  obtain ⟨b, rfl⟩ := exists_byteBits hlen
  have hpairs := (hdata.trans hparity).pairs
  rw [← unitPairs_eq_flatMap] at hpairs
  rw [decUnit_unit hdata.ok hpairs] at h ⊢
  split at h
  · next hgood =>
    rw [if_pos hgood]
    rw [hgood] at hpairs ⊢
    exact ⟨hdata.ok, by rw [pairsLeft_advance hpairs, unitLogical, ← unitPairs_eq_flatMap, hpairs]⟩
  · exact absurd h not_failed_failWith

/-- `DEC_UNIT` that has failed answers the default 0 (R139). -/
theorem decUnit_default {D : DecSession} (h : (decUnit D).2.failed = true) : (decUnit D).1 = 0 := by
  revert h
  unfold decUnit
  dsimp only
  split
  · exact fun _ => rfl
  split
  · exact fun _ => rfl
  next hok =>
  split
  · exact fun _ => rfl
  · exact fun h => absurd h hok

end Sys2Proof.Machine
end

section
/-! `DECODE` answers `ok` exactly on the windows that carry a frame, and the other wire rows on the windows that start with
their item (R112, R139, R145 to R151). -/

namespace Sys2Proof.Machine

open Sys2Proof.Safety

/-- The start search that has not failed has read zeros and a start bit. A pass that goes on reads two pairs, so a search
with more passes left than pairs does not run out of passes (R143). -/
theorem findStartLoop_reads (fuel : Nat) : ∀ D : DecSession, (pairsLeft D).length < fuel →
    (findStartLoop fuel D).failed = false → ∃ n, Reads D (List.replicate n false ++ [true]) (findStartLoop fuel D) := by
  induction fuel with
  | zero => exact fun _ hlt => absurd hlt (Nat.not_lt_zero _)
  | succ fuel ih =>
    intro D hlt
    unfold findStartLoop
    dsimp only
    split
    · next hf => exact fun h => nomatch h.symm.trans hf
    next hok =>
    have hbit := decBit_reads (Bool.eq_false_of_not_eq_true hok)
    split
    · next hone =>
      rw [hone] at hbit
      exact fun _ => ⟨0, hbit⟩
    next hzero =>
    rw [Bool.eq_false_of_not_eq_true hzero] at hbit
    intro h
    have hlen := congrArg List.length hbit.pairs
    simp only [List.flatMap_singleton, symbolPairs, List.length_append, List.length_cons, List.length_nil] at hlen
    obtain ⟨n, hn⟩ := ih (decBit D).2 (by omega) h
    exact ⟨n + 1, hbit.trans hn⟩

@[simp] theorem pairsLeft_newSession (W : List Byte) : pairsLeft (newSession W) = windowPairs W := rfl

theorem findStart_reads {W : List Byte} (h : (findStart (newSession W)).failed = false) :
    ∃ n, Reads (newSession W) (List.replicate n false ++ [true]) (findStart (newSession W)) :=
  findStartLoop_reads _ _ (by rw [pairsLeft_newSession, length_windowPairs]; exact Nat.lt_succ_self _) h

/-- The logical bits of a frame's body behind its leading zeros: start bit and six good units (R97, R145). -/
def bodyLogical (n : Nat) (c : Command) (chk : Byte) : List Bool :=
  List.replicate n false ++ [true] ++ unitLogical c.hc1 ++ unitLogical c.hc2 ++ unitLogical c.address
    ++ unitLogical c.command ++ unitLogical c.extension ++ unitLogical chk

/-- Steps (1) and (2) that have not failed have read the body of the Command they answer (R145). -/
theorem decBody_reads {W : List Byte} (h : (decBody (newSession W)).2.2.failed = false) :
    ∃ n, Reads (newSession W) (bodyLogical n (decBody (newSession W)).1 (decBody (newSession W)).2.1)
      (decBody (newSession W)).2.2 := by
  have u6 := decUnit_reads h
  have u5 := decUnit_reads u6.ok
  have u4 := decUnit_reads u5.ok
  have u3 := decUnit_reads u4.ok
  have u2 := decUnit_reads u3.ok
  have u1 := decUnit_reads u2.ok
  obtain ⟨n, h0⟩ := findStart_reads u1.ok
  exact ⟨n, (((((h0.trans u1).trans u2).trans u3).trans u4).trans u5).trans u6⟩

/-- Step (4) that has not failed has read a trailer 0 (R145). -/
theorem checkTrailer_reads {D : DecSession} (h : (checkTrailer D).failed = false) : Reads D [false] (checkTrailer D) := by
  revert h
  unfold checkTrailer
  dsimp only
  split
  · exact fun h => absurd h not_failed_failWith
  next hzero =>
  intro h
  have hbit := decBit_reads h
  rwa [show (decBit D).1 = false by simpa [h] using hzero] at hbit

/-- Step (3) that has not failed has found the checksum of the Command, and changes nothing (R145). -/
theorem checkChecksum_ok {c : Command} {chk : Byte} {D : DecSession} (h : (checkChecksum c chk D).failed = false) :
    chk = checksum c ∧ checkChecksum c chk D = D := by
  revert h
  unfold checkChecksum
  split
  · exact fun h => absurd h not_failed_failWith
  · next heq => exact fun h => ⟨by simpa [h] using heq, rfl⟩

theorem decodeWindow_eq (W : List Byte) :
    decodeWindow W = ((decBody (newSession W)).1,
      checkTrailer (checkChecksum (decBody (newSession W)).1 (decBody (newSession W)).2.1 (decBody (newSession W)).2.2)) :=
  rfl

theorem frameFields_eq (W : List Byte) :
    frameFields W = ((decBody (newSession W)).1, (decBody (newSession W)).2.1, checkTrailer (decBody (newSession W)).2.2) :=
  rfl

/-- A decode that has not failed has read a frame of the Command it answers (R145 to R147). -/
theorem carries_of_decodeWindow {W : List Byte} (h : (decodeWindow W).2.failed = false) :
    carries W (decodeWindow W).1 := by
  rw [decodeWindow_eq] at h ⊢
  have htrailer := checkTrailer_reads h
  obtain ⟨hchk, hsame⟩ := checkChecksum_ok htrailer.ok
  rw [hsame] at htrailer
  obtain ⟨n, hbody⟩ := decBody_reads htrailer.ok
  rw [hchk] at hbody
  exact ⟨n, (startsWithLogical_iff W _).2 ⟨_, (hbody.trans htrailer).pairs⟩⟩

/-- A decode of a window that carries `c` answers it (R145). -/
theorem decodeWindow_of_carries {W : List Byte} {c : Command} (h : carries W c) :
    (decodeWindow W).1 = c ∧ (decodeWindow W).2.failed = false := by
  obtain ⟨n, r, hpairs⟩ := (carries_iff W c).1 h
  rw [decodeWindow_frame hpairs]
  exact ⟨rfl, rfl⟩

/-- The answer of a decode that failed; its five fields are free (R146). -/
theorem decodeToAnswer_failed {W : List Byte} (h : (decodeWindow W).2.failed = true) (s : State) :
    ∃ f, decodeToAnswer W s = { s with failedDecodes := s.failedDecodes + 1, answer := .decoded false f } :=
  ⟨_, by rw [decodeToAnswer_eq, if_pos h]⟩

theorem decodeToAnswer_of_carries {W : List Byte} {c : Command} (h : carries W c) (s : State) :
    decodeToAnswer W s = { s with answer := .decoded true c } := by
  obtain ⟨rfl, hok⟩ := decodeWindow_of_carries h
  rw [decodeToAnswer_eq, if_neg (by simp [hok])]

theorem decodeToAnswer_of_not_carries {W : List Byte} (h : ∀ c, ¬ carries W c) (s : State) :
    ∃ f, decodeToAnswer W s = { s with failedDecodes := s.failedDecodes + 1, answer := .decoded false f } :=
  decodeToAnswer_failed (Bool.eq_true_of_not_eq_false fun hok => h _ (carries_of_decodeWindow hok)) s

/-- Settles O10: a decode answers what a carrying window carries, and one that has not failed was of a carrying window. -/
theorem decodeReadsCarriedFrames : Obligations.DecodeReadsCarriedFrames := fun _ s =>
  ⟨fun _ h => congrArg Host.Outcome.next (decodeToAnswer_of_carries h s), fun h =>
    (decodeToAnswer_of_not_carries h s).imp fun _ => congrArg Host.Outcome.next⟩

/-- The bytes of a frame, with whatever follows them, carry its Command (R97, R147). -/
theorem carries_frame (c : Command) (tail : List Byte) : carries (frameOf c ++ tail) c := by
  obtain ⟨r, hr⟩ := windowPairs_frame c (checksum c) tail
  exact (carries_iff _ c).2 ⟨12, r, hr⟩

/-- A frame whose checksum unit is wrong fails (R99, R145). -/
theorem decodeWindow_wrong_checksum {c : Command} {chk : Byte} (h : chk ≠ checksum c) :
    (decodeWindow (frameBytes c chk)).2.failed = true := by
  obtain ⟨r, hr⟩ := windowPairs_frame c chk [Config.terminator]
  rw [decodeWindow_eq, frameBytes, decBody_frame hr]
  simp [checkChecksum, newSession, h, failWith, checkTrailer_failed]

/-- Settles O18: the frame's own bytes carry its Command, a wrong checksum unit fails, and so does a broken window. -/
theorem frameRowDecodes : Obligations.FrameRowDecodes := by
  refine fun c chk s => ⟨?_, fun hne => ?_, fun _ hW => ?_⟩
  · rintro rfl
    exact congrArg Host.Outcome.next (decodeToAnswer_of_carries (carries_frame c _) s)
  · exact (decodeToAnswer_failed (decodeWindow_wrong_checksum hne) s).imp fun _ => congrArg Host.Outcome.next
  · exact (decodeToAnswer_of_not_carries hW s).imp fun _ => congrArg Host.Outcome.next

/-! ## Symbols and units -/

/-- `DEC_BIT` at the start of a window that starts with a symbol (R141). -/
theorem decBit_newSession {W : List Byte} {v : Bool} {r : List Pair} (h : windowPairs W = symbolPairs v ++ r) :
    decBit (newSession W) = (v, { newSession W with j := (symbolPairs v).length }) := by
  rw [decBit_symbol (D := newSession W) rfl h]
  simp [newSession]

theorem readSymbol_of_startsWith {W : List Byte} {v : Bool} (h : startsWithSymbol W v) (s : State) :
    readSymbol W s = { s with answer := .bit true v } := by
  obtain ⟨r, hr⟩ := (startsWithSymbol_iff W v).1 h
  rw [readSymbol, decBit_newSession hr]
  rfl

theorem readSymbol_of_broken {W : List Byte} (h : ∀ v, ¬ startsWithSymbol W v) (s : State) :
    readSymbol W s = { s with answer := .bit false false } := by
  have hfail : (decBit (newSession W)).2.failed = true := Bool.eq_true_of_not_eq_false fun hok =>
    h _ ((startsWithSymbol_iff W _).2 ⟨_, by simpa using (decBit_reads hok).pairs⟩)
  simp [readSymbol, decBit_default hfail, hfail, respond]

/-- The byte of a symbol, with whatever follows it, starts with that symbol (R61). -/
theorem startsWithSymbol_packed (v : Bool) (tail : List Byte) :
    startsWithSymbol (packBits (symbolBits v) ++ tail) v := by
  have h := windowPairs_packed [v] tail
  rw [List.flatMap_singleton, List.flatMap_singleton] at h
  exact (startsWithSymbol_iff _ v).2 h

/-- Settles O13: `DEC_BIT` answers the symbol a window starts with, and fails where there is none. -/
theorem readSymbolResult : Obligations.ReadSymbolResult := fun s =>
  ⟨congrArg Host.Outcome.next (readSymbol_of_startsWith (startsWithSymbol_packed false []) s),
    congrArg Host.Outcome.next (readSymbol_of_startsWith (startsWithSymbol_packed true []) s), fun _ h =>
    ⟨congrArg Host.Outcome.next (readSymbol_of_broken h s), congrArg Host.Outcome.next (readSymbol_of_broken h s)⟩⟩

/-- `DEC_UNIT` of a packed unit: its byte, or the failure `PARITY` (R142). -/
theorem decUnit_packed (b : Byte) (p : Bool) :
    ∃ j, decUnit (newSession (packBits (unitBits b p))) =
      if p = parity8 b then (b, ⟨packBits (unitBits b p), j, false, .none⟩)
      else (0, ⟨packBits (unitBits b p), j, true, .parity⟩) := by
  obtain ⟨k, hk⟩ := newSession_unit b p
  exact ⟨_, decUnit_unit rfl hk⟩

theorem readUnit_of_broken {W : List Byte} (h : ∀ b p, ¬ startsWithUnit W b p) (s : State) :
    readUnit W s = { s with answer := .byte false 0 } := by
  have hfail : (decUnit (newSession W)).2.failed = true := Bool.eq_true_of_not_eq_false fun hok =>
    h _ _ ((startsWithLogical_iff W _).2 ⟨_, (decUnit_reads hok).pairs⟩)
  simp [readUnit, decUnit_default hfail, hfail, respond]

/-- Settles O14: `DEC_UNIT` of a packed unit turns on its parity bit, and fails where a window starts with no unit. -/
theorem readUnitResult : Obligations.ReadUnitResult := by
  intro b p s
  obtain ⟨j, hj⟩ := decUnit_packed b p
  refine ⟨fun hgood => ?_, fun hbad => ?_, fun _ hW => congrArg Host.Outcome.next (readUnit_of_broken hW s)⟩
  · rw [if_pos hgood] at hj
    simp [exec, execUnit, readUnit, hj, respond]
  · rw [if_neg hbad] at hj
    simp [exec, execUnit, readUnit, hj, respond]

end Sys2Proof.Machine
end

section
/-! The decoder undoes the encoder: on the packed bytes of each wire item, with anything behind them, and on the operation
codes (R90 to R111). -/

namespace Sys2Proof.Machine

open Sys2Proof.Safety

/-! ## Wire items -/

theorem decodeSymbol_of_startsWith {W : List Byte} {v : Bool} (h : startsWithSymbol W v) :
    decodeSymbol W = if v then .sym1 .decode else .sym0 .decode := by
  obtain ⟨r, hr⟩ := (startsWithSymbol_iff W v).1 h
  rw [decodeSymbol, decBit_newSession hr]
  rfl

theorem decodeSymbol_packed (v : Bool) (tail : List Byte) :
    decodeSymbol (packBits (symbolBits v) ++ tail) = if v then .sym1 .decode else .sym0 .decode :=
  decodeSymbol_of_startsWith (startsWithSymbol_packed v tail)

theorem decodeSymbol_of_failed {W : List Byte} (h : (decBit (newSession W)).2.failed = true) :
    decodeSymbol W = if startsAsOne W then .sym1 (.broken W) else .sym0 (.broken W) := by
  rw [decodeSymbol]
  dsimp only
  rw [if_pos h]

/-- The nine symbols of a unit, read without a look at their parity (R95). -/
theorem unitFields_of_startsWith {W : List Byte} {b : Byte} {p : Bool} (h : startsWithUnit W b p) :
    unitFields W = (b, p, { newSession W with j := (unitPairs b p).length }) := by
  obtain ⟨r, hr⟩ := (startsWithUnit_iff W b p).1 h
  rw [unitPairs, List.append_assoc, ← pairsLeft_newSession] at hr
  have hlen : (byteBits b).length = 8 := rfl
  have hdata := decBits_symbols (byteBits b) 0 false (newSession W) _ rfl hr
  rw [hlen, foldl_byteBits] at hdata
  have hparity := decBit_symbol rfl (pairsLeft_advance hr)
  rw [unitFields, hdata]
  dsimp only
  rw [hparity]
  simp [unitPairs, newSession]

theorem decodeUnit_of_startsWith {W : List Byte} {b : Byte} {p : Bool} (h : startsWithUnit W b p) :
    decodeUnit W = .unit .decode b p := by
  rw [decodeUnit, unitFields_of_startsWith h]
  rfl

/-- The bytes of a unit, with whatever follows them, start with that unit (R61). -/
theorem startsWithUnit_packed (b : Byte) (p : Bool) (tail : List Byte) :
    startsWithUnit (packBits (unitBits b p) ++ tail) b p := by
  have h := windowPairs_packed (byteBits b ++ [p]) tail
  rw [← unitBits_eq_flatMap, ← unitPairs_eq_flatMap] at h
  exact (startsWithUnit_iff _ b p).2 h

theorem decodeUnit_packed (b : Byte) (p : Bool) (tail : List Byte) :
    decodeUnit (packBits (unitBits b p) ++ tail) = .unit .decode b p :=
  decodeUnit_of_startsWith (startsWithUnit_packed b p tail)

/-- The bytes of a frame, with whatever follows them, are read as its Command and its checksum unit (R97). -/
theorem decodeFrame_packed (c : Command) (chk : Byte) (tail : List Byte) :
    decodeFrame (packBits (frameBits c chk) ++ tail) = .frame .decode c chk := by
  obtain ⟨r, hr⟩ := windowPairs_frame c chk tail
  have hleft := pairsLeft_advance ((pairsLeft_newSession _).trans hr)
  rw [show (newSession (packBits (frameBits c chk) ++ tail)).j = 0 from rfl, Nat.zero_add] at hleft
  rw [decodeFrame, frameFields_eq, decBody_frame hr, checkTrailer_zero rfl hleft]
  rfl

/-! ## Requests -/

/-- A reserved code takes any arguments (R111). -/
theorem decodeHostop_reserved {code : BitVec 5} (h : code = 0x00 ∨ 0x14 ≤ code.toNat) (args : List Byte) :
    decodeHostop code args = .ok (.reserved code) := by
  have hcode : code.toNat = 0 ∨ 0x14 ≤ code.toNat := h.imp_left fun hzero => by rw [hzero]; rfl
  unfold decodeHostop
  split
  case h_20 => rfl
  all_goals omega

/-- Settles O50: the arm of `RESERVED` refuses, and no code from 1 to 0x13 is reserved. -/
theorem reservedRefused : Obligations.ReservedRefused :=
  ⟨fun _ _ => rfl, fun _ args h => decodeHostop_reserved h args⟩

theorem decode_sym0 {side : WireSide} (h : WellFormed (.sym0 side)) :
    decodeRequest (encodeInstr (.sym0 side)) = .ok (.sym0 side) := by
  cases side with
  | encode => rfl
  | decode => exact congrArg Decoded.ok (by simpa using decodeSymbol_packed false [])
  | broken w =>
    obtain ⟨hfail, hstart⟩ : (decBit (newSession w)).2.failed = true ∧ startsAsOne w = false := by
      simpa [WellFormed, wellFormed] using h
    exact congrArg Decoded.ok (by simp [decodeSymbol_of_failed hfail, hstart])

theorem decode_sym1 {side : WireSide} (h : WellFormed (.sym1 side)) :
    decodeRequest (encodeInstr (.sym1 side)) = .ok (.sym1 side) := by
  cases side with
  | encode => rfl
  | decode => exact congrArg Decoded.ok (by simpa using decodeSymbol_packed true [])
  | broken w =>
    obtain ⟨hfail, hstart⟩ : (decBit (newSession w)).2.failed = true ∧ startsAsOne w = true := by
      simpa [WellFormed, wellFormed] using h
    exact congrArg Decoded.ok (by simp [decodeSymbol_of_failed hfail, hstart])

theorem decode_unit {side : WireSide} {b : Byte} {p : Bool} (h : WellFormed (.unit side b p)) :
    decodeRequest (encodeInstr (.unit side b p)) = .ok (.unit side b p) := by
  cases side with
  | encode =>
    obtain rfl : p = parity8 b := by simpa [WellFormed, wellFormed] using h
    rfl
  | decode => exact congrArg Decoded.ok (by simpa using decodeUnit_packed b p [])
  | broken w =>
    obtain ⟨⟨hfail, rfl⟩, rfl⟩ : ((unitFields w).2.2.failed = true ∧ b = 0) ∧ p = false := by
      simpa [WellFormed, wellFormed] using h
    exact congrArg Decoded.ok (by simp [decodeUnit, hfail])

theorem decode_frame {side : WireSide} {c : Command} {chk : Byte} (h : WellFormed (.frame side c chk)) :
    decodeRequest (encodeInstr (.frame side c chk)) = .ok (.frame side c chk) := by
  cases side with
  | encode =>
    obtain rfl : chk = checksum c := by simpa [WellFormed, wellFormed] using h
    rfl
  | decode => exact congrArg Decoded.ok (decodeFrame_packed c chk _)
  | broken w =>
    obtain ⟨⟨hfail, rfl⟩, rfl⟩ : ((frameFields w).2.2.failed = true ∧ c = .zero) ∧ chk = 0 := by
      simpa [WellFormed, wellFormed] using h
    exact congrArg Decoded.ok (by simp [decodeFrame, hfail])

theorem decode_reserved {code : BitVec 5} (h : WellFormed (.reserved code)) :
    decodeRequest (encodeInstr (.reserved code)) = .ok (.reserved code) :=
  decodeHostop_reserved (by simpa [WellFormed, wellFormed] using h) []

/-- Settles O1, row by row: the wire items by what their packed bytes start with, the others by their codes. -/
theorem decodeEncodeRoundTrip : Obligations.DecodeEncodeRoundTrip := by
  intro i h
  cases i with
  | sym0 => exact decode_sym0 h
  | sym1 => exact decode_sym1 h
  | unit => exact decode_unit h
  | frame => exact decode_frame h
  | reserved => exact decode_reserved h
  | hubEnable force => cases force <;> rfl
  | valveSet | syncStep | syncFinal | encode | decode | aclAdd | aclRemove | aclQuery => rfl
  | reset | valveBuild | pollFirst | pollNext | extraTx | syncReset | localDisable | localEnable | isOpen => rfl
  | hubDisable | hubPoll | latchGetClear | aclCount => rfl

/-! ## Table words -/

/-- Settles O2: eleven words, each decoded by evaluation. -/
theorem tableWordsDecode : Obligations.TableWordsDecode := by
  unfold Obligations.TableWordsDecode
  decide +kernel

/-- A table word that decodes is a request that decodes to the same instruction. -/
theorem decodeTableWord_eq_some {nbits w : Nat} {i : Instr} (h : decodeTableWord nbits w = some i) :
    ∃ r, tableRequest nbits w = some r ∧ decodeRequest r = .ok i := by
  unfold decodeTableWord at h
  split at h
  · cases h
  next r hr =>
  split at h
  · next hi => exact ⟨r, hr, by rw [hi, Option.some.inj h]⟩
  · cases h

/-- Settles O3: the word's request is at the head of the inbox, and taking it restores the state. -/
theorem wordRunsAsRequest : Obligations.WordRunsAsRequest := by
  intro s nbits w i h
  obtain ⟨r, hr, hi⟩ := decodeTableWord_eq_some h
  have hissued : s.withFetchWord nbits w = issueRequest s r := by rw [State.withFetchWord, hr]
  rw [hissued]
  exact step_of_decode_ok (s := issueRequest s r) rfl hi

end Sys2Proof.Machine
end

section
/-! The encode side of the wire rows: what a row leaves in the caller's buffer, and that it decodes to the decode side of
the same row (R136, R149). -/

namespace Sys2Proof.Machine

open Sys2Proof.Safety

/-- A finished session's bytes, at the start of every window of the buffer that holds them (R61, R135). -/
theorem bytes_finishFrame (B : Memory) (bits : List Bool) {n : Nat} (h : (bits.length + 7) / 8 ≤ n) :
    ∃ tail, Memory.bytes (finishFrame (appendRaw ⟨B, 0⟩ bits)).1 0 n = packBits bits ++ tail := by
  rw [← length_packBits] at h
  suffices hprefix : packBits bits <+: Memory.bytes (finishFrame (appendRaw ⟨B, 0⟩ bits)).1 0 n from
    hprefix.imp fun _ => Eq.symm
  refine List.prefix_iff_getElem.2 ⟨by rwa [Memory.length_bytes], fun a ha => ?_⟩
  rw [Memory.getElem_bytes, Nat.zero_add, finishFrame_read, if_pos ha, List.getD_eq_getElem _ _ ha]

/-- What a built row leaves in the buffer decodes as its packed bytes do, whatever follows them. -/
theorem decodes_after_build {i j : Instr} {ask : List Byte → Request} {s : State} {bits : List Bool}
    (hexec : exec i s = .next { s with
      callerBuf := (finishFrame (appendRaw ⟨s.callerBuf, 0⟩ bits)).1
      answer := .length ((bits.length + 7) / 8) })
    (hread : ∀ tail, decodeRequest (ask (packBits bits ++ tail)) = .ok j) :
    ∃ t LEN, exec i s = .next t ∧ t.answer = .length LEN
      ∧ ∀ n, LEN ≤ n → decodeRequest (ask (Memory.bytes t.callerBuf 0 n)) = .ok j := by
  refine ⟨_, _, hexec, rfl, fun n hn => ?_⟩
  obtain ⟨tail, htail⟩ := bytes_finishFrame s.callerBuf bits hn
  rw [htail]
  exact hread tail

/-- `FRAME` on the encode side makes the raw bits of its Command's frame, the address as R107 says (R136). -/
theorem exec_frame_encode (c : Command) (chk : Byte) (s : State) :
    let w := wireCommand s.params c
    exec (.frame .encode c chk) s = .next { s with
      callerBuf := (finishFrame (appendRaw ⟨s.callerBuf, 0⟩ (frameBits w (checksum w)))).1
      answer := .length (((frameBits w (checksum w)).length + 7) / 8) } := by
  intro w
  rw [← length_packBits, ← encodeInto_eq]
  exact congrArg Host.Outcome.next (encodeToCaller_eq w s)

/-- Settles O16: each row makes its packed bits, and those decode to the row's decode side. -/
theorem wireRowsRoundTrip : Obligations.WireRowsRoundTrip := by
  rintro i j ask s (⟨rfl, rfl, rfl⟩ | ⟨rfl, rfl, rfl⟩ | ⟨b, p, rfl, rfl, rfl⟩ | ⟨c, chk, rfl, rfl, rfl⟩)
  · exact decodes_after_build (makesBits_sym0 s) fun tail =>
      congrArg Decoded.ok (decodeSymbol_packed false tail)
  · exact decodes_after_build (makesBits_sym1 s) fun tail =>
      congrArg Decoded.ok (decodeSymbol_packed true tail)
  · have hmakes := makesBits_unit b p s
    rw [unitLogical, ← unitBits_eq_flatMap] at hmakes
    exact decodes_after_build hmakes fun tail =>
      congrArg Decoded.ok (decodeUnit_packed b _ tail)
  · exact decodes_after_build (exec_frame_encode c chk s) fun tail => congrArg Decoded.ok (decodeFrame_packed _ _ tail)

/-- A build into the caller's buffer, in the terms of the statements (R67, R135, R136). -/
theorem encodeToCaller_builds (c : Command) (s : State) :
    buildsFrame s.callerBuf (encodeToCaller c s).callerBuf c
      ∧ encodeToCaller c s =
        { s with callerBuf := (encodeToCaller c s).callerBuf, answer := .length (frameOf c).length } := by
  rw [encodeToCaller_eq]
  exact ⟨encodeInto_builds c s.callerBuf, rfl⟩

/-- Settles O17: each of the four rows is a build of its Command into the caller's buffer. -/
theorem frameRowsEncode : Obligations.FrameRowsEncode := by
  intro i c s hrow
  have hbuild : exec i s = .next (encodeToCaller c s) := by
    obtain ⟨c0, chk, rfl, rfl⟩ | ⟨src, ext, rfl, rfl⟩ | ⟨src, ext, rfl, rfl⟩ | ⟨src, ext, rfl, rfl⟩ := hrow <;> rfl
  exact ⟨_, hbuild, encodeToCaller_builds c s⟩

end Sys2Proof.Machine
end

section
/-! The extension scale: strictly increasing, so a threshold is the same on it as on percentages (R104, R258). -/

namespace Sys2Proof.Machine

/-- `EXT` does not wrap on percentages (R104). -/
theorem toNat_extOf {p : Nat} (h : p ≤ 100) : (extOf p).toNat = (255 * p + 50) / 100 := by
  rw [extOf, BitVec.toNat_ofNat, Nat.mod_eq_of_lt (by omega)]

/-- The scale is strictly increasing: one percent more is at least 2 more in the extension. -/
theorem extOf_lt {p q : Nat} (hpq : p < q) (hq : q ≤ 100) : (extOf p).toNat < (extOf q).toNat := by
  rw [toNat_extOf (by omega), toNat_extOf hq]
  omega

/-- Settles O46: a strictly increasing scale keeps and reflects the order. -/
theorem thresholdOnExtensionScale : Obligations.ThresholdOnExtensionScale := by
  refine ⟨fun p q => extOf_lt, fun P p => ?_⟩
  have hp : p.val ≤ 100 := Nat.le_of_lt_succ p.isLt
  rw [extThreshold, toNat_extOf P.minReallyOpenPc.property.2, toNat_extOf hp]
  omega

end Sys2Proof.Machine
end

section
/-! Received frames: a window of `RXBUF` that starts inside the preamble of a frame carries its Command, and what
`HUB_POLL` does with it (R254 to R260). -/

namespace Sys2Proof.Machine

open Sys2Proof.Safety

/-! ## Windows that start inside a preamble -/

/-- A frame is six preamble bytes and, packed from a byte boundary, what is read behind them with one more trailer 0
(R97). -/
theorem frameOf_eq_preamble (c : Command) :
    frameOf c = List.replicate 6 0xCC ++ packBits ((readLogical 0 c ++ [false]).flatMap symbolBits) := by
  have hbits : frameBits c (checksum c) = preambleBits ++ (readLogical 0 c ++ [false]).flatMap symbolBits := by
    simp only [frameBits, readLogical, unitLogical, unitBits_eq_flatMap, List.flatMap_append, List.flatMap_singleton,
      List.replicate_zero, List.nil_append, List.append_assoc]
  rw [frameOf, hbits]
  rfl

/-- A preamble byte in front is two more leading zeros (R93, R151). -/
theorem carries_cons_preamble {W : List Byte} {c : Command} (h : carries W c) : carries (0xCC :: W) c := by
  obtain ⟨n, rest, hbits⟩ := h
  refine ⟨n + 2, rest, ?_⟩
  have hzeros : byteBits 0xCC = symbolBits false ++ symbolBits false := by decide
  rw [windowBits, List.flatMap_cons, ← windowBits, hbits, hzeros]
  simp only [readLogical, List.replicate_succ, List.cons_append, List.flatMap_cons, List.append_assoc]

theorem carries_preamble_append {W : List Byte} {c : Command} (h : carries W c) (k : Nat) :
    carries (List.replicate k 0xCC ++ W) c := by
  induction k with
  | zero => exact h
  | succ k ih => exact carries_cons_preamble ih

/-- Any number of the preamble bytes of a frame may be skipped (R151, R256). -/
theorem carries_drop_frame (c : Command) (tail : List Byte) {pos : Nat} (h : pos ≤ 6) :
    carries ((frameOf c ++ tail).drop pos) c := by
  rw [frameOf_eq_preamble, List.append_assoc, List.drop_append_of_le_length (by rwa [List.length_replicate]),
    List.drop_replicate]
  refine carries_preamble_append ?_ _
  obtain ⟨rest, hbits⟩ := (startsWithLogical_iff _ _).2 (windowPairs_packed (readLogical 0 c ++ [false]) tail)
  exact ⟨0, symbolBits false ++ rest, by rw [hbits, List.flatMap_append, List.flatMap_singleton, List.append_assoc]⟩

/-! ## The preamble check -/

/-- The skip loop stays within the first six bytes (R256). -/
theorem skipPreamble_le (m : Memory) (fuel : Nat) : ∀ pos, pos ≤ 6 → skipPreamble m fuel pos ≤ 6 := by
  induction fuel with
  | zero => exact fun _ h => h
  | succ fuel ih =>
    intro pos h
    unfold skipPreamble
    split
    · next hskip => exact ih _ hskip.1
    · exact h

/-- A buffer whose first byte is a preamble byte is not rejected (R256). -/
theorem preambleCheck_of_first {m : Memory} (h : Memory.read m 0 = 0xCC) : ∃ pos ≤ 6, preambleCheck m = some pos := by
  have hfirst : ¬ (Memory.read m 0 ≠ Config.preambleByte ∧ Memory.read m 1 ≠ Config.preambleByte) := fun hbad =>
    hbad.1 h
  rw [preambleCheck, if_neg hfirst]
  exact ⟨_, skipPreamble_le m _ _ (by split <;> decide), rfl⟩

/-- The window of a buffer into which bytes were read is what is left of them (R254, R257). -/
theorem Memory.bytes_writeBytes (m : Memory) (bs : List Byte) (pos : Nat) :
    Memory.bytes (Memory.writeBytes m 0 bs) pos (bs.length - pos) = bs.drop pos := by
  apply List.ext_getElem
  · rw [Memory.length_bytes, List.length_drop]
  · intro i hi hi'
    rw [List.length_drop] at hi'
    rw [Memory.getElem_bytes, Memory.read_writeBytes, if_pos (by omega), Nat.sub_zero, List.getElem_drop,
      List.getD_eq_getElem]

/-! ## What a received command does -/

/-- The acceptance filter on bytes is the one on numbers (R258, R264). -/
theorem accepts_iff (s : State) (c : Command) : accepts s c = true ↔ isCallForHeat s.params s.acl c := by
  have hthreshold : extThreshold s.params ≤ c.extension ↔
      (255 * s.params.minReallyOpenPc.val + 50) / 100 ≤ c.extension.toNat := by
    rw [BitVec.le_def, extThreshold, toNat_extOf s.params.minReallyOpenPc.property.2]
  simp [accepts, aclAccepts, isCallForHeat, hthreshold, Config.cmdValveSet, and_assoc]

/-- A frame in `RXBUF` is received as its Command (R256, R257). -/
theorem receiveFrame_of_carries {s : State} {pos : Nat} {c : Command} (hpos : preambleCheck s.rxbuf = some pos)
    (hc : carries (Memory.bytes s.rxbuf pos (Config.rxBufCap - pos)) c) : receiveFrame s = receiveCommand c s := by
  obtain ⟨rfl, hok⟩ := decodeWindow_of_carries hc
  simp [receiveFrame, hpos, hok]

/-- Bytes that start with a frame, tail and all, are received as its Command (R254, R256, R257). -/
theorem receiveFrame_of_frame {s : State} {c : Command} {tail : List Byte}
    (h : (frameAnswer s.env).val = frameOf c ++ tail) :
    receiveFrame (readFrame s) = receiveCommand c (readFrame s) := by
  have hlen : (frameOf c ++ tail).length = Config.rxBufCap := by rw [← h]; exact (frameAnswer s.env).property
  have hbuf : (readFrame s).rxbuf = Memory.writeBytes s.rxbuf 0 (frameOf c ++ tail) := by rw [readFrame_rxbuf, h]
  have hfirst : Memory.read (readFrame s).rxbuf 0 = 0xCC := by
    rw [hbuf, Memory.read_writeBytes, if_pos (by simp [hlen, Config.rxBufCap]), frameOf_eq_preamble]
    rfl
  obtain ⟨pos, hle, hpos⟩ := preambleCheck_of_first hfirst
  refine receiveFrame_of_carries hpos ?_
  rw [hbuf, ← hlen, Memory.bytes_writeBytes]
  exact carries_drop_frame c tail hle

/-- Any command is activity (R258, R259). -/
theorem receiveCommand_answer (c : Command) (s : State) : (receiveCommand c s).answer = .activity true := rfl

/-- An accepted command is recorded and ends reception (R258, R260). -/
theorem receiveCommand_of_accepts {s : State} {c : Command} (h : accepts s c = true) :
    receiveCommand c s =
      respond (setStandby { s with latch := some ⟨c.hc1, c.hc2⟩, hubEnabled := false }) (.activity true) := by
  rw [receiveCommand, if_pos h]

/-- Any other command re-arms the receiver (R259). -/
theorem receiveCommand_of_not_accepts {s : State} {c : Command} (h : ¬ accepts s c = true) :
    receiveCommand c s = respond (rxReset s) (.activity true) := by
  rw [receiveCommand, if_neg h]

/-- An enabled `HUB_POLL` that is read a frame runs its Command (R254, R257). -/
theorem hubPoll_of_frame {s : State} {c : Command} {tail : List Byte} (hen : s.hubEnabled = true)
    (hst : statusAnswer s.env = ⟨true, false⟩)
    (hfr : (frameAnswer (afterStatus s.env)).val = frameOf c ++ tail) :
    hubPoll s = receiveCommand c (readFrame (statusRead s)) := by
  rw [← receiveFrame_of_frame (s := statusRead s) hfr, hubPoll_eq, hst]
  simp [hen]

/-- Settles O19: the frames of the three commands carry them, and a received frame is filtered by what it carries. -/
theorem receivedCommands : Obligations.ReceivedCommands := by
  intro src ext s
  have hread (cmd : Byte) : runCommand cmd .decode src ext s =
      { s with answer := .decoded true ⟨src.hc1, src.hc2, 0x00, cmd, ext⟩ } :=
    decodeToAnswer_of_carries (carries_frame ⟨src.hc1, src.hc2, 0x00, cmd, ext⟩ [Config.terminator]) s
  refine ⟨congrArg Host.Outcome.next (hread 0x26), congrArg Host.Outcome.next (hread 0x2C),
    congrArg Host.Outcome.next (hread 0x20), ?_⟩
  intro cmd tail hen hst c hfr
  have hfilter := accepts_iff (readFrame (statusRead s)) c
  refine ⟨hubPoll s, rfl, ?_⟩
  rw [hubPoll_of_frame hen hst hfr]
  refine ⟨receiveCommand_answer _ _, fun hcall => ?_, fun hother => ?_⟩
  · rw [receiveCommand_of_accepts (hfilter.2 hcall)]
    simp [c]
  · rw [receiveCommand_of_not_accepts (hother ∘ hfilter.1)]
    simp [statusRead, hen]

end Sys2Proof.Machine
end

section
/-! `ENCODE` in the caller's buffer and back: what each byte of a frame is, how long it is, and that a decode of the
buffer gives back its Command (R136, R137, R149). -/

namespace Sys2Proof.Machine

open Sys2Proof.Safety

/-! ## `ENCODE` and a decode of its buffer -/

/-- `ENCODE` builds the frame that goes on the wire, into the caller's buffer (R107, R136). -/
theorem exec_encode (c : Command) (s : State) :
    exec (.encode c) s = .next (encodeToCaller (wireCommand s.params c) s) := rfl

/-- Settles O7: `ENCODE` is a build of the Command on the wire into the caller's buffer. -/
theorem encodeResult : Obligations.EncodeResult := fun c s =>
  ⟨_, exec_encode c s, encodeToCaller_builds (wireCommand s.params c) s⟩

/-- Every window of a built buffer that holds the frame's bytes carries its Command (R67, R147). -/
theorem carries_encodeInto (c : Command) (B : Memory) {n : Nat} (h : (encodeInto c B).2 ≤ n) :
    carries (Memory.bytes (encodeInto c B).1 0 n) c := by
  rw [encodeInto_len, framePacked, length_packBits] at h
  obtain ⟨tail, htail⟩ := bytes_finishFrame B (frameBits c (checksum c)) h
  rw [encodeInto_eq, htail]
  exact carries_frame c tail

/-- Settles O9: the window carries the Command, so a decode answers it. -/
theorem encodeThenDecode : Obligations.EncodeThenDecode := fun c B _ s h =>
  congrArg Host.Outcome.next (decodeToAnswer_of_carries (carries_encodeInto c B h) s)

/-! ## The length of a frame -/

/-- Only the byte 0 has a unit without ones (R96). -/
theorem unitOnesHalf_eq_zero_iff (b : Byte) : unitOnesHalf b = 0 ↔ b = 0 := by
  revert b; decide +kernel

/-- No frame is all zeros: the checksum of five zero bytes is the seed (R99). -/
theorem frameOnesHalf_pos (c : Command) : 0 < frameOnesHalf c (checksum c) := by
  rw [Nat.pos_iff_ne_zero]
  intro h
  simp only [frameOnesHalf, Nat.add_eq_zero_iff, unitOnesHalf_eq_zero_iff] at h
  obtain ⟨⟨⟨⟨⟨h1, h2⟩, h3⟩, h4⟩, h5⟩, hchk⟩ := h
  simp [checksum, h1, h2, h3, h4, h5, Config.checksumSeed] at hchk

/-- Every frame has at least 36 bytes (R100). -/
theorem le_frameLength (c : Command) : 36 ≤ frameLength c := by
  have hk := frameOnesHalf_pos c
  rw [frameLength]
  omega

/-- The Command on the wire takes only `ADR_USED` from the parameters (R107). -/
theorem wireCommand_congr {P Q : Config.Params} (h : P.adrUsed = Q.adrUsed) (c : Command) :
    wireCommand P c = wireCommand Q c := by
  rw [wireCommand, wireCommand, h]

/-- The frame on the wire and its terminator fit `BUF_CAP` (R9, R100, R107). -/
theorem frameLength_wireCommand_lt (P : Config.Params) (c : Command) : frameLength (wireCommand P c) < bufCap P := by
  cases h : P.adrUsed with
  | true =>
    have hle := frameLength_le (wireCommand P c)
    rw [bufCap, if_pos h]
    omega
  | false =>
    have hadr : (wireCommand P c).address = 0x00 := by simp [wireCommand, h]
    have hle := frameLength_le_of_address_zero hadr
    rw [bufCap, if_neg (by simp [h])]
    omega

/-! ## The bytes of a frame -/

/-- Byte `a` of packed raw bits is made of the bits from `8 a` on (R61). -/
theorem getD_packBits (bits : List Bool) (a : Nat) : (packBits bits).getD a 0 = byteOfBits (bits.drop (8 * a)) := by
  refine byte_ext fun k hk => ?_
  rw [getLsbD_packBits _ _ _ hk, getLsbD_byteOfBits _ _ hk]
  simp [List.getD_eq_getElem?_getD]

/-- A frame starts with its preamble (R97). -/
theorem frameOf_getD_preamble (c : Command) {a : Nat} (h : a < 6) : (frameOf c).getD a 0 = 0xCC := by
  rw [frameOf_eq_preamble, List.getD_append _ _ _ _ (by rwa [List.length_replicate]), List.getD_replicate _ h]

/-- The symbol of a 1 at the start of a byte is its upper six bits, whatever follows it (R61, R91). -/
theorem extractLsb'_byteOfBits_symbolBits_true (rest : List Bool) :
    (byteOfBits (symbolBits true ++ rest)).extractLsb' 2 6 = 0b111000 := by
  have key : ∀ x y : Bool, (byteOfBits (symbolBits true ++ [x, y])).extractLsb' 2 6 = 0b111000 := by decide
  exact key (rest.getD 0 false) (rest.getD 1 false)

/-- The start bit follows the preamble (R97). -/
theorem frameOf_getD_start (c : Command) : ((frameOf c).getD 6 0).extractLsb' 2 6 = 0b111000 := by
  rw [frameOf, getD_packBits]
  exact extractLsb'_byteOfBits_symbolBits_true _

/-- The raw bits of a frame end in its two trailer symbols (R97). -/
theorem frameBits_eq_append_trailer (c : Command) : ∃ body : List Bool,
    body.length = 270 + 4 * frameOnesHalf c (checksum c)
      ∧ frameBits c (checksum c) = body ++ (symbolBits false ++ symbolBits false) := by
  have hlen := length_frameBits c
  obtain ⟨body, hbody⟩ : ∃ body, frameBits c (checksum c) = body ++ (symbolBits false ++ symbolBits false) :=
    ⟨_, List.append_assoc _ _ _⟩
  refine ⟨body, ?_, hbody⟩
  rw [hbody, List.length_append, show (symbolBits false ++ symbolBits false).length = 8 from rfl] at hlen
  omega

/-- The last byte of a frame holds the end of its trailer: two raw bits of it for `K` odd, six for `K` even (R98). -/
theorem frameOf_getD_last (c : Command) :
    (frameOf c).getD (frameLength c - 1) 0 = if frameOnesHalf c (checksum c) % 2 = 1 then 0x00 else 0x30 := by
  obtain ⟨body, hlen, hbits⟩ := frameBits_eq_append_trailer c
  rw [frameOf, getD_packBits, hbits, frameLength]
  generalize frameOnesHalf c (checksum c) = K at hlen ⊢
  rw [List.drop_append, List.drop_eq_nil_of_le (by omega), List.nil_append, hlen]
  split
  · rw [show 8 * (35 + (K + 1) / 2 - 1) - (270 + 4 * K) = 6 by omega]
    decide
  · rw [show 8 * (35 + (K + 1) / 2 - 1) - (270 + 4 * K) = 2 by omega]
    decide

/-- No byte of a frame is the terminator: a full byte is one of the seven of R93, the last one is 0 or 0x30 (R137). -/
theorem frameOf_getD_ne_terminator (c : Command) {a : Nat} (h : a < frameLength c) : (frameOf c).getD a 0 ≠ 0xFF := by
  by_cases hfull : 8 * (a + 1) ≤ (frameBits c (checksum c)).length
  · rw [frameBits_eq_flatMap] at hfull
    have hseven := symbolStreamBytes _ a hfull
    rw [← frameBits_eq_flatMap, ← frameOf] at hseven
    intro hff
    rw [hff] at hseven
    exact absurd hseven (by decide)
  · rw [length_frameBits] at hfull
    rw [show a = frameLength c - 1 by rw [frameLength] at h ⊢; omega, frameOf_getD_last]
    split <;> decide

/-! ## The properties of `ENCODE` -/

theorem length_frameOf (c : Command) : (frameOf c).length = frameLength c := length_framePacked c

/-- The bytes of the caller's buffer after a build, by where they stand (R67). -/
theorem encodeToCaller_read_frame (c : Command) (s : State) {a : Nat} (h : a < frameLength c) :
    Memory.read (encodeToCaller c s).callerBuf a = (frameOf c).getD a 0 := by
  rw [(encodeToCaller_builds c s).1 a, length_frameOf, if_pos h]

theorem encodeToCaller_read_end (c : Command) (s : State) :
    Memory.read (encodeToCaller c s).callerBuf (frameLength c) = 0xFF := by
  rw [(encodeToCaller_builds c s).1, length_frameOf, if_neg (Nat.lt_irrefl _), if_pos rfl]
  rfl

theorem encodeToCaller_read_behind (c : Command) (s : State) {a : Nat} (h : frameLength c < a) :
    Memory.read (encodeToCaller c s).callerBuf a = Memory.read s.callerBuf a := by
  rw [(encodeToCaller_builds c s).1 a, length_frameOf, if_neg (by omega), if_neg (by omega)]

theorem encodeToCaller_answer (c : Command) (s : State) : (encodeToCaller c s).answer = .length (frameLength c) := by
  rw [encodeToCaller_eq, length_framePacked]

/-- The bytes up to the terminator depend on the Command only (R137 (a)). -/
theorem encodeToCaller_determined (c : Command) (s s' : State) {a : Nat} (h : a ≤ frameLength c) :
    Memory.read (encodeToCaller c s').callerBuf a = Memory.read (encodeToCaller c s).callerBuf a := by
  rcases h.lt_or_eq with hlt | rfl
  · rw [encodeToCaller_read_frame c s' hlt, encodeToCaller_read_frame c s hlt]
  · rw [encodeToCaller_read_end, encodeToCaller_read_end]

/-- Settles O8, clause by clause: each is one fact about the length or the bytes of the frame. -/
theorem encodeProperties : Obligations.EncodeProperties := by
  intro c s w K
  have hmin : 36 ≤ frameLength w := le_frameLength w
  refine ⟨_, frameLength w, exec_encode c s, encodeToCaller_answer w s, ?determined, rfl, hmin, frameLength_le w,
    frameLength_le_of_address_zero, fun _ => encodeToCaller_read_behind w s, frameLength_wireCommand_lt s.params c,
    fun a ha => ?preamble, ?start, fun a ha => ?inside, encodeToCaller_read_end w s, ?last⟩
  case determined =>
    intro s' t' hadr hexec
    rw [exec_encode, wireCommand_congr hadr] at hexec
    obtain rfl := Host.Outcome.next.inj hexec
    exact ⟨encodeToCaller_answer w s', fun _ => encodeToCaller_determined w s s'⟩
  case preamble => exact (encodeToCaller_read_frame w s (by omega)).trans (frameOf_getD_preamble w ha)
  case start => exact (congrArg _ (encodeToCaller_read_frame w s (by omega))).trans (frameOf_getD_start w)
  case inside => exact (encodeToCaller_read_frame w s ha).trans_ne (frameOf_getD_ne_terminator w ha)
  case last => exact (encodeToCaller_read_frame w s (by omega)).trans (frameOf_getD_last w)

end Sys2Proof.Machine
end

section
/-! A decode session pair by pair: the sticky failure, and `DEC_BIT` by the pairs it finds (R139 to R141). -/

namespace Sys2Proof.Machine

/-- The first failure sets the flag and the cause (R139). -/
theorem failWith_of_ok {D : DecSession} (h : D.failed = false) (k : Cause) :
    failWith D k = { D with failed := true, cause := k } := by
  simp [failWith, h]

/-- Settles O11: the first failure, and each reader on a failed session. -/
theorem stickyDecodeFailure : Obligations.StickyDecodeFailure := fun _ =>
  ⟨failWith_of_ok, fun h =>
    ⟨fun _ => failWith_failed h, nextPair_failed h, decBit_failed h, decUnit_failed h, findStart_failed h⟩⟩

/-- At the end of the window `NEXT_PAIR` fails with `EXHAUSTED` (R140). -/
theorem nextPair_of_none {W : List Byte} {j : Nat} {k : Cause} (h : pairAt W j = none) :
    nextPair ⟨W, j, false, k⟩ = (0, ⟨W, j, true, .exhausted⟩) := by
  simp [nextPair, h, failWith]

/-- Inside the window `NEXT_PAIR` answers its pair and moves on (R140). -/
theorem nextPair_of_some {W : List Byte} {j : Nat} {k : Cause} {v : Pair} (h : pairAt W j = some v) :
    nextPair ⟨W, j, false, k⟩ = (v, ⟨W, j + 1, false, k⟩) := by
  simp [nextPair, h]

/-- Settles O12, by the first, the second and the third pair: each is missing, wrong, or the one that lets `DEC_BIT` go
on. -/
theorem decBitByPairs : Obligations.DecBitByPairs := by
  rintro ⟨W, j, f, k⟩ p failed
  refine ⟨decBit_failed, ?_, ?_, ?_⟩
  · rintro rfl h0
    have n0 : nextPair ⟨W, j, false, k⟩ = _ := nextPair_of_none h0
    simp [decBit, n0, failed]
  · rintro x rfl h0 hx
    have n0 : nextPair ⟨W, j, false, k⟩ = _ := nextPair_of_some h0
    simp only [decBit, n0, if_pos hx]
    rfl
  rintro rfl h0
  have n0 : nextPair ⟨W, j, false, k⟩ = _ := nextPair_of_some h0
  refine ⟨fun h1 => ?_, fun h1 => ?_, fun x h1 hx hx' => ?_, fun h1 => ?_⟩
  · have n1 : nextPair ⟨W, j + 1, false, k⟩ = _ := nextPair_of_none h1
    simp [decBit, n0, n1, failed]
  all_goals have n1 : nextPair ⟨W, j + 1, false, k⟩ = _ := nextPair_of_some h1
  · simp [decBit, n0, n1]
  · simp only [decBit, n0, n1, if_neg hx, if_pos hx']
    rfl
  refine ⟨fun h2 => ?_, fun x h2 hx => ?_, fun h2 => ?_⟩
  · have n2 : nextPair ⟨W, j + 1 + 1, false, k⟩ = _ := nextPair_of_none h2
    simp [decBit, n0, n1, n2, failed]
  all_goals have n2 : nextPair ⟨W, j + 1 + 1, false, k⟩ = _ := nextPair_of_some h2
  · simp only [decBit, n0, n1, n2, if_pos hx]
    rfl
  · simp [decBit, n0, n1, n2]

end Sys2Proof.Machine
end

section
/-! The FrameBuilder: what a build reads, what it leaves in `TXBUF`, and its frame (R171, R174, R176). -/

namespace Sys2Proof.Machine

open Sys2Proof.Safety

/-- The two reads of a build, in the terms of the statements (R171). -/
theorem envAfterCodes_eq_afterBuild (e : Env) : envAfterCodes e = afterBuild e := rfl

/-- The Command of a build, in the terms of the statements (R171): reading house code 1 leaves the script of house code 2 as
it is. -/
theorem builtCommand_eq_builtFrom (e : Env) (cmd ext : Byte) : builtCommand e cmd ext = builtFrom e cmd ext := rfl

/-- The read of the demand moves the environment on (R174). -/
theorem getDemand_env_eq_afterDemand (s : State) : (getDemand s).2.env = afterDemand s.env := rfl

/-- A build into `TXBUF`, in the terms of the statements (R67, R171). -/
theorem build_builds (cmd ext : Byte) (s : State) :
    buildsFrame s.txbuf (build cmd ext s).txbuf (builtFrom s.env cmd ext)
      ∧ build cmd ext s = { s with
          txbuf := (build cmd ext s).txbuf
          trace := s.trace ++ [.getHouseCode1, .getHouseCode2]
          env := afterBuild s.env } := by
  rw [build_eq, builtCommand_eq_builtFrom, envAfterCodes_eq_afterBuild]
  exact ⟨encodeInto_builds _ s.txbuf, rfl⟩

/-- `BUILD_VALVE_SET` is a build in the environment the read of the demand leaves (R174). -/
theorem buildValveSet_builds (s : State) :
    buildsFrame s.txbuf (buildValveSet s).txbuf
        (builtFrom (afterDemand s.env) Config.cmdValveSet (extOf (demandAnswer s.env).val))
      ∧ buildValveSet s = { s with
          txbuf := (buildValveSet s).txbuf
          trace := s.trace ++ [.getRequestedOpenPercent, .getHouseCode1, .getHouseCode2]
          env := afterBuild (afterDemand s.env) } := by
  have hdemand : buildValveSet s = build Config.cmdValveSet (extOf (demandAnswer s.env).val) (getDemand s).2 := rfl
  obtain ⟨hframe, hstate⟩ := build_builds Config.cmdValveSet (extOf (demandAnswer s.env).val) (getDemand s).2
  rw [← hdemand, getDemand_env_eq_afterDemand] at hframe hstate
  refine ⟨hframe, hstate.trans ?_⟩
  rw [getDemand_trace, List.append_assoc]
  rfl

/-- `VALVE_BUILD` always answers, with nothing (R176). -/
theorem exec_valveBuild (s : State) : exec .valveBuild s = .next { buildValveSet s with answer := .none } := rfl

/-- Settles O20: `VALVE_BUILD` is `BUILD_VALVE_SET` with no answer. -/
theorem valveBuildResult : Obligations.ValveBuildResult := by
  intro s
  obtain ⟨hframe, hstate⟩ := buildValveSet_builds s
  exact ⟨_, exec_valveBuild s, hframe, congrArg (fun t => { t with answer := .none }) hstate⟩

end Sys2Proof.Machine
end

section
/-! The scheduler's counters in numbers, and its invariant as what rules out a violation (R205, R304). -/

namespace Sys2Proof.Safety

open Sys2Proof.Machine

/-- Settles O47: both formulas stay within a byte for every slot of a cycle. -/
theorem slotFormulaBounds : Obligations.SlotFormulaBounds := by
  intro P hc2 slot hslot
  have hle : slot ≤ 7 := hslot.trans (Nat.le_of_lt_succ P.maxSlot.isLt)
  have hlow := lowBits_le hc2
  have hwait := toNat_finalWaitOf hc2 hle
  have hgap := toNat_gapOf hc2 hle
  exact ⟨rfl, hwait, by omega, by omega, hgap, by omega, by omega⟩

/-- A slot's work records no violation: the invariant leaves neither a zero wait nor a zero gap (R23, R212). -/
theorem SchedulerInv.logPPV_of_slotWork {first : Bool} {s : State} {r : Bool × State} (h : SchedulerInv s)
    (w : SlotWork first s r) : r.2.logPPV = s.logPPV := by
  cases w with
  | waitZero _ hs => exact absurd (h.wait_range 0 hs).1 (by decide)
  | gapZero _ hs hg =>
    have hpos := h.gap_pos hs
    rw [hg] at hpos
    exact absurd hpos (by decide)
  | disabled | waitNext | gapCycle | gapNext => rfl
  | burstLast | burstNext => simp [buildSyncStep]
  | waitLast => simp [syncFinalActions, buildSyncFinal]
  | gapLast => simp [valveTxActions]

/-- Of the scheduler's outcomes only the overrun records a violation (R304). -/
theorem SchedulerInv.violation_of_schedulerWork {s t : State} {i : Instr} (h : SchedulerInv s)
    (w : SchedulerWork s i t) : Overrun i s ∧ t.logPPV = true ∨ ¬ Overrun i s ∧ t.logPPV = s.logPPV := by
  cases w with
  | overrun hmore hslot => exact .inl ⟨⟨rfl, hmore, hslot⟩, rfl⟩
  | firstSlot =>
    exact .inr ⟨nofun, (h.atSlot (Nat.zero_le _)).logPPV_of_slotWork (slotStep_work true _)⟩
  | nextSlot _ hslot =>
    have hle := h.slot_le
    have hnext := h.atSlot (slot := s.slot + 1) (by omega)
    exact .inr ⟨fun ⟨_, _, hlast⟩ => hslot hlast, hnext.logPPV_of_slotWork (slotStep_work false _)⟩
  | notDue hmore => exact .inr ⟨fun ⟨_, hdue, _⟩ => absurd (hmore.symm.trans hdue) nofun, rfl⟩
  | valveBuilt | extraSent => exact .inr ⟨nofun, by simp⟩
  | extraRefused | extraClosed | syncCleared | localOff | localOn | openAsked => exact .inr ⟨nofun, rfl⟩

theorem not_codecOp_pollNext : ¬ CodecOp .pollNext := by simp [CodecOp]

/-- Settles O56: the codec and the hub receiver leave the record alone, `RESET` clears it, and of the scheduler's
outcomes only the overrun sets it. -/
theorem violationsOnlyByOverrun : Obligations.ViolationsOnlyByOverrun := by
  intro i s t hinv hnone ht
  have hcases : Overrun i s ∧ t.logPPV = true ∨ ¬ Overrun i s ∧ t.logPPV = false := by
    obtain ⟨hop, hframe⟩ | w | w | ⟨rfl, rfl⟩ := exec_next_cases ht
    · exact .inr ⟨fun ⟨hi, _⟩ => not_codecOp_pollNext (hi ▸ hop), hframe.schedulerKept.logPPV.trans hnone⟩
    · exact (hinv.violation_of_schedulerWork w).imp_right fun ⟨hno, hsame⟩ => ⟨hno, hsame.trans hnone⟩
    · exact .inr ⟨fun ⟨hi, _⟩ => (by subst hi; cases w), w.frame.logPPV.trans hnone⟩
    · exact .inr ⟨nofun, rfl⟩
  obtain ⟨hover, hset⟩ | ⟨hno, hclear⟩ := hcases
  · exact iff_of_true (by simp [NoViolation, hset]) hover
  · exact iff_of_false (not_not.2 hclear) hno

end Sys2Proof.Safety
end

section
/-! The polls of the scheduler, outcome by outcome: what the slot's work does, what it sends, and the frame of the poll
(R192 to R203). -/

namespace Sys2Proof.Machine

open Sys2Proof.Safety

/-! ## What is transmitted -/

/-- A buffer that holds a frame without address hands over exactly that frame: it fits the capacity and none of its
bytes is the terminator (R85, R100, R137). -/
theorem holdsPayload_of_holdsFrame {P : Config.Params} {m : Memory} {c : Command} (h : holdsFrame m c)
    (hadr : c.address = 0x00) : holdsPayload P m (frameOf c) := by
  have hlen : (frameOf c).length ≤ 45 := length_frameOf c ▸ frameLength_le_of_address_zero hadr
  have hcap : 46 ≤ bufCap P := by
    rw [bufCap]
    split <;> decide
  obtain ⟨hbytes, hend⟩ := h
  exact ⟨by omega, hend, fun a ha => ⟨hbytes a ha, frameOf_getD_ne_terminator c (length_frameOf c ▸ ha)⟩⟩

/-- A frame built and sent: it is in `TXBUF`, and it is the one transmission (R171, R206). -/
theorem tx_build (cmd ext : Byte) (s : State) :
    ∃ m, buildsFrame s.txbuf m (builtFrom s.env cmd ext) ∧ tx (build cmd ext s) = { s with
      txbuf := m
      radioMode := modeAfterSend s.hubEnabled (frameOf (builtFrom s.env cmd ext)) s.radioMode
      trace := s.trace ++ [.getHouseCode1, .getHouseCode2]
        ++ sendEvents s.hubEnabled (frameOf (builtFrom s.env cmd ext))
      env := afterBuild s.env } := by
  obtain ⟨hbuilt, hstate⟩ := build_builds cmd ext s
  refine ⟨_, hbuilt, ?_⟩
  rw [tx_of_payload (holdsPayload_of_holdsFrame (buildsFrame.holds hbuilt) rfl), hstate]

/-! ## One slot's work, by the sync state -/

theorem slotStep_of_disabled {s : State} (first : Bool) (hen : s.localEnabled = false) :
    slotStep first s = (false, { s with sync := .unsynced }) := by simp [slotStep, hen]

theorem slotStep_of_burstDue {s : State} {c : Countdown} (first : Bool) (hen : s.localEnabled = true)
    (hdue : BurstDue s c) : slotStep first s = burstStep c s := by
  obtain ⟨hs, rfl⟩ | hs := hdue <;> simp [slotStep, hen, hs]

theorem slotStep_of_finalWait {s : State} {w : Byte} (first : Bool) (hen : s.localEnabled = true)
    (hs : s.sync = .finalWait w) : slotStep first s = finalStep w s := by simp [slotStep, hen, hs]

theorem slotStep_of_synced {s : State} (first : Bool) (hen : s.localEnabled = true) (hs : s.sync = .synced) :
    slotStep first s = syncedStep first s := by simp [slotStep, hen, hs]

theorem finalStep_zero (s : State) : finalStep 0 s = (false, violation s) := rfl

theorem finalStep_one (s : State) : finalStep 1 s = (false, syncFinalActions s) := rfl

theorem finalStep_of_two_le {w : Byte} (h : 2 ≤ w.toNat) (s : State) :
    finalStep w s = (true, { s with sync := .finalWait (w - 1) }) := by
  rw [finalStep, if_neg (by bv_omega), if_pos (by bv_omega)]

theorem syncedStep_of_gap_zero {s : State} (first : Bool) (h : s.gap = 0) :
    syncedStep first s = (false, violation s) := by rw [syncedStep, if_pos h]

theorem syncedStep_cycle {s : State} (h : nSlots s.params < s.gap.toNat) :
    syncedStep true s = (false, { s with gap := s.gap - BitVec.ofNat 8 (nSlots s.params) }) := by
  rw [syncedStep, if_neg (by bv_omega), if_pos ⟨rfl, h⟩]

theorem syncedStep_slot {s : State} {first : Bool} (h : 2 ≤ s.gap.toNat)
    (hfirst : first = true → s.gap.toNat ≤ nSlots s.params) :
    syncedStep first s = (true, { s with gap := s.gap - 1 }) := by
  rw [syncedStep, if_neg (by bv_omega), if_neg fun ⟨hf, hlt⟩ => absurd (hfirst hf) (by omega)]
  exact if_pos (by bv_omega)

theorem syncedStep_of_gap_one {s : State} (first : Bool) (h : s.gap = 1) :
    syncedStep first s = (false, valveTxActions { s with gap := 0 }) := by
  simp [syncedStep, h, nSlots]

/-- `VALVE_TX_ACTIONS` with a payload in `TXBUF` (R201). -/
theorem valveTxActions_of_payload {s : State} {pl : List Byte} (h : holdsPayload s.params s.txbuf pl) :
    valveTxActions s = { s with
      gap := gapOf (houseCode2Answer (afterDemand s.env)) s.slot
      openBelief := reallyOpen s.params (demandAnswer s.env)
      radioMode := modeAfterSend s.hubEnabled pl s.radioMode
      trace := s.trace ++ sendEvents s.hubEnabled pl ++ [.getRequestedOpenPercent, .getHouseCode2]
      env := afterHouseCode2 (afterDemand s.env) } := by
  simp [valveTxActions, tx_of_payload h, getDemand, getHouseCode2, emitEvent, afterDemand, afterHouseCode2]

/-- After a countdown other than 3 the next one is lower by 2 (R197). -/
theorem toNat_burstNext (c : Countdown) (h : c.val ≠ 3) : (burstNext c h).val.toNat + 2 = c.val.toNat := by
  have hlow := c.property.2.1
  show (c.val - 2#8).toNat + 2 = c.val.toNat
  bv_omega

/-- `SYNC_FINAL_ACTIONS`: the frame that is sent, and the valve-set frame built over it (R199). -/
theorem syncFinalActions_builds (s : State) :
    ∃ m m', buildsFrame s.txbuf m (builtFrom s.env Config.cmdSyncFinal 0x00)
      ∧ buildsFrame m m' (builtFrom (afterDemand (afterBuild s.env)) Config.cmdValveSet
          (extOf (demandAnswer (afterBuild s.env)).val))
      ∧ syncFinalActions s = { s with
          sync := .synced
          gap := gapOf (houseCode2Answer (afterBuild (afterDemand (afterBuild s.env)))) s.slot
          openBelief := false
          txbuf := m'
          radioMode := modeAfterSend s.hubEnabled (frameOf (builtFrom s.env Config.cmdSyncFinal 0x00)) s.radioMode
          trace := s.trace ++ [.getHouseCode1, .getHouseCode2]
            ++ sendEvents s.hubEnabled (frameOf (builtFrom s.env Config.cmdSyncFinal 0x00))
            ++ [.getRequestedOpenPercent, .getHouseCode1, .getHouseCode2, .getHouseCode2]
          env := afterHouseCode2 (afterBuild (afterDemand (afterBuild s.env))) } := by
  obtain ⟨m, hbuilt, hsent⟩ := tx_build Config.cmdSyncFinal 0x00 s
  obtain ⟨hvalve, hstate⟩ := buildValveSet_builds { tx (build Config.cmdSyncFinal 0x00 s) with
    sync := .synced, openBelief := false }
  rw [syncFinalActions, buildSyncFinal]
  dsimp only
  rw [hstate]
  rw [hsent] at hvalve ⊢
  refine ⟨m, _, hbuilt, hvalve, ?_⟩
  simp [getHouseCode2, emitEvent, afterHouseCode2]

/-! ## A poll -/

/-- Where a due poll does its slot's work, `s0`, all that this work reads of the state `s` of the poll is as before: only
the slot counter has moved (R192, R193). -/
structure SlotMoved (s s0 : State) : Prop where
  params : s.params = s0.params
  sync : s.sync = s0.sync
  gap : s.gap = s0.gap
  localEnabled : s.localEnabled = s0.localEnabled
  txbuf : s.txbuf = s0.txbuf
  hubEnabled : s.hubEnabled = s0.hubEnabled
  radioMode : s.radioMode = s0.radioMode
  trace : s.trace = s0.trace
  env : s.env = s0.env

theorem slotMoved_of_pollStart {i : Instr} {s s0 : State} (h : pollStart i s = some s0) : SlotMoved s s0 := by
  have hframe := pollStart_frame h
  generalize s0.slot = n at hframe
  subst hframe
  constructor <;> rfl

/-- A due poll ends with what its slot's work answers. -/
theorem exec_poll {i : Instr} {s s0 : State} {r : Bool × State} (h : pollStart i s = some s0)
    (hr : slotStep (decide (i = .pollFirst)) s0 = r) : exec i s = .next (pollAnswer r) := by
  rw [exec_of_pollStart h, hr]

theorem pollNext_of_not_more {s : State} (hmore : s.more = false) : pollNext s = respond s (.flag false) := by
  simp [pollNext, hmore]

theorem pollNext_of_overrun {s : State} (hmore : s.more = true) (hslot : s.slot = s.params.maxSlot.val) :
    pollNext s = respond (violation s) (.flag false) := by simp [pollNext, hmore, hslot]

/-- Settles O27: the slot's work of a disabled scheduler is a return to `UNSYNCED`. -/
theorem disabledPoll : Obligations.DisabledPoll := by
  intro i s s0 hstart hen
  rw [(slotMoved_of_pollStart hstart).localEnabled] at hen
  exact exec_poll hstart (slotStep_of_disabled _ hen)

/-- Settles O22: a wait of 2 or more goes down by 1. -/
theorem finalWaitPoll : Obligations.FinalWaitPoll := by
  intro i s s0 h hstart hen hs hwait
  have hsame := slotMoved_of_pollStart hstart
  rw [hsame.localEnabled] at hen
  rw [hsame.sync] at hs
  exact exec_poll hstart ((slotStep_of_finalWait _ hen hs).trans (finalStep_of_two_le hwait s0))

/-- A `POLL_FIRST` with a gap above the cycle's slots loses them all, whatever the state it starts in (R200). -/
theorem exec_pollFirst_cycle {s s0 : State} (hstart : pollStart .pollFirst s = some s0) (hen : s.localEnabled = true)
    (hs : s.sync = .synced) (hgap : nSlots s.params < s.gap.toNat) :
    exec .pollFirst s = .next { s0 with
      gap := BitVec.ofNat 8 (s.gap.toNat - nSlots s.params), more := false, answer := .flag false } := by
  have hsub : s.gap - BitVec.ofNat 8 (nSlots s.params) = BitVec.ofNat 8 (s.gap.toNat - nSlots s.params) := by bv_omega
  have hsame := slotMoved_of_pollStart hstart
  rw [hsame.localEnabled] at hen
  rw [hsame.sync] at hs
  rw [hsame.params, hsame.gap] at hgap
  rw [← hsub, hsame.params, hsame.gap]
  exact exec_poll hstart ((slotStep_of_synced true hen hs).trans (syncedStep_cycle hgap))

/-- Settles O24: `POLL_FIRST` is always due. -/
theorem syncedCyclePoll : Obligations.SyncedCyclePoll := fun _ hen hs hgap => exec_pollFirst_cycle rfl hen hs hgap

/-- Settles O25: a gap of 2 or more goes down by 1. -/
theorem syncedSlotPoll : Obligations.SyncedSlotPoll := by
  intro i s s0 hstart hen hs hgap hfirst
  have hsame := slotMoved_of_pollStart hstart
  rw [hsame.localEnabled] at hen
  rw [hsame.sync] at hs
  rw [hsame.gap] at hgap hfirst ⊢
  rw [hsame.params] at hfirst
  have hcount := syncedStep_slot hgap fun hi => hfirst (of_decide_eq_true hi)
  exact exec_poll hstart ((slotStep_of_synced _ hen hs).trans hcount)

/-- Settles O26: the buffer's payload is what `TX` hands over, and `VALVE_TX_ACTIONS` sets the belief and the gap. -/
theorem syncedTransmitPoll : Obligations.SyncedTransmitPoll := by
  intro i s s0 pl hstart hen hs hgap hpl
  have hsame := slotMoved_of_pollStart hstart
  rw [hsame.localEnabled] at hen
  rw [hsame.sync] at hs
  rw [hsame.gap] at hgap
  rw [hsame.params, hsame.txbuf] at hpl
  have hsend := valveTxActions_of_payload (s := { s0 with gap := 0 }) hpl
  rw [exec_poll hstart ((slotStep_of_synced _ hen hs).trans (syncedStep_of_gap_one _ hgap)), hsend,
    hsame.params, hsame.hubEnabled, hsame.radioMode, hsame.trace, hsame.env]
  rfl

/-- Settles O28: the two violations of a slot's work, and the overrun. -/
theorem pollViolations : Obligations.PollViolations := by
  refine ⟨fun i s s0 hstart hen hcause => ?_, fun s hmore hslot => ?_⟩
  · have hsame := slotMoved_of_pollStart hstart
    rw [hsame.localEnabled] at hen
    rw [hsame.sync, hsame.gap] at hcause
    have hwork : slotStep (decide (i = .pollFirst)) s0 = (false, violation s0) := by
      obtain ⟨hs, hgap⟩ | hs := hcause
      · exact (slotStep_of_synced _ hen hs).trans (syncedStep_of_gap_zero _ hgap)
      · exact (slotStep_of_finalWait _ hen hs).trans (finalStep_zero s0)
    exact exec_poll hstart hwork
  · exact congrArg Host.Outcome.next (pollNext_of_overrun hmore hslot)

/-- Settles O29: without a pending slot `POLL_NEXT` answers and does no more. -/
theorem pollNextIdle : Obligations.PollNextIdle := fun _ hmore =>
  congrArg Host.Outcome.next (pollNext_of_not_more hmore)

/-- Settles O21: the burst poll sends the frame it builds, and countdown 3 is the last. -/
theorem burstPoll : Obligations.BurstPoll := by
  intro i s s0 c hstart hen hburst F last
  have hsame := slotMoved_of_pollStart hstart
  rw [hsame.localEnabled] at hen
  rw [hsame.sync] at hburst
  have hdue : BurstDue s0 c := hburst.imp_left fun ⟨hs, hc⟩ => ⟨hs, Subtype.ext hc⟩
  obtain ⟨m, hbuilt, hsent⟩ := tx_build Config.cmdSyncStep c.val s0
  have hexec := exec_poll hstart ((slotStep_of_burstDue _ hen hdue).trans (burstStep_eq c s0))
  rw [buildSyncStep, hsent] at hexec
  subst F last
  rw [hsame.txbuf, hsame.hubEnabled, hsame.radioMode, hsame.trace, hsame.env]
  dsimp only at hexec
  by_cases hc : c.val = 3
  · rw [dif_pos hc] at hexec
    refine ⟨_, hexec, hbuilt, fun _ => rfl, fun h => absurd hc h, ?_⟩
    rw [decide_eq_true hc]
    rfl
  · rw [dif_neg hc] at hexec
    refine ⟨_, hexec, hbuilt, fun h => absurd h hc, fun _ => ⟨_, rfl, toNat_burstNext c hc⟩, ?_⟩
    rw [decide_eq_false hc]
    simp [pollAnswer, respond, Config.cmdSyncStep]

/-- Settles O23: the sync-final frame is built and sent, then the valve-set frame is built over it. -/
theorem syncFinalPoll : Obligations.SyncFinalPoll := by
  intro i s s0 hstart hen hs F e1 ext V e2
  have hsame := slotMoved_of_pollStart hstart
  rw [hsame.localEnabled] at hen
  rw [hsame.sync] at hs
  obtain ⟨m, m', hbuilt, hvalve, hfinal⟩ := syncFinalActions_builds s0
  have hexec := exec_poll hstart ((slotStep_of_finalWait _ hen hs).trans (finalStep_one _))
  rw [hfinal] at hexec
  subst e2 V ext e1 F
  rw [hsame.txbuf, hsame.hubEnabled, hsame.radioMode, hsame.trace, hsame.env]
  exact ⟨_, m, hexec, hbuilt, hvalve, rfl⟩

/-! ## The other operations of the scheduler -/

/-- `EXTRA_TX` reads the demand only where its first three guards hold (R204). -/
def ExtraTxOpen (s : State) : Prop :=
  s.localEnabled = true ∧ s.sync = .synced ∧ 20 < s.gap.toNat ∧ s.gap.toNat < 210

theorem extraTx_of_open {s : State} (h : ExtraTxOpen s) :
    extraTx s = if s.params.minReallyOpenPc.val ≤ (demandAnswer s.env).val then
        respond { tx (getDemand s).2 with openBelief := true } (.flag true)
      else respond (getDemand s).2 (.flag false) := by
  obtain ⟨hen, hs, hlo, hhi⟩ := h
  by_cases hp : s.params.minReallyOpenPc.val ≤ (demandAnswer s.env).val <;>
    simp [extraTx, hen, hs, hlo, hhi, hp, reallyOpen, Config.extraTxLo, Config.extraTxHi]

theorem extraTx_of_not_open {s : State} (h : ¬ ExtraTxOpen s) : extraTx s = respond s (.flag false) := by
  unfold extraTx
  cases hen : s.localEnabled with
  | false => rfl
  | true =>
    by_cases hs : s.sync = .synced
    · have hgap : ¬ (Config.extraTxLo < s.gap.toNat ∧ s.gap.toNat < Config.extraTxHi) := fun hin => h ⟨hen, hs, hin⟩
      simp [hs, hgap]
    · simp [hs]

/-- Settles O30: past its guards `EXTRA_TX` is one read of the demand and one `TX`. -/
theorem extraTxSends : Obligations.ExtraTxSends := by
  intro s pl hen hs hlo hhi hdemand hpl
  have hsent := tx_of_payload (s := (getDemand s).2) hpl
  refine congrArg Host.Outcome.next ?_
  rw [extraTx_of_open ⟨hen, hs, hlo, hhi⟩, if_pos hdemand, hsent]
  rfl

/-- Settles O31: one of the first three guards false, or only the last. -/
theorem extraTxRefuses : Obligations.ExtraTxRefuses := by
  refine fun s => ⟨fun hguard => ?_, fun hen hs hlo hhi hdemand => ?_⟩
  · have hclosed : ¬ ExtraTxOpen s := by
      rintro ⟨hen, hs, hlo, hhi⟩
      obtain hoff | hsync | hgap | hgap := hguard
      · exact absurd (hen.symm.trans hoff) nofun
      · exact hsync hs
      · omega
      · omega
    exact congrArg Host.Outcome.next (extraTx_of_not_open hclosed)
  · refine congrArg Host.Outcome.next ?_
    rw [extraTx_of_open ⟨hen, hs, hlo, hhi⟩, if_neg (Nat.not_le.2 hdemand)]
    rfl

/-- Settles O32: the three operations are their writes. -/
theorem administrativeOperations : Obligations.AdministrativeOperations := fun _ => ⟨rfl, rfl, rfl⟩

end Sys2Proof.Machine
end

section
/-! Runs of a host that polls every slot: when a poll is due, what it transmits, and an invariant along the run
(R350). -/

namespace Sys2Proof.Machine

open Sys2Proof.Safety

/-! ## The host's polls -/

/-- The poll of slot number `k` does the work of slot `k mod N_SLOTS` (R350). -/
def SlotDue (P : Config.Params) (k : Nat) (t : State) : Prop :=
  pollStart (hostPoll P k) t = some { t with slot := k % nSlots P }

theorem hostPoll_of_mod_eq {P : Config.Params} {k : Nat} (h : k % nSlots P = 0) : hostPoll P k = .pollFirst := if_pos h

theorem hostPoll_of_mod_ne {P : Config.Params} {k : Nat} (h : k % nSlots P ≠ 0) : hostPoll P k = .pollNext := if_neg h

/-- The first poll of a cycle is always due (R192). -/
theorem slotDue_of_mod_eq {P : Config.Params} {k : Nat} (h : k % nSlots P = 0) (t : State) : SlotDue P k t := by
  rw [SlotDue, hostPoll_of_mod_eq h, h]
  rfl

/-- With a slot pending the next poll is due: within the cycle as a `POLL_NEXT`, behind its last slot as a `POLL_FIRST`
(R192, R193). -/
theorem slotDue_of_more {P : Config.Params} {k : Nat} {t : State} (hparams : t.params = P) (hmore : t.more = true)
    (hslot : t.slot = k % nSlots P) : SlotDue P (k + 1) t := by
  have hlt : k % nSlots P < nSlots P := Nat.mod_lt k (Nat.succ_pos _)
  have hsucc : (k + 1) % nSlots P = (k % nSlots P + 1) % nSlots P := (Nat.mod_add_mod k (nSlots P) 1).symm
  obtain hlast | hinside : k % nSlots P + 1 = nSlots P ∨ k % nSlots P + 1 < nSlots P := by omega
  · rw [hlast, Nat.mod_self] at hsucc
    exact slotDue_of_mod_eq hsucc t
  · rw [Nat.mod_eq_of_lt hinside] at hsucc
    have hnotLast : t.slot ≠ t.params.maxSlot.val := by
      rw [hparams, hslot]
      rw [nSlots] at hinside ⊢
      omega
    rw [SlotDue, hostPoll_of_mod_ne (by omega), hsucc, ← hslot]
    simp [pollStart, hmore, hnotLast]

theorem afterPolls_succ {s t u : State} {first n : Nat} (h : afterPolls s first n = some t)
    (hu : exec (hostPoll s.params (first + n)) t = .next u) : afterPolls s first (n + 1) = some u := by
  simp [afterPolls, h, hu]

/-- What holds before the first poll and is carried by every poll of a run holds before each of its polls. -/
theorem afterPolls_holds {Inv : Nat → State → Prop} {s : State} {first n : Nat} (hstart : Inv first s)
    (hpoll : ∀ k t, k < first + n → Inv k t → ∃ u, exec (hostPoll s.params k) t = .next u ∧ Inv (k + 1) u) :
    ∀ j, j ≤ n → ∃ t, afterPolls s first j = some t ∧ Inv (first + j) t := by
  intro j
  induction j with
  | zero => exact fun _ => ⟨s, rfl, hstart⟩
  | succ j ih =>
    intro hj
    obtain ⟨t, hrun, hinv⟩ := ih (by omega)
    obtain ⟨u, hexec, hinv'⟩ := hpoll (first + j) t (by omega) hinv
    exact ⟨u, afterPolls_succ hrun hexec, hinv'⟩

/-! ## What a poll transmits -/

theorem newTransmits_of_silent {s t : State} (h : t.trace = s.trace) : newTransmits s t = [] := by
  simp [newTransmits, h, transmits]

/-- A payload sent among other calls is the one transmission between two states (R206). -/
theorem newTransmits_of_sent {s t : State} {hub : Bool} {pl : List Byte} {pre post : List Event} (hpl : pl ≠ [])
    (h : t.trace = s.trace ++ pre ++ sendEvents hub pl ++ post) (hpre : transmits pre = [])
    (hpost : transmits post = []) : newTransmits s t = [pl] := by
  have hadded : t.trace = s.trace ++ sentEvents hub pre pl post := by
    rw [h, sendEvents, if_neg hpl]
    simp [sentEvents]
  rw [newTransmits, hadded, List.drop_left]
  exact transmits_sentEvents hub pl hpre hpost

theorem frameOf_ne_nil (c : Command) : frameOf c ≠ [] := by
  have hlen := le_frameLength c
  rw [← length_frameOf] at hlen
  exact List.ne_nil_of_length_pos (by omega)

/-- The poll of slot number `k`: the state it leaves, the slot, the payloads it transmits and its answer. -/
structure Polled (P : Config.Params) (k : Nat) (t u : State) (sent : List (List Byte)) (more : Bool) : Prop where
  exec_eq : exec (hostPoll P k) t = .next u
  slot : u.slot = k % nSlots P
  sent_eq : newTransmits t u = sent
  answer : u.answer = .flag more

end Sys2Proof.Machine
end

section
/-! The whole handshake of a scheduler that is polled in every slot (R210). -/

namespace Sys2Proof.Machine

open Sys2Proof.Safety

/-! ## House codes that stay the same -/

/-- The next `n1` reads of house code 1 answer `hc1`, and the next `n2` of house code 2 answer `hc2` (R81, R115). -/
def CodesFixed (hc1 hc2 : Byte) (n1 n2 : Nat) (e : Env) : Prop :=
  ∃ r1 r2, e.houseCode1 = List.replicate n1 hc1 ++ r1 ∧ e.houseCode2 = List.replicate n2 hc2 ++ r2

section
variable {hc1 hc2 : Byte} {n1 n2 : Nat} {e : Env}

theorem CodesFixed.houseCode1Answer (h : CodesFixed hc1 hc2 (n1 + 1) n2 e) : houseCode1Answer e = hc1 := by
  obtain ⟨r1, r2, h1, -⟩ := h
  simp [Machine.houseCode1Answer, h1, List.replicate_succ]

theorem CodesFixed.houseCode2Answer (h : CodesFixed hc1 hc2 n1 (n2 + 1) e) : houseCode2Answer e = hc2 := by
  obtain ⟨r1, r2, -, h2⟩ := h
  simp [Machine.houseCode2Answer, h2, List.replicate_succ]

theorem CodesFixed.afterHouseCode1 (h : CodesFixed hc1 hc2 (n1 + 1) n2 e) :
    CodesFixed hc1 hc2 n1 n2 (afterHouseCode1 e) := by
  obtain ⟨r1, r2, h1, h2⟩ := h
  exact ⟨r1, r2, by simp [Safety.afterHouseCode1, h1, List.replicate_succ], h2⟩

theorem CodesFixed.afterHouseCode2 (h : CodesFixed hc1 hc2 n1 (n2 + 1) e) :
    CodesFixed hc1 hc2 n1 n2 (afterHouseCode2 e) := by
  obtain ⟨r1, r2, h1, h2⟩ := h
  exact ⟨r1, r2, h1, by simp [Safety.afterHouseCode2, h2, List.replicate_succ]⟩

theorem CodesFixed.afterBuild (h : CodesFixed hc1 hc2 (n1 + 1) (n2 + 1) e) : CodesFixed hc1 hc2 n1 n2 (afterBuild e) :=
  h.afterHouseCode1.afterHouseCode2

/-- A build reads one of each (R171). -/
theorem CodesFixed.builtFrom (h : CodesFixed hc1 hc2 (n1 + 1) (n2 + 1) e) (cmd ext : Byte) :
    builtFrom e cmd ext = ⟨hc1, hc2, 0x00, cmd, ext⟩ := by
  rw [Safety.builtFrom, h.houseCode1Answer, h.afterHouseCode1.houseCode2Answer]

end

/-! ## One poll of the handshake -/

/-- Before the poll of slot number `k` of a handshake: it is due, and the house codes stay the same for `n1` and
`n2` reads. -/
structure Underway (P : Config.Params) (hc1 hc2 : Byte) (n1 n2 k : Nat) (t : State) : Prop where
  params : t.params = P
  enabled : t.localEnabled = true
  due : SlotDue P k t
  codes : CodesFixed hc1 hc2 n1 n2 t.env

section
variable {P : Config.Params} {hc1 hc2 : Byte} {n1 n2 k : Nat} {t : State}

/-- A burst poll sends the sync-step frame of its countdown, and goes on with the next countdown or with the final wait
(R197). -/
theorem Underway.burst (h : Underway P hc1 hc2 (n1 + 1) (n2 + 2) k t) {c : Countdown} (hdue : BurstDue t c) :
    ∃ u, Polled P k t u [frameOf ⟨hc1, hc2, 0x00, 0x2C, c.val⟩] true
      ∧ (c.val = 3 ∧ u.sync = .finalWait (finalWaitOf hc2 (k % nSlots P)) ∧ Underway P hc1 hc2 n1 n2 (k + 1) u
        ∨ c.val ≠ 3 ∧ (∃ c' : Countdown, u.sync = .burst c' ∧ c'.val.toNat + 2 = c.val.toNat)
          ∧ Underway P hc1 hc2 n1 (n2 + 1) (k + 1) u) := by
  have hburst : (t.sync = .unsynced ∧ c.val = 241) ∨ t.sync = .burst c :=
    hdue.imp_left fun ⟨hs, hc⟩ => ⟨hs, congrArg Subtype.val hc⟩
  obtain ⟨u, hexec, -, hlast, hnext, hu⟩ := burstPoll _ t _ c h.due h.enabled hburst
  have hslot : u.slot = k % nSlots P := congrArg State.slot hu
  have hparams : u.params = P := (congrArg State.params hu).trans h.params
  have hen : u.localEnabled = true := (congrArg State.localEnabled hu).trans h.enabled
  have htrace := congrArg State.trace hu
  have henv := congrArg State.env hu
  have hdue' : SlotDue P (k + 1) u := slotDue_of_more hparams (congrArg State.more hu) hslot
  rw [h.codes.builtFrom] at htrace
  refine ⟨u, ⟨hexec, hslot, newTransmits_of_sent (frameOf_ne_nil _) htrace rfl (by split <;> rfl),
    congrArg State.answer hu⟩, ?_⟩
  by_cases hc : c.val = 3
  · have hwait := hlast hc
    rw [h.codes.afterBuild.houseCode2Answer] at hwait
    refine .inl ⟨hc, hwait, hparams, hen, hdue', ?_⟩
    simp only [hc, decide_true, if_true] at henv
    rw [henv]
    exact h.codes.afterBuild.afterHouseCode2
  · refine .inr ⟨hc, hnext hc, hparams, hen, hdue', ?_⟩
    simp only [hc, decide_false, Bool.false_eq_true, if_false] at henv
    rw [henv]
    exact h.codes.afterBuild

/-- A poll of the final wait that is not its last (R198). -/
theorem Underway.wait (h : Underway P hc1 hc2 n1 n2 k t) {w : Byte} (hs : t.sync = .finalWait w) (hw : 2 ≤ w.toNat) :
    ∃ u, Polled P k t u [] true ∧ u.sync = .finalWait (w - 1) ∧ Underway P hc1 hc2 n1 n2 (k + 1) u :=
  ⟨_, ⟨finalWaitPoll _ t _ w h.due h.enabled hs hw, rfl, newTransmits_of_silent rfl, rfl⟩, rfl, h.params, h.enabled,
    slotDue_of_more h.params rfl rfl, h.codes⟩

/-- The last poll of the final wait sends sync-final (R199). -/
theorem Underway.final (h : Underway P hc1 hc2 (n1 + 1) (n2 + 1) k t) (hs : t.sync = .finalWait 1) :
    ∃ u, Polled P k t u [frameOf ⟨hc1, hc2, 0x00, 0x20, 0x00⟩] false ∧ u.sync = .synced := by
  obtain ⟨u, -, hexec, -, -, hu⟩ := syncFinalPoll _ t _ h.due h.enabled hs
  have htrace := congrArg State.trace hu
  rw [h.codes.builtFrom] at htrace
  exact ⟨u, ⟨hexec, congrArg State.slot hu, newTransmits_of_sent (frameOf_ne_nil _) htrace rfl rfl,
    congrArg State.answer hu⟩, congrArg State.sync hu⟩

end

/-! ## The run -/

/-- The final wait that poll 119 begins (R210). -/
def handshakeWait (P : Config.Params) (hc2 : Byte) : Nat := lowBits hc2 + 8 - 119 % nSlots P

/-- What poll `k` of a handshake with final wait `h` transmits (R210). -/
def handshakeSends (hc1 hc2 : Byte) (h k : Nat) : List (List Byte) :=
  if k < 120 then [frameOf ⟨hc1, hc2, 0x00, 0x2C, BitVec.ofNat 8 (241 - 2 * k)⟩]
  else if k < 119 + h then [] else [frameOf ⟨hc1, hc2, 0x00, 0x20, 0x00⟩]

/-- Before poll `k` of a handshake: in the burst with countdown `241 - 2 k`, or in the final wait with the polls
that are left. -/
inductive HandshakeAt (P : Config.Params) (hc1 hc2 : Byte) (k : Nat) (t : State) : Prop where
  | burst (c : Countdown) (hdue : BurstDue t c) (hc : c.val.toNat + 2 * k = 241)
      (hway : Underway P hc1 hc2 (122 - k) (124 - k) k t)
  | wait (w : Byte) (hs : t.sync = .finalWait w) (hk : 120 ≤ k) (hw : w.toNat + k = 120 + handshakeWait P hc2)
      (hway : Underway P hc1 hc2 2 3 k t)

theorem nSlots_le (P : Config.Params) : nSlots P ≤ 8 := Nat.succ_le_of_lt P.maxSlot.isLt

theorem handshakeWait_range (P : Config.Params) (hc2 : Byte) : 1 ≤ handshakeWait P hc2 ∧ handshakeWait P hc2 ≤ 15 := by
  have hmod : 119 % nSlots P < nSlots P := Nat.mod_lt _ (Nat.succ_pos _)
  have hle := nSlots_le P
  have hlow := lowBits_le hc2
  rw [handshakeWait]
  omega

/-- Slot `119 mod N_SLOTS` begins exactly that wait (R197, R205). -/
theorem toNat_finalWaitOf_handshake (P : Config.Params) (hc2 : Byte) :
    (finalWaitOf hc2 (119 % nSlots P)).toNat = handshakeWait P hc2 := by
  have hmod : 119 % nSlots P < nSlots P := Nat.mod_lt _ (Nat.succ_pos _)
  have hle := nSlots_le P
  have hwait := toNat_finalWaitOf hc2 (slot := 119 % nSlots P) (by omega)
  rw [handshakeWait]
  omega

/-- Poll `k` of a handshake (R210). -/
theorem HandshakeAt.poll {P : Config.Params} {hc1 hc2 : Byte} {k : Nat} {t : State} (h : HandshakeAt P hc1 hc2 k t)
    (hle : k ≤ 119 + handshakeWait P hc2) :
    ∃ u, Polled P k t u (handshakeSends hc1 hc2 (handshakeWait P hc2) k) (decide (k < 119 + handshakeWait P hc2))
      ∧ (k = 119 → u.sync = .finalWait (BitVec.ofNat 8 (handshakeWait P hc2)))
      ∧ (k = 119 + handshakeWait P hc2 → u.sync = .synced)
      ∧ (k < 119 + handshakeWait P hc2 → HandshakeAt P hc1 hc2 (k + 1) u) := by
  obtain ⟨hpos, hmax⟩ := handshakeWait_range P hc2
  cases h with
  | burst c hdue hc hway =>
    have hlow := c.property.2.1
    have hk : k ≤ 119 := by omega
    have hext : c.val = BitVec.ofNat 8 (241 - 2 * k) := BitVec.eq_of_toNat_eq (by rw [BitVec.toNat_ofNat]; omega)
    have hsends : handshakeSends hc1 hc2 (handshakeWait P hc2) k = [frameOf ⟨hc1, hc2, 0x00, 0x2C, c.val⟩] := by
      rw [handshakeSends, if_pos (by omega), hext]
    rw [show 122 - k = (121 - k) + 1 by omega, show 124 - k = (122 - k) + 2 by omega] at hway
    obtain ⟨u, hpolled, hnext⟩ := hway.burst hdue
    rw [hsends, decide_eq_true (by omega)]
    refine ⟨u, hpolled, ?_⟩
    obtain ⟨h3, hwait, hway'⟩ | ⟨h3, ⟨c', hburst, hc'⟩, hway'⟩ := hnext
    · obtain rfl : k = 119 := by
        rw [h3] at hc
        simp at hc
        omega
      refine ⟨fun _ => hwait, fun _ => by omega, fun _ => .wait _ hwait (by omega) ?_ hway'⟩
      rw [toNat_finalWaitOf_handshake]
      omega
    · have hne : c.val.toNat ≠ 3 := fun h => h3 (BitVec.eq_of_toNat_eq h)
      refine ⟨fun _ => by omega, fun _ => by omega, fun _ => .burst c' (.inr hburst) (by omega) ?_⟩
      rwa [show 122 - (k + 1) = 121 - k by omega, show 124 - (k + 1) = (122 - k) + 1 by omega]
  | wait w hs hk hw hway =>
    obtain hlast | hmid : k = 119 + handshakeWait P hc2 ∨ k < 119 + handshakeWait P hc2 := by omega
    · obtain rfl : w = 1 := BitVec.eq_of_toNat_eq (by simp; omega)
      obtain ⟨u, hpolled, hsynced⟩ := hway.final hs
      rw [handshakeSends, if_neg (by omega), if_neg (by omega), decide_eq_false (by omega)]
      exact ⟨u, hpolled, fun _ => by omega, fun _ => hsynced, fun _ => by omega⟩
    · obtain ⟨u, hpolled, hwait, hway'⟩ := hway.wait hs (by omega)
      rw [handshakeSends, if_neg (by omega), if_pos hmid, decide_eq_true hmid]
      exact ⟨u, hpolled, fun _ => by omega, fun _ => by omega, fun _ => .wait _ hwait (by omega) (by bv_omega) hway'⟩

/-- The host that polls every slot drives the handshake to its last poll (R210, R350). -/
theorem HandshakeAt.run {s : State} {hc1 hc2 : Byte} (h : HandshakeAt s.params hc1 hc2 0 s) {i : Nat}
    (hi : i ≤ 119 + handshakeWait s.params hc2) :
    ∃ t, afterPolls s 0 i = some t ∧ HandshakeAt s.params hc1 hc2 i t := by
  obtain ⟨t, hrun, ht⟩ := afterPolls_holds (first := 0) h (fun k t hk hat => by
    rw [Nat.zero_add] at hk
    obtain ⟨u, hpolled, _, _, hnext⟩ := hat.poll hk.le
    exact ⟨u, hpolled.exec_eq, hnext hk⟩) i hi
  exact ⟨t, hrun, by rwa [Nat.zero_add] at ht⟩

/-- Settles O34: every poll of the run finds the handshake where R210 says. -/
theorem syncHandshakeRun : Obligations.SyncHandshakeRun := by
  intro s hc1 hc2 r1 r2 hen hs hcodes1 hcodes2 N h i hi
  have hstart : HandshakeAt s.params hc1 hc2 0 s :=
    .burst burstStart (.inl ⟨hs, rfl⟩) rfl ⟨rfl, hen, slotDue_of_mod_eq (Nat.zero_mod _) s, r1, r2, hcodes1, hcodes2⟩
  obtain ⟨t, hrun, ht⟩ := hstart.run hi
  obtain ⟨u, hpolled, hwait, hsynced, -⟩ := ht.poll hi
  exact ⟨t, u, hrun, hpolled.exec_eq, hpolled.slot, hpolled.sent_eq, hpolled.answer, hwait, hsynced⟩

end Sys2Proof.Machine
end

section
/-! The spacing of steady-state transmissions under a host that polls every slot (R211). -/

namespace Sys2Proof.Machine

open Sys2Proof.Safety

/-- Before the poll of slot number `k` between two transmissions, the next one due in slot number `last`. Either no slot
is pending and the gap counts from the start of the next cycle, slot number `next`; or the poll is due and the gap counts
every slot from `k` up to `last`. -/
inductive GapPhase (P : Config.Params) (last k : Nat) (t : State) : Prop where
  | resting (next : Nat) (hmore : t.more = false) (hk : k < next) (hcycle : next < k + nSlots P)
      (hnext : nSlots P ∣ next) (hlast : next ≤ last)
      (hgap : t.gap.toNat + next = last + 1)
  | counting (hdue : SlotDue P k t) (hgap : t.gap.toNat + k = last + 1)
      (hfirst : k % nSlots P = 0 ∨ t.gap.toNat ≤ nSlots P)

/-- A synced, enabled scheduler with the buffer `m` between two transmissions. -/
structure BetweenSends (P : Config.Params) (m : Memory) (last k : Nat) (t : State) : Prop where
  params : t.params = P
  enabled : t.localEnabled = true
  synced : t.sync = .synced
  txbuf : t.txbuf = m
  phase : GapPhase P last k t

/-- With no slot pending, the gap that counts from the start of the next cycle is in one phase or the other. -/
theorem gapPhase_of_not_more {P : Config.Params} {last k next : Nat} {t : State} (hmore : t.more = false)
    (hk : k ≤ next) (hcycle : next < k + nSlots P) (hnext : nSlots P ∣ next) (hlast : next ≤ last)
    (hgap : t.gap.toNat + next = last + 1) : GapPhase P last k t := by
  obtain rfl | hlt := hk.eq_or_lt
  · have hfirst : k % nSlots P = 0 := Nat.mod_eq_zero_of_dvd hnext
    exact .counting (slotDue_of_mod_eq hfirst t) hgap (.inl hfirst)
  · exact .resting next hmore hlt hcycle hnext hlast hgap

/-- Strictly inside a cycle the host's poll is a `POLL_NEXT` (R350). -/
theorem mod_ne_zero_of_lt_dvd {N k next : Nat} (hk : k < next) (hcycle : next < k + N) (hnext : N ∣ next) :
    k % N ≠ 0 := by
  intro h
  have hle : N ≤ next - k := Nat.le_of_dvd (by omega) (Nat.dvd_sub hnext (Nat.dvd_of_mod_eq_zero h))
  omega

section
variable {P : Config.Params} {m : Memory} {last k : Nat} {t : State}

/-- A poll before the last one transmits nothing and leads to the next (R200). -/
theorem BetweenSends.poll (h : BetweenSends P m last k t) (hk : k < last) :
    ∃ u, exec (hostPoll P k) t = .next u ∧ newTransmits t u = [] ∧ BetweenSends P m last (k + 1) u := by
  obtain ⟨rfl, hen, hs, htx, hphase⟩ := h
  cases hphase with
  | resting next hmore hlt hcycle hnext hlast hgap =>
    rw [hostPoll_of_mod_ne (mod_ne_zero_of_lt_dvd hlt hcycle hnext)]
    exact ⟨_, pollNextIdle t hmore, newTransmits_of_silent rfl, rfl, hen, hs, htx,
      gapPhase_of_not_more hmore hlt (by omega) hnext hlast hgap⟩
  | counting hdue hgap hfirst =>
    by_cases hcycle : k % nSlots t.params = 0 ∧ nSlots t.params < t.gap.toNat
    · obtain ⟨hzero, hlt⟩ := hcycle
      have hgap' : (BitVec.ofNat 8 (t.gap.toNat - nSlots t.params)).toNat = t.gap.toNat - nSlots t.params := by
        rw [BitVec.toNat_ofNat]
        omega
      have hnext : nSlots t.params ∣ k + nSlots t.params := (Nat.dvd_of_mod_eq_zero hzero).add (dvd_refl _)
      rw [hostPoll_of_mod_eq hzero]
      refine ⟨_, syncedCyclePoll t hen hs hlt, newTransmits_of_silent rfl, rfl, hen, hs, htx,
        gapPhase_of_not_more rfl ?_ ?_ hnext ?_ ?_⟩
      · exact Nat.add_le_add_left (Nat.succ_pos _) k
      · omega
      · omega
      · show (BitVec.ofNat 8 (t.gap.toNat - nSlots t.params)).toNat + (k + nSlots t.params) = last + 1
        omega
    · have hle : t.gap.toNat ≤ nSlots t.params := hfirst.elim (fun hzero => not_lt.1 fun hlt => hcycle ⟨hzero, hlt⟩) id
      have hgap' : (t.gap - 1).toNat + 1 = t.gap.toNat := by bv_omega
      refine ⟨_, syncedSlotPoll _ t _ hdue hen hs (by omega) fun _ => hle, newTransmits_of_silent rfl, rfl, hen,
        hs, htx, .counting (slotDue_of_more rfl rfl rfl) ?_ (.inr ?_)⟩
      · show (t.gap - 1).toNat + (k + 1) = last + 1
        omega
      · show (t.gap - 1).toNat ≤ nSlots t.params
        omega

/-- The last poll transmits the buffered payload once (R201). -/
theorem BetweenSends.send (h : BetweenSends P m last last t) {pl : List Byte} (hpl : holdsPayload P m pl)
    (hne : pl ≠ []) :
    ∃ u, exec (hostPoll P last) t = .next u ∧ newTransmits t u = [pl] ∧ u.slot = last % nSlots P := by
  obtain ⟨rfl, hen, hs, rfl, hphase⟩ := h
  cases hphase with
  | resting next _ hlt _ _ hlast => omega
  | counting hdue hgap hfirst =>
    have hone : t.gap = 1 := BitVec.eq_of_toNat_eq (by simp; omega)
    refine ⟨_, syncedTransmitPoll _ t _ pl hdue hen hs hone hpl, ?_, rfl⟩
    exact newTransmits_of_sent (hub := t.hubEnabled) (pre := []) (post := [.getRequestedOpenPercent, .getHouseCode2])
      hne (by simp) rfl rfl

end

/-- The host that polls every slot reaches every poll up to the next transmission (R211, R350). -/
theorem BetweenSends.run {s : State} {m : Memory} {last first : Nat} (h : BetweenSends s.params m last first s)
    {j : Nat} (hj : first + j ≤ last) : ∃ t, afterPolls s first j = some t ∧ BetweenSends s.params m last (first + j) t :=
  afterPolls_holds (n := j) h (fun k t hk hat => by
    obtain ⟨u, hexec, -, hnext⟩ := hat.poll (by omega)
    exact ⟨u, hexec, hnext⟩) j le_rfl

/-- Settles O35: no poll before the last transmits, and the last one does. -/
theorem transmissionSpacing : Obligations.TransmissionSpacing := by
  intro s g pl hen hs hmore hslot hg hgap hpl hne N later
  have hlater : s.slot + later = 230 + g + s.params.maxSlot.val - s.slot := by
    have hseven := slot_le_seven hslot
    simp only [later]
    omega
  have hN : nSlots s.params = s.params.maxSlot.val + 1 := rfl
  have hphase : GapPhase s.params (s.slot + later) (s.slot + 1) s :=
    gapPhase_of_not_more hmore (next := nSlots s.params) (by omega) (by omega) dvd_rfl (by omega) (by omega)
  have hstart : BetweenSends s.params s.txbuf (s.slot + later) (s.slot + 1) s := ⟨rfl, hen, hs, rfl, hphase⟩
  refine ⟨fun k hk hlt => ?_, ?_⟩
  · obtain ⟨t, hrun, ht⟩ := hstart.run (j := k - 1) (by omega)
    rw [show s.slot + 1 + (k - 1) = s.slot + k by omega] at ht
    obtain ⟨u, hexec, hsilent, -⟩ := ht.poll (by omega)
    exact ⟨t, u, hrun, hexec, hsilent⟩
  · obtain ⟨t, hrun, ht⟩ := hstart.run (j := later - 1) (by omega)
    rw [show s.slot + 1 + (later - 1) = s.slot + later by omega] at ht
    obtain ⟨u, hexec, hsent, hslot'⟩ := ht.send hpl hne
    rw [show s.slot + later = 229 + g - s.slot + nSlots s.params by omega, Nat.add_mod_right] at hslot'
    exact ⟨t, u, hrun, hexec, hsent, hslot'⟩

end Sys2Proof.Machine
end

section
/-! What the scheduler tells of the valve: `IS_OPEN` reads the sync state and the belief and does no more (R240). -/

namespace Sys2Proof.Machine

theorem isOpen_iff (s : State) : isOpen s = true ↔ s.sync = .synced ∧ s.openBelief = true := by
  simp [isOpen]

theorem exec_isOpen (s : State) : exec .isOpen s = .next { s with answer := .flag (isOpen s) } := rfl

/-- Settles O33: `IS_OPEN` writes its answer alone, and the answer is true exactly when synced with the belief set. -/
theorem isOpenAnswer : Obligations.IsOpenAnswer := by
  intro s
  rw [exec_isOpen]
  refine ⟨fun hopen => ?_, fun hclosed => ?_⟩
  · rw [(isOpen_iff s).2 hopen]
  · rw [Bool.eq_false_iff.2 (mt (isOpen_iff s).1 hclosed)]

end Sys2Proof.Machine
end

section
/-! `PREAMBLE_CHECK` as a position in the bytes of its buffer (R256). -/

namespace Sys2Proof.Machine

open Sys2Proof.Safety

/-! ## Runs of bytes in a buffer -/

theorem Memory.bytes_succ (m : Memory) (a n : Nat) :
    Memory.bytes m a (n + 1) = Memory.read m a :: Memory.bytes m (a + 1) n := by
  simp [Memory.bytes, List.range_succ_eq_map, Nat.add_comm, Nat.add_left_comm]

/-! ## The skip loop -/

/-- With a pass for each byte before position 6, the skip loop passes exactly the run of preamble bytes (R256). -/
theorem skipPreamble_eq (m : Memory) (n : Nat) : ∀ fuel pos, pos + n = 6 → n ≤ fuel →
    skipPreamble m fuel pos = pos + ((Memory.bytes m pos n).takeWhile (fun b => b == 0xCC)).length := by
  induction n with
  | zero =>
    rintro fuel pos rfl -
    cases fuel <;> rfl
  | succ n ih =>
    intro fuel pos hpos hfuel
    obtain ⟨fuel, rfl⟩ : ∃ k, fuel = k + 1 := ⟨fuel - 1, by omega⟩
    have hlt : pos < Config.preambleLen := by rw [Config.preambleLen]; omega
    rw [skipPreamble, Memory.bytes_succ]
    by_cases hb : Memory.read m pos = Config.preambleByte
    · rw [if_pos ⟨hlt, hb⟩, ih fuel (pos + 1) (by omega) (by omega), hb, List.takeWhile_cons_of_pos (by decide),
        List.length_cons]
      omega
    · rw [if_neg fun h => hb h.2, List.takeWhile_cons_of_neg (by simpa [Config.preambleByte] using hb)]
      rfl

/-! ## Where the window starts -/

theorem preambleCheck_eq_windowStart (m : Memory) : preambleCheck m = windowStart (Memory.bytes m 0 46) := by
  have hskip0 := skipPreamble_eq m 6 6 0 rfl le_rfl
  have hskip1 := skipPreamble_eq m 5 6 1 rfl (by omega)
  have h0 : (Memory.bytes m 0 46).getD 0 0 = Memory.read m 0 := rfl
  have h1 : (Memory.bytes m 0 46).getD 1 0 = Memory.read m 1 := rfl
  have htake : (Memory.bytes m 0 46).take 6 = Memory.bytes m 0 6 := rfl
  have hdrop : (Memory.bytes m 0 6).drop 1 = Memory.bytes m 1 5 := rfl
  rw [preambleCheck, windowStart, h0, h1, htake, hdrop]
  rw [show Config.preambleByte = 0xCC from rfl, show Config.preambleLen = 6 from rfl]
  by_cases hb0 : Memory.read m 0 = 0xCC
  · rw [if_neg fun h => h.1 hb0, if_neg (not_not.2 hb0), if_pos hb0, hskip0, Nat.zero_add]
  · by_cases hb1 : Memory.read m 1 = 0xCC
    · rw [if_neg fun h => h.2 hb1, if_pos hb0, if_neg hb0, if_pos hb1, hskip1]
    · rw [if_pos ⟨hb0, hb1⟩, if_neg hb0, if_neg hb1]

/-- The window starts behind a preamble byte and at most six bytes in (R256). -/
theorem windowStart_bounds {fr : List Byte} {pos : Nat} (h : windowStart fr = some pos) : 1 ≤ pos ∧ pos ≤ 6 := by
  unfold windowStart at h
  split at h
  · next hfirst =>
    obtain rfl := Option.some.inj h
    have hle := (List.takeWhile_prefix (l := fr.take 6) (fun b => b == 0xCC)).length_le
    rw [List.length_take] at hle
    refine ⟨?_, by omega⟩
    cases fr with
    | nil => exact absurd hfirst (by decide)
    | cons b fr =>
      obtain rfl : b = 0xCC := hfirst
      simp
  · split at h
    · obtain rfl := Option.some.inj h
      have hle := (List.takeWhile_prefix (l := (fr.take 6).drop 1) (fun b => b == 0xCC)).length_le
      rw [List.length_drop, List.length_take] at hle
      omega
    · cases h

/-- Settles O41: the skip loop is a run of preamble bytes, and the window's start is in range. -/
theorem preambleCheckPosition : Obligations.PreambleCheckPosition := fun m =>
  ⟨preambleCheck_eq_windowStart m, fun _ h => windowStart_bounds ((preambleCheck_eq_windowStart m).symm.trans h)⟩

end Sys2Proof.Machine
end

section
/-! Frames behind a preamble: what is received of a whole frame, and of one cut short behind six more preamble bytes
(R151, R257, R269). -/

namespace Sys2Proof.Machine

open Sys2Proof.Safety

theorem windowBits_take (W : List Byte) : ∀ k, windowBits (W.take k) = (windowBits W).take (8 * k) := by
  induction W with
  | nil => simp [windowBits]
  | cons b W ih =>
    intro k
    cases k with
    | zero => rfl
    | succ k =>
      have hlen : (byteBits b).length = 8 := rfl
      have hcons (V : List Byte) : windowBits (b :: V) = byteBits b ++ windowBits V := rfl
      rw [List.take_succ_cons, hcons, hcons, ih, Nat.mul_succ, Nat.add_comm, ← hlen, List.take_length_add_append]

/-- A frame's raw bits are what a decode of it reads, and the redundant trailer symbol (R97, R145). -/
theorem frameBits_eq_readLogical (c : Command) :
    frameBits c (checksum c) = (readLogical 12 c).flatMap symbolBits ++ symbolBits false := by
  rw [frameBits_eq_flatMap, show frameLogical c (checksum c) = readLogical 12 c ++ [false] from rfl,
    List.flatMap_append, List.flatMap_singleton]

theorem length_readLogical_bits (c : Command) :
    ((readLogical 12 c).flatMap symbolBits).length = 274 + 4 * frameOnesHalf c (checksum c) := by
  have hlen := length_frameBits c
  rw [frameBits_eq_readLogical, List.length_append, show (symbolBits false).length = 4 from rfl] at hlen
  omega

/-- A frame cut short carries its Command while the bits that a decode reads are left (R145, R269). -/
theorem carries_take_frame (c : Command) (tail : List Byte) {k : Nat}
    (h : 274 + 4 * frameOnesHalf c (checksum c) ≤ 8 * k) : carries ((frameOf c ++ tail).take k) c := by
  have hlen := length_readLogical_bits c
  obtain ⟨rest, hbits⟩ := (startsWithLogical_iff _ _).2 (windowPairs_packed (frameLogical c (checksum c)) tail)
  rw [← frameBits_eq_flatMap, ← frameOf, frameBits_eq_readLogical, List.append_assoc] at hbits
  rw [← hlen] at h
  exact ⟨12, _, by rw [windowBits_take, hbits, List.take_append, List.take_of_length_le h]⟩

/-- Six preamble bytes in front are the ones that `PREAMBLE_CHECK` skips (R256). -/
theorem received_preamble_append {W : List Byte} {c : Command} (h : carries W c) :
    received (List.replicate 6 0xCC ++ W) c := ⟨6, rfl, h⟩

/-- A whole frame, with whatever follows it, is received as its Command (R257, R269). -/
theorem received_frame (c : Command) (tail : List Byte) : received (frameOf c ++ tail) c := by
  have hbody := carries_drop_frame c tail le_rfl
  rw [frameOf_eq_preamble, List.append_assoc] at hbody ⊢
  exact received_preamble_append hbody

/-- Six preamble bytes more, and 46 bytes still hold what is read of a frame with `K` at most 11 (R98, R269). -/
theorem received_preamble_frame (c : Command) (tail : List Byte) (h : frameOnesHalf c (checksum c) ≤ 11) :
    received (List.replicate 6 0xCC ++ (frameOf c ++ tail).take 40) c :=
  received_preamble_append (carries_take_frame c tail (by omega))

/-- The first `LEN` bytes of a built buffer are the frame (R67, R136). -/
theorem bytes_encodeInto (c : Command) (B : Memory) :
    Memory.bytes (encodeInto c B).1 0 (encodeInto c B).2 = frameOf c := by
  have hlen : (encodeInto c B).2 = (frameOf c).length := encodeInto_len c B
  rw [hlen]
  refine List.ext_getElem (Memory.length_bytes _ _ _) fun a _ ha => ?_
  rw [Memory.getElem_bytes, Nat.zero_add, encodeInto_builds c B a, if_pos ha, List.getD_eq_getElem _ _ ha]

end Sys2Proof.Machine
end

section
/-! `HUB_POLL` outcome by outcome, with its frame (R254 to R262, R303). -/

namespace Sys2Proof.Machine

open Sys2Proof.Safety

/-! ## Without a received frame -/

/-- What the status read leaves behind: the call, the environment after it, and the log of a fault (R80, R254, R303). -/
theorem statusRead_of_status {s : State} {frame fault : Bool} (h : statusAnswer s.env = ⟨frame, fault⟩) :
    statusRead s = { s with
      trace := s.trace ++ [.readStatus]
      env := afterStatus s.env
      logRadioFault := s.logRadioFault || fault } := by
  rw [statusRead, h]
  rfl

/-- Settles O37: the branches of a poll that is read no frame. -/
theorem hubPollWithoutFrame : Obligations.HubPollWithoutFrame := by
  refine fun s => ⟨fun hoff => ?_, fun hen hst => ?_, fun hen hst => ?_⟩ <;> refine congrArg Host.Outcome.next ?_
  · simp [hubPoll_eq, hoff, respond]
  · simp [hubPoll_eq, hen, hst, statusRead_of_status hst, respond]
  · simp [hubPoll_eq, hen, hst, statusRead_of_status hst, rxReset_eq, respond, Config.rxMaxFrameLen,
      Config.rxLeadingFilter]

/-! ## With a received frame -/

/-- After `HUB_POLL` has read the status and a frame into `RXBUF` (R254). -/
def frameRead (s : State) : State := readFrame (statusRead s)

theorem exec_hubPoll_of_frameReceived {s : State} {fault : Bool} (hen : s.hubEnabled = true)
    (hst : statusAnswer s.env = ⟨true, fault⟩) : exec .hubPoll s = .next (receiveFrame (frameRead s)) := by
  refine congrArg Host.Outcome.next ?_
  rw [hubPoll_eq, hst]
  simp [hen, frameRead]

/-- `RXBUF` after the two reads: the bytes read, and what was behind them (R33, R254). -/
theorem frameRead_rxbuf (s : State) :
    (frameRead s).rxbuf = Memory.writeBytes s.rxbuf 0 (frameAnswer (afterStatus s.env)).val := rfl

theorem length_frameAnswer (e : Env) : (frameAnswer e).val.length = 46 := (frameAnswer e).property

theorem frameRead_rxbuf_read (s : State) (a : Nat) :
    Memory.read (frameRead s).rxbuf a =
      if a < 46 then (frameAnswer (afterStatus s.env)).val.getD a 0 else Memory.read s.rxbuf a := by
  have hlen := length_frameAnswer (afterStatus s.env)
  rw [frameRead_rxbuf, Memory.read_writeBytes, hlen]
  by_cases ha : a < 46
  · rw [if_pos (by omega), if_pos ha, Nat.sub_zero, List.getD_eq_getElem _ _ (by omega),
      List.getD_eq_getElem _ _ (by omega)]
  · rw [if_neg (by omega), if_neg ha]

/-- What the two reads change (R80, R254). -/
theorem frameRead_eq {s : State} {fault : Bool} (h : statusAnswer s.env = ⟨true, fault⟩) :
    frameRead s = { s with
      rxbuf := (frameRead s).rxbuf
      logRadioFault := s.logRadioFault || fault
      trace := s.trace ++ [.readStatus, .readFrame 46]
      env := afterFrame (afterStatus s.env) } := by
  rw [frameRead, statusRead_of_status h]
  simp [readFrame, emitEvent, afterFrame, Config.rxMaxFrameLen]

/-- The preamble check sees the bytes read (R256). -/
theorem preambleCheck_frameRead (s : State) :
    preambleCheck (frameRead s).rxbuf = windowStart (frameAnswer (afterStatus s.env)).val := by
  have hbytes := Memory.bytes_writeBytes s.rxbuf (frameAnswer (afterStatus s.env)).val 0
  rw [length_frameAnswer, ← frameRead_rxbuf, List.drop_zero] at hbytes
  rw [preambleCheck_eq_windowStart, hbytes]

/-- A decode window of `RXBUF` is what is left of the bytes read (R257). -/
theorem bytes_frameRead (s : State) (pos : Nat) :
    Memory.bytes (frameRead s).rxbuf pos (Config.rxBufCap - pos) = (frameAnswer (afterStatus s.env)).val.drop pos := by
  have hbytes := Memory.bytes_writeBytes s.rxbuf (frameAnswer (afterStatus s.env)).val pos
  rwa [length_frameAnswer] at hbytes

/-- Bytes that carry a Command behind their preamble are received as that Command (R256, R257). -/
theorem receiveFrame_of_received {s : State} {c : Command}
    (h : received (frameAnswer (afterStatus s.env)).val c) :
    receiveFrame (frameRead s) = receiveCommand c (frameRead s) := by
  obtain ⟨pos, hpos, hc⟩ := h
  refine receiveFrame_of_carries ((preambleCheck_frameRead s).trans hpos) ?_
  rwa [bytes_frameRead]

/-- Bytes that carry none are discarded, for their preamble or for their window (R256, R261). -/
theorem receiveFrame_of_not_received {s : State}
    (h : ∀ c, ¬ received (frameAnswer (afterStatus s.env)).val c) :
    receiveFrame (frameRead s) = respond (rxReset (frameRead s)) (.activity false) := by
  rw [receiveFrame, preambleCheck_frameRead]
  split
  · rfl
  · next pos hpos =>
    rw [bytes_frameRead]
    have hfail : (decodeWindow ((frameAnswer (afterStatus s.env)).val.drop pos)).2.failed = true :=
      Bool.eq_true_of_not_eq_false fun hok => h _ ⟨pos, hpos, carries_of_decodeWindow hok⟩
    exact if_pos hfail

/-- The two reads and a reset of receive mode (R251, R259, R261). -/
theorem rearmed_eq {s : State} {fault : Bool} (h : statusAnswer s.env = ⟨true, fault⟩) (activity : Bool) :
    respond (rxReset (frameRead s)) (.activity activity) = { s with
      rxbuf := (frameRead s).rxbuf
      logRadioFault := s.logRadioFault || fault
      radioMode := .receive
      trace := s.trace ++ [.readStatus, .readFrame 46, .setStandby, .setReceive 46 true]
      env := afterFrame (afterStatus s.env)
      answer := .activity activity } := by
  rw [rxReset_eq, frameRead_eq h]
  simp [respond, Config.rxMaxFrameLen, Config.rxLeadingFilter]

/-- The two reads, the record of the house code, and the end of reception (R260). -/
theorem recorded_eq {s : State} {fault : Bool} (h : statusAnswer s.env = ⟨true, fault⟩) (hc : HouseCode) :
    respond (setStandby { frameRead s with latch := some hc, hubEnabled := false }) (.activity true) = { s with
      hubEnabled := false
      rxbuf := (frameRead s).rxbuf
      latch := some hc
      logRadioFault := s.logRadioFault || fault
      radioMode := .standby
      trace := s.trace ++ [.readStatus, .readFrame 46, .setStandby]
      env := afterFrame (afterStatus s.env)
      answer := .activity true } := by
  rw [frameRead_eq h]
  simp [respond, setStandby, emitEvent]

/-- Settles O38: the bytes are received as their Command, which the filter accepts. -/
theorem hubPollAccepts : Obligations.HubPollAccepts := by
  intro s fault c hen hst fr hrec hcall
  refine ⟨_, exec_hubPoll_of_frameReceived hen hst, ?_⟩
  rw [receiveFrame_of_received hrec, receiveCommand_of_accepts ((accepts_iff (frameRead s) c).2 hcall)]
  exact ⟨frameRead_rxbuf_read s, recorded_eq hst _⟩

/-- Settles O39: the bytes are received as their Command, which the filter refuses. -/
theorem hubPollRearms : Obligations.HubPollRearms := by
  intro s fault c hen hst fr hrec hother
  refine ⟨_, exec_hubPoll_of_frameReceived hen hst, ?_⟩
  rw [receiveFrame_of_received hrec, receiveCommand_of_not_accepts (hother ∘ (accepts_iff (frameRead s) c).1)]
  exact ⟨frameRead_rxbuf_read s, rearmed_eq hst true⟩

/-- Settles O40: the bytes are received as no Command. -/
theorem hubPollDiscards : Obligations.HubPollDiscards := by
  intro s fault hen hst fr hnone
  refine ⟨_, exec_hubPoll_of_frameReceived hen hst, ?_⟩
  rw [receiveFrame_of_not_received hnone]
  exact ⟨frameRead_rxbuf_read s, rearmed_eq hst false⟩

end Sys2Proof.Machine
end

section
/-! The hub receiver's switch, its latch and its accept-list (R252, R253, R263 to R269). -/

namespace Sys2Proof.Machine

open Sys2Proof.Safety

/-! ## The switch -/

/-- `HUB_ENABLE` by its two branches (R252). -/
theorem exec_hubEnable (force : Bool) (s : State) :
    exec (.hubEnable force) s =
      .next (if s.hubEnabled && !force then { s with answer := .none }
        else { s with
          hubEnabled := true
          radioMode := .receive
          trace := s.trace ++ [.setStandby, .setReceive 46 true]
          answer := .none }) := by
  change execHubEnable force s = _
  rw [execHubEnable, rxReset_eq]
  split <;> rfl

/-- `HUB_DISABLE` by its two branches (R253). -/
theorem exec_hubDisable (s : State) :
    exec .hubDisable s =
      .next (if s.hubEnabled then { s with
          hubEnabled := false
          radioMode := .standby
          trace := s.trace ++ [.setStandby]
          answer := .none }
        else { s with answer := .none }) := by
  change execHubDisable s = _
  rw [execHubDisable]
  split <;> rfl

/-- Settles O36: the branches of the two operations, by the switch and the force. -/
theorem hubSwitches : Obligations.HubSwitches := by
  intro s force
  rw [exec_hubEnable, exec_hubDisable]
  refine ⟨?kept, fun harm => ?_, fun hoff => ?_, fun hon => ?_⟩
  case kept =>
    rintro ⟨hon, rfl⟩
    rw [if_pos (by rw [hon]; rfl)]
  · rw [if_neg (by rcases harm with h | h <;> simp [h])]
  · rw [if_neg (by simp [hoff])]
  · rw [if_pos hon]

/-! ## The latch -/

/-- Settles O44: the two writes of the operation. -/
theorem latchGetClearResult : Obligations.LatchGetClearResult := fun _ => rfl

/-- Settles O42: either reading is received as `c` and accepted; the latch then goes to the first answer, and what that
read left of it, none, to the second. -/
theorem hubLatchOnce : Obligations.HubLatchOnce := by
  intro s c B hen hst hcall fr LEN sent hfr
  have hsent : sent = frameOf c := bytes_encodeInto c B
  have hrec : received fr c := by
    rw [hsent] at hfr
    obtain ⟨_, tail, hwhole⟩ | ⟨hK, tail, hcut⟩ := hfr
    · exact hwhole ▸ received_frame c tail
    · exact hcut ▸ received_preamble_frame c tail hK
  obtain ⟨t, hpoll, _, ht⟩ := hubPollAccepts s false c hen hst hrec hcall
  have hlatch : t.latch = some ⟨c.hc1, c.hc2⟩ := congrArg State.latch ht
  exact ⟨t, _, _, hpoll, congrArg State.answer ht, hlatch, congrArg State.hubEnabled ht, latchGetClearResult t,
    congrArg Answer.latch hlatch, latchGetClearResult _, rfl⟩

/-! ## The accept-list -/

/-- The empty list accepts every house code (R264). -/
theorem aclAccepts_iff (acl : List HouseCode) (hc : HouseCode) : aclAccepts acl hc = true ↔ acl = [] ∨ hc ∈ acl := by
  simp [aclAccepts]

/-- `ACL_ADD` by its three branches (R265). -/
theorem exec_aclAdd (hc : HouseCode) (s : State) :
    exec (.aclAdd hc) s =
      .next (if hc ∈ s.acl then { s with answer := .flag true }
        else if s.acl.length = s.params.aclCap then { s with answer := .flag false }
        else { s with acl := s.acl ++ [hc], answer := .flag true }) := by
  change execAclAdd hc s = _
  rw [execAclAdd]
  simp only [List.contains_iff_mem, respond]

/-- `ACL_REMOVE` (R266). -/
theorem exec_aclRemove (hc : HouseCode) (s : State) :
    exec (.aclRemove hc) s = .next { s with acl := s.acl.filter (fun x => x != hc), answer := .none } := rfl

/-- `ACL_QUERY` answers the filter's verdict (R267). -/
theorem exec_aclQuery (hc : HouseCode) (s : State) :
    exec (.aclQuery hc) s = .next { s with answer := .flag (aclAccepts s.acl hc) } := rfl

/-- Settles O45, operation by operation. -/
theorem acceptListOperations : Obligations.AcceptListOperations := by
  intro s hc
  rw [exec_aclAdd, exec_aclRemove, exec_aclQuery]
  refine ⟨fun hmem => ?_, fun hnew hfull => ?_, fun hnew hroom => ?_, ?removed, fun hacc => ?_, fun hrej => ?_, rfl⟩
  · rw [if_pos hmem]
  · rw [if_neg hnew, if_pos hfull]
  · rw [if_neg hnew, if_neg hroom]
    exact ⟨_, rfl, rfl, fun x => by simp, by simp⟩
  case removed =>
    refine ⟨_, rfl, rfl, fun x => by simp [List.mem_filter], fun habsent => List.filter_eq_self.2 fun x hx => ?_⟩
    exact bne_iff_ne.2 fun heq => habsent (heq ▸ hx)
  · rw [(aclAccepts_iff _ _).2 hacc]
  · rw [Bool.eq_false_iff.2 (mt (aclAccepts_iff _ _).1 hrej)]

end Sys2Proof.Machine
end

section
/-! `RESET` (R340). -/

namespace Sys2Proof.Machine

/-- No cell is listed in the buffer `RESET` leaves behind, so every address reads the blank byte (R31). -/
theorem read_txbuf_resetBlock (s : State) (a : Nat) : Memory.read (resetBlock s).txbuf a = 0xFF :=
  Memory.read_of_unlisted _ a (List.forall_mem_nil _)

/-- `RESET` always completes, and its one effect is the block's writes; it has no answer (R109, R340). -/
theorem exec_reset (s : State) : exec .reset s = .next (respond (resetBlock s) .none) := rfl

/-- Settles O48: `TXBUF` is blank by `read_txbuf_resetBlock`; every other field is written, or kept, by `resetBlock`. -/
theorem resetResult : Obligations.ResetResult := fun s =>
  ⟨respond (resetBlock s) .none, exec_reset s, read_txbuf_resetBlock s, rfl⟩

end Sys2Proof.Machine
end
